-- ==== Sys2Proof/Word.lean ====
section
/-! DEFINITION. The word types of the engine: bytes, bus words, lanes, register-block offsets, and the two fixed
arrays the spec builds from them (25 lanes of state, 200-byte windows). -/

namespace Sys2Proof

/-- One byte of a data window, of the buffer or of the state. -/
abbrev Byte := BitVec 8

/-- One 32-bit bus word, and one command word (20_memory.md R61, 30_encoding.md R100). -/
abbrev Word := BitVec 32

/-- "one 64-bit word of the 1600-bit permutation state" (00_scope.md, glossary). -/
abbrev Lane := BitVec 64

/-- A byte offset into the 4096-byte register block, 0x000 to 0xFFF (20_memory.md R62, 70_reset_and_hazards.md R300). -/
abbrev Offset := BitVec 12

/-- The permutation state `S[0..24]`: lane `y*5+x` at index `y*5+x` (10_state.md R25). -/
abbrev Lanes := Vector Lane 25

/-- 200 bytes of storage: DIN, DOUT or BUF (10_state.md R26, R37, R38). -/
abbrev Window := Vector Byte 200

/-- The zero state, "Created zeroed" (10_state.md R25). -/
def Lanes.zero : Lanes := Vector.replicate 25 0

/-- 200 zero bytes, the reset contents of every window (10_state.md R44). -/
def Window.zero : Window := Vector.replicate 200 0

end Sys2Proof
end

