-- ==== Sys2Proof/Syntax.lean ====
section
/-! DEFINITION. The command set `KFPE-CMD1` as syntax: one constructor for each row of spec/opcode_table.json,
with the operand field its format gives it (30_encoding.md R101 to R104). -/

namespace Sys2Proof

/-- A command (30_encoding.md R104). `variant` is the VARIANT field of format V, `len` the LEN field of format L. -/
inductive Instr where
  /-- INIT, opcode 0x01, format V: start a session (43_incremental.md R222). -/
  | init (variant : BitVec 4)
  /-- UPDATE, opcode 0x02, format L: feed bytes to the incremental buffer (43_incremental.md R223). -/
  | update (len : BitVec 8)
  /-- FINALIZE, opcode 0x03, format N: pad, absorb, squeeze the digest, end the session (43_incremental.md R224). -/
  | finalize
  /-- PERMUTE, opcode 0x10, format N: one permutation (40_permutation.md R139). -/
  | permute
  /-- ABSORB, opcode 0x11, format L: XOR one rate block and permute (42_sponge.md R181). -/
  | absorb (len : BitVec 8)
  /-- SQUEEZE, opcode 0x12, format L: extract bytes into DOUT (42_sponge.md R183). -/
  | squeeze (len : BitVec 8)
  /-- DUPLEX, opcode 0x13, format L: extract one block, XOR one block, permute once (42_sponge.md R187). -/
  | duplex (len : BitVec 8)
  /-- PAD_ABSORB, opcode 0x14, format L: absorb a message with its padding (42_sponge.md R189). -/
  | padAbsorb (len : BitVec 8)
  deriving DecidableEq, Repr

/-- The three formats of a command word (30_encoding.md R100). -/
inductive Format where
  /-- No operand: bits 31:8 reserved (R101). -/
  | N
  /-- LEN in bits 15:8, bits 31:16 reserved (R102). -/
  | L
  /-- VARIANT in bits 11:8, bits 31:12 reserved (R103). -/
  | V
  deriving DecidableEq, Repr

/-- The format the opcode selects (30_encoding.md R104). -/
def Instr.format : Instr → Format
  | .init _ => .V
  | .update _ => .L
  | .finalize => .N
  | .permute => .N
  | .absorb _ => .L
  | .squeeze _ => .L
  | .duplex _ => .L
  | .padAbsorb _ => .L

/-- "The raw commands are PERMUTE, ABSORB, SQUEEZE, DUPLEX and PAD_ABSORB" (10_state.md R24). -/
def Instr.isRaw : Instr → Bool
  | .init _ => false
  | .update _ => false
  | .finalize => false
  | .permute => true
  | .absorb _ => true
  | .squeeze _ => true
  | .duplex _ => true
  | .padAbsorb _ => true

end Sys2Proof
end

