-- ==== Sys2Proof/WellFormed.lean ====
section
/-! DEFINITION. Which terms of the syntax a command word can spell (30_encoding.md R105). -/

namespace Sys2Proof

/-- The last VARIANT code that names a descriptor; 6 to 15 are reserved (30_encoding.md R103). -/
abbrev lastVariant : BitVec 4 := 5

/-- An INIT whose VARIANT is 6 to 15 spells no command (30_encoding.md R105). Every other operand value does:
LEN is 0 to 255 and "A LEN greater than 200 decodes" (30_encoding.md R102). -/
def Instr.wellFormed : Instr → Bool
  | .init variant => decide (variant ≤ lastVariant)
  | .update _ => true
  | .finalize => true
  | .permute => true
  | .absorb _ => true
  | .squeeze _ => true
  | .duplex _ => true
  | .padAbsorb _ => true

end Sys2Proof
end

