-- ==== Sys2Proof/Decode.lean ====
section
/-! DEFINITION. Decoding: a total function on all 2^32 command words, rejecting by name (30_encoding.md R105,
R106), and the encoder `enc(op, arg) = (arg << 8) | op` (R104). -/

namespace Sys2Proof

/-- Why a word spells no command (30_encoding.md R105). All of them raise ILLEGAL_CMD at completion. -/
inductive DecodeReject where
  /-- OPC is not one of the eight of R104. -/
  | unknownOpcode (opc : Byte)
  /-- A reserved bit of the format is 1. -/
  | reservedBits (format : Format)
  /-- An INIT word with VARIANT 6 to 15. -/
  | reservedVariant (variant : BitVec 4)
  deriving DecidableEq, Repr

/-- OPC, bits 7:0 of every command word (R100). -/
abbrev opcField (w : Word) : Byte := w.extractLsb' 0 8

/-- LEN, bits 15:8 of a format L word (R102). -/
abbrev lenField (w : Word) : BitVec 8 := w.extractLsb' 8 8

/-- VARIANT, bits 11:8 of a format V word (R103). -/
abbrev variantField (w : Word) : BitVec 4 := w.extractLsb' 8 4

/-- A format N word: the command if `w[31:8] = 0` (R101, R106). -/
def decodeN (w : Word) (i : Instr) : Except DecodeReject Instr :=
  if w.extractLsb' 8 24 = 0 then .ok i else .error (.reservedBits .N)

/-- A format L word: the command with its LEN if `w[31:16] = 0` (R102, R106). -/
def decodeL (w : Word) (mk : BitVec 8 → Instr) : Except DecodeReject Instr :=
  if w.extractLsb' 16 16 = 0 then .ok (mk (lenField w)) else .error (.reservedBits .L)

/-- A format V word: INIT if `w[31:12] = 0` and its VARIANT is not reserved (R103, R106). -/
def decodeV (w : Word) : Except DecodeReject Instr :=
  if w.extractLsb' 12 20 = 0 then
    if variantField w ≤ lastVariant then .ok (.init (variantField w))
    else .error (.reservedVariant (variantField w))
  else .error (.reservedBits .V)

/-- `Decode(w)` (R106). -/
def decode (w : Word) : Except DecodeReject Instr :=
  if opcField w = 0x01 then decodeV w
  else if opcField w = 0x02 then decodeL w .update
  else if opcField w = 0x03 then decodeN w .finalize
  else if opcField w = 0x10 then decodeN w .permute
  else if opcField w = 0x11 then decodeL w .absorb
  else if opcField w = 0x12 then decodeL w .squeeze
  else if opcField w = 0x13 then decodeL w .duplex
  else if opcField w = 0x14 then decodeL w .padAbsorb
  else .error (.unknownOpcode (opcField w))

/-- The opcode of a command (R104). -/
def Instr.opcode : Instr → Byte
  | .init _ => 0x01
  | .update _ => 0x02
  | .finalize => 0x03
  | .permute => 0x10
  | .absorb _ => 0x11
  | .squeeze _ => 0x12
  | .duplex _ => 0x13
  | .padAbsorb _ => 0x14

/-- The operand of a command as a word, 0 for format N. -/
def Instr.operand : Instr → Word
  | .init variant => variant.setWidth 32
  | .update len => len.setWidth 32
  | .finalize => 0
  | .permute => 0
  | .absorb len => len.setWidth 32
  | .squeeze len => len.setWidth 32
  | .duplex len => len.setWidth 32
  | .padAbsorb len => len.setWidth 32

/-- `enc(op, arg) = (arg << 8) | op` (R104). -/
def encode (i : Instr) : Word := (i.operand <<< 8) ||| i.opcode.setWidth 32

/-- The command the decoder reads from a table word: every command is one 32-bit word (R107), and the word is a
number written to CMD, so no byte order enters. -/
def decodeTableWord (nbits w : Nat) : Option Instr :=
  match decode (BitVec.ofNat 32 (w % 2 ^ nbits)) with
  | .ok i => some i
  | .error _ => none

end Sys2Proof
end

