-- ==== Sys2Proof/Config.lean ====
section
/-! DEFINITION. What the implementation fixes (00_scope.md R9) and the values the spec leaves open. Two points
are OPEN in the spec: `BASE`, here `Config.base`, and `LATENCY`, which needs no constant, because the order of host
and engine steps is data in State (`State.inputs`, assumption 1). -/

namespace Sys2Proof.Config

/-- FREE VALUE. What the n-th read of POS, PERM_COUNT, ACFG0, ACFG1, DOUT or STATE made while `busy = 1` returns:
"returns any 32-bit value" (70_reset_and_hazards.md R314). `State.freeCount` is the n (assumption 3). -/
opaque busyRead : Nat → Word

/-- OPEN parameter `BASE`: the address of the register block in the host's map (20_memory.md R62, 00_scope.md R9). -/
opaque base : Nat

/-- Bytes of the permutation state: 1600 bits (R9). -/
abbrev stateBytes : Nat := 200

/-- "maximum LEN of a command" and the size of DIN and DOUT (R9). -/
abbrev maxLen : Nat := 200

/-- "round-constant table length" (R9). -/
abbrev maxRounds : Nat := 24

/-- The largest suffix length (R9, 41_padding.md R165). -/
abbrev maxSuffixLen : Nat := 7

/-- Words of a data window: 50 words of 4 bytes (10_state.md R37). -/
abbrev windowWords : Nat := 50

/-- The size of the register block in bytes (R9). -/
abbrev blockBytes : Nat := 4096

/-- The constant of the ID register, ASCII "KECC" (10_state.md R34). -/
abbrev idWord : Word := 0x4B454343

end Sys2Proof.Config
end

