-- ==== Sys2Proof/Machine/State.lean ====
section
/-! DEFINITION. The state of one engine instance (10_state.md R20), its reset value (R44), the interface data the model
adds (the order of steps to come, the reset pin, the last bus response, the free-value counter), and the reasons a step
can stop. -/

namespace Sys2Proof.Machine

/-- The session's phase (10_state.md R23); its 2-bit code is `Phase.code`. -/
inductive Phase where
  /-- 0: no session exists. -/
  | idle
  /-- 1: the source's "Accumulating". -/
  | accum
  /-- 2: the source's "Finalized". -/
  | final
  /-- 3: a contract violation was detected. -/
  | fault
  deriving DecidableEq, Repr

/-- The engine's fault causes (60_exceptions.md R260); the 8-bit code is `Cause.code`. Codes 0x0C to 0xFF are "never
produced", so they have no constructor. These are causes recorded in `err`, not stops of the model. -/
inductive Cause where
  | none
  | illegalCmd
  | sequence
  | badLen
  | blockLen
  | badRounds
  | badCapacity
  | rateMismatch
  | badDigest
  | badSuffix
  | cmdOverrun
  | busyWrite
  deriving DecidableEq, Repr

/-- The fields of CFG0 (10_state.md R28). Reserved bits have no storage: they "read as 0" and a write drops them. -/
structure Cfg0 where
  /-- CAPACITY, bits 10:0, in bits. -/
  capacity : BitVec 11
  /-- ROUNDS, bits 20:16. -/
  rounds : BitVec 5
  deriving DecidableEq, Repr

/-- The fields of CFG1 (10_state.md R28). -/
structure Cfg1 where
  /-- RATE_BYTES, bits 7:0. -/
  rate : BitVec 8
  /-- DIGEST_BYTES, bits 15:8. -/
  digest : BitVec 8
  /-- SUFFIX_BITS, bits 23:16. -/
  sb : BitVec 8
  /-- SUFFIX_LEN, bits 27:24. -/
  sl : BitVec 4
  deriving DecidableEq, Repr

/-- A configuration: a variant descriptor with its round count, the six fields of `act` (10_state.md R27). -/
structure SessionConfig extends Cfg0, Cfg1
  deriving DecidableEq, Repr

/-- Every field 0, the value of `act` after reset (10_state.md R27). -/
def SessionConfig.zero : SessionConfig :=
  { capacity := 0, rounds := 0, rate := 0, digest := 0, sb := 0, sl := 0 }

/-- The size of a bus access (20_memory.md R64): only 32 bits is served. -/
inductive AccessSize where
  | bits8
  | bits16
  | bits32
  | bits64
  deriving DecidableEq, Repr

/-- One host access at the register-bus port (20_memory.md R64, 70_reset_and_hazards.md R300). -/
inductive BusAccess where
  /-- `BusRead(off)`. -/
  | read (size : AccessSize) (off : Offset)
  /-- `BusWrite(off, v)`. -/
  | write (size : AccessSize) (off : Offset) (v : Word)
  deriving DecidableEq, Repr

/-- Whose step comes next: "Every execution is one interleaving of host accesses and engine completions"
(20_memory.md R68), and the platform drives `rst_n` (70_reset_and_hazards.md R300). -/
inductive Turn where
  /-- The engine's turn: it completes the command in flight, if there is one. -/
  | engine
  /-- The host makes one bus access. -/
  | access (a : BusAccess)
  /-- The platform asserts `rst_n`. -/
  | assertReset
  /-- The platform releases `rst_n`. -/
  | releaseReset
  deriving DecidableEq, Repr

/-- What the register bus answered to a host access (20_memory.md R64). -/
inductive Response where
  /-- No access has been made yet. -/
  | none
  /-- A write was served. -/
  | written
  /-- A read was served, with its data. -/
  | data (w : Word)
  /-- The error response. -/
  | error
  deriving DecidableEq, Repr

/-- The machine's state: R20's table, field by field, then the model's own interface fields. -/
structure State where
  /-- `S[0..24]`, the permutation state (R25). -/
  lanes : Lanes
  /-- `phase` (R23). -/
  phase : Phase
  /-- `err`, the cause of the fault (R33). -/
  err : Cause
  /-- `busy` (R40). -/
  busy : Bool
  /-- `pending`, the accepted command word (R40). -/
  pending : Word
  /-- `done` (R42). -/
  done : Bool
  /-- `irq_en` (R30). -/
  irqEn : Bool
  /-- `cmd_last`, the most recent accepted command word (R32). -/
  cmdLast : Word
  /-- `act`, the configuration of the session (R27). -/
  act : SessionConfig
  /-- `cfg0` (R28). -/
  cfg0 : Cfg0
  /-- `cfg1` (R28). -/
  cfg1 : Cfg1
  /-- `pos`, the fill offset of the buffer (R26). -/
  pos : BitVec 8
  /-- `BUF[0..199]`, the incremental buffer (R26). -/
  buf : Window
  /-- `perm_count` (R29). -/
  permCount : Word
  /-- `DIN[0..199]` (R37). -/
  din : Window
  /-- `DOUT[0..199]` (R38). -/
  dout : Window
  /-- The level of the `rst_n` port, true when released (70_reset_and_hazards.md R300). -/
  rstN : Bool
  /-- MODEL'S OWN (assumption 1): the steps still to come, first one first. -/
  inputs : List Turn
  /-- MODEL'S OWN (assumption 4): the answer of the bus to the latest host access. -/
  response : Response
  /-- MODEL'S OWN (assumption 3): how many free values reads have taken so far. -/
  freeCount : Nat
  deriving DecidableEq, Repr

/-- The state after reset (10_state.md R44), `rst_n` released, with no step to come. -/
def State.reset : State where
  lanes := Lanes.zero
  phase := .idle
  err := .none
  busy := false
  pending := 0
  done := false
  irqEn := false
  cmdLast := 0
  act := SessionConfig.zero
  cfg0 := { capacity := 512, rounds := 24 }
  cfg1 := { rate := 136, digest := 32, sb := 0b10, sl := 2 }
  pos := 0
  buf := Window.zero
  permCount := 0
  din := Window.zero
  dout := Window.zero
  rstN := true
  inputs := []
  response := .none
  freeCount := 0

/-- Why the machine stops with a fault. The engine's own contract violations are NOT here: they are `Cause`s, and
the machine goes on in phase FAULT. -/
inductive Fault where
  /-- Raised by a host turn (`hostTurn`) whose access is not a 32-bit access at a multiple of 4: "A model treats an
  error response as a fault of the host program and gives it no engine step" (20_memory.md R64). SAFE: the engine's state
  would not change; `busAccess` says so (assumption 5). -/
  | busError (a : BusAccess)
  deriving DecidableEq, Repr

/-- Why the machine refuses a step. -/
inductive Refusal where
  /-- Raised by an arm of `exec` that has no meaning yet; no arm is left so. SAFE. -/
  | notModelled (mnemonic : String)
  /-- Raised by a host turn (`hostTurn`) while `rst_n` is asserted: "A host access made while `rst_n` is asserted is outside
  the model" (70_reset_and_hazards.md R300). SAFE (assumption 6). -/
  | accessDuringReset (a : BusAccess)
  deriving DecidableEq, Repr

/-- What a step answers. -/
abbrev Result := Host.Outcome State Fault Refusal

end Sys2Proof.Machine
end

