-- ==== Sys2Proof/Machine/Flags.lean ====
section
/-! DEFINITION. The flags a host reads: the interrupt level (60_exceptions.md R270), STATUS (10_state.md R31) and the codes
of the phase and of the fault cause. -/

namespace Sys2Proof.Machine

/-- STATUS.PHASE (10_state.md R23). -/
def Phase.code : Phase → BitVec 2
  | .idle => 0
  | .accum => 1
  | .final => 2
  | .fault => 3

/-- STATUS.ERR_CODE (60_exceptions.md R260). -/
def Cause.code : Cause → BitVec 8
  | .none => 0x00
  | .illegalCmd => 0x01
  | .sequence => 0x02
  | .badLen => 0x03
  | .blockLen => 0x04
  | .badRounds => 0x05
  | .badCapacity => 0x06
  | .rateMismatch => 0x07
  | .badDigest => 0x08
  | .badSuffix => 0x09
  | .cmdOverrun => 0x0A
  | .busyWrite => 0x0B

/-- STATUS.FAULT "reads 1 exactly when `phase = FAULT`" (10_state.md R42). -/
abbrev State.faultFlag (s : State) : Bool := decide (s.phase = .fault)

/-- The interrupt output: `irq = irq_en AND (done OR (phase = FAULT))` (60_exceptions.md R270). -/
abbrev State.irq (s : State) : Bool := s.irqEn && (s.done || s.faultFlag)

/-- `STATUS = zext_32(irq ++ err ++ 0b00 ++ phase ++ 0b0 ++ (phase = FAULT) ++ done ++ busy)` (10_state.md R31). -/
def statusWord (s : State) : Word :=
  (BitVec.ofBool s.irq ++ s.err.code ++ (0 : BitVec 2) ++ s.phase.code ++ (0 : BitVec 1) ++
    BitVec.ofBool s.faultFlag ++ BitVec.ofBool s.done ++ BitVec.ofBool s.busy).setWidth 32

/-- CTRL as read: IRQ_EN in bit 1, SRST "reads 0" (10_state.md R30). -/
def ctrlWord (s : State) : Word := (BitVec.ofBool s.irqEn ++ (0 : BitVec 1)).setWidth 32

end Sys2Proof.Machine
end

