-- ==== Sys2Proof/Machine/Bytes.lean ====
section
/-! DEFINITION. Byte order, decided once: bytes of the state (20_memory.md R60), bytes of bus words (R61), and the
reads and writes of 200-byte windows (00_scope.md R11). Every accessor is total: an index past the end reads as 0 and a
write past the end is dropped (assumption 8). -/

namespace Sys2Proof.Machine

/-- Lane `i` of a state, `S[i]` (00_scope.md R11). -/
def laneAt (A : Lanes) (i : Nat) : Lane := A.toList.getD i 0

/-- Byte `k` of a window: `DIN[k]`, `DOUT[k]`, `BUF[k]` (00_scope.md R11). -/
def byteAt (w : Window) (k : Nat) : Byte := w.toList.getD k 0

/-- Byte `j` of a lane, least significant first (20_memory.md R60). -/
def laneByte (v : Lane) (j : Nat) : Byte := v.extractLsb' (8 * j) 8

/-- `Sbyte(k)`: bits `8*(k mod 8)+7 : 8*(k mod 8)` of lane `k div 8` (20_memory.md R60). -/
def stateByte (A : Lanes) (k : Nat) : Byte := laneByte (laneAt A (k / 8)) (k % 8)

/-- `Sbytes(a, n)` (00_scope.md R11). -/
def stateBytes (A : Lanes) (a n : Nat) : List Byte := (List.range n).map fun k => stateByte A (a + k)

/-- The lane whose byte `j` is `f j` (20_memory.md R60). -/
def laneOfBytes (f : Nat → Byte) : Lane := f 7 ++ f 6 ++ f 5 ++ f 4 ++ f 3 ++ f 2 ++ f 1 ++ f 0

/-- XOR of the first `R` bytes of `b` into the first `R` bytes of the state, `Sbyte(k) <- Sbyte(k) ⊕ b[k]` for
`k < R`, every other byte kept (42_sponge.md R180). -/
def xorBlock (A : Lanes) (R : Nat) (b : List Byte) : Lanes :=
  Vector.ofFn fun i : Fin 25 =>
    laneAt A i ^^^ laneOfBytes fun j => if 8 * i.val + j < R then b.getD (8 * i.val + j) 0 else 0

/-- Byte `i` of a bus word (20_memory.md R61). -/
def wordByte (v : Word) (i : Nat) : Byte := v.extractLsb' (8 * i) 8

/-- `byte0 | byte1 << 8 | byte2 << 16 | byte3 << 24` (20_memory.md R61). -/
def wordOfBytes (b0 b1 b2 b3 : Byte) : Word := b3 ++ b2 ++ b1 ++ b0

/-- `X[a:a+n)` of a window (00_scope.md R11). -/
def windowSlice (w : Window) (a n : Nat) : List Byte := (w.toList.drop a).take n

/-- `X[a:a+len(bs)) <- bs`, every other byte kept. -/
def windowSplice (w : Window) (a : Nat) (bs : List Byte) : Window :=
  Vector.ofFn fun k : Fin 200 =>
    if a ≤ k.val ∧ k.val < a + bs.length then bs.getD (k.val - a) 0 else byteAt w k

/-- Word `j` of a window (20_memory.md R61). -/
def windowWord (w : Window) (j : Nat) : Word :=
  wordOfBytes (byteAt w (4 * j)) (byteAt w (4 * j + 1)) (byteAt w (4 * j + 2)) (byteAt w (4 * j + 3))

/-- The window after a write of word `j` (20_memory.md R61). -/
def setWindowWord (w : Window) (j : Nat) (v : Word) : Window :=
  windowSplice w (4 * j) [wordByte v 0, wordByte v 1, wordByte v 2, wordByte v 3]

/-- Word `j` of the STATE window: `Sbyte(4j) .. Sbyte(4j+3)` (10_state.md R39). -/
def stateWord (A : Lanes) (j : Nat) : Word :=
  wordOfBytes (stateByte A (4 * j)) (stateByte A (4 * j + 1)) (stateByte A (4 * j + 2)) (stateByte A (4 * j + 3))

end Sys2Proof.Machine
end

