-- ==== Sys2Proof/Machine/Keccak.lean ====
section
/-! DEFINITION. The permutation `KeccakP(A, n)` (40_permutation.md R130 to R137). -/

namespace Sys2Proof.Machine

/-- `rotl(v, n)` (00_scope.md R12). -/
def rotl (v : Lane) (n : Nat) : Lane := v.rotateLeft n

/-- The rotation offsets, "indexed by source lane 0..24" (40_permutation.md R133). -/
def rhoOffset (i : Nat) : Nat :=
  [0, 1, 62, 28, 27, 36, 44, 6, 55, 20, 3, 10, 43, 25, 39, 41, 45, 15, 21, 8, 18, 2, 61, 56, 14].getD i 0

/-- The destination lane of each source lane (40_permutation.md R134). -/
def piLane (i : Nat) : Nat :=
  [0, 10, 20, 5, 15, 16, 1, 11, 21, 6, 7, 17, 2, 12, 22, 23, 8, 18, 3, 13, 14, 24, 9, 19, 4].getD i 0

/-- `RC[t]`, one arm for each entry of the table of 40_permutation.md R135 (from general knowledge there, assumption 11);
"A model should use this table as data". No `t` past 23 is ever used (assumption 8). -/
def roundConstant (t : Nat) : Lane :=
  match t with
  | 0 => 0x0000000000000001
  | 1 => 0x0000000000008082
  | 2 => 0x800000000000808A
  | 3 => 0x8000000080008000
  | 4 => 0x000000000000808B
  | 5 => 0x0000000080000001
  | 6 => 0x8000000080008081
  | 7 => 0x8000000000008009
  | 8 => 0x000000000000008A
  | 9 => 0x0000000000000088
  | 10 => 0x0000000080008009
  | 11 => 0x000000008000000A
  | 12 => 0x000000008000808B
  | 13 => 0x800000000000008B
  | 14 => 0x8000000000008089
  | 15 => 0x8000000000008003
  | 16 => 0x8000000000008002
  | 17 => 0x8000000000000080
  | 18 => 0x000000000000800A
  | 19 => 0x800000008000000A
  | 20 => 0x8000000080008081
  | 21 => 0x8000000000008080
  | 22 => 0x0000000080000001
  | 23 => 0x8000000080008008
  | _ => 0

/-- `C[x]`, the parity of column `x` (40_permutation.md R131). -/
def columnParity (A : Lanes) (x : Nat) : Lane :=
  laneAt A x ^^^ laneAt A (x + 5) ^^^ laneAt A (x + 10) ^^^ laneAt A (x + 15) ^^^ laneAt A (x + 20)

/-- `D[x] = C[x-1] ⊕ rotl(C[x+1], 1)`, indices mod 5 (40_permutation.md R131). -/
def thetaMask (A : Lanes) (x : Nat) : Lane :=
  columnParity A ((x + 4) % 5) ^^^ rotl (columnParity A ((x + 1) % 5)) 1

/-- Theta (40_permutation.md R131). -/
def theta (A : Lanes) : Lanes := Vector.ofFn fun i : Fin 25 => laneAt A i ^^^ thetaMask A (i.val % 5)

/-- Rho and pi: `B[PI[i]] <- rotl(A[i], RHO[i])` for `i` in 0..24 (40_permutation.md R132). -/
def rhoPi (A : Lanes) : Lanes :=
  (List.range 25).foldl (fun B i => B.set! (piLane i) (rotl (laneAt A i) (rhoOffset i))) Lanes.zero

/-- Chi: every lane reads the input of chi (40_permutation.md R136). Lane `i = y*5+x` has row base `5*(i div 5)`. -/
def chi (B : Lanes) : Lanes :=
  Vector.ofFn fun i : Fin 25 =>
    laneAt B i ^^^
      (~~~laneAt B (i.val / 5 * 5 + (i.val % 5 + 1) % 5) &&& laneAt B (i.val / 5 * 5 + (i.val % 5 + 2) % 5))

/-- Iota: XOR the round constant into lane 0 only (40_permutation.md R137). -/
def iota (A : Lanes) (rc : Lane) : Lanes := A.set! 0 (laneAt A 0 ^^^ rc)

/-- One round: theta, rho and pi, chi, iota (40_permutation.md R130). -/
def keccakRound (A : Lanes) (rc : Lane) : Lanes := iota (chi (rhoPi (theta A))) rc

/-- `KeccakP(A, n)`: round `i` of `n` uses constant index `24-n+i` (40_permutation.md R130). -/
def keccakP (A : Lanes) (n : Nat) : Lanes :=
  (List.range n).foldl (fun B i => keccakRound B (roundConstant (24 - n + i))) A

end Sys2Proof.Machine
end

