-- ==== Sys2Proof/Machine/Padding.lean ====
section
/-! DEFINITION. The block formatter `Pad(R, m, sb, sl)`: pad10*1 with a domain suffix (41_padding.md R160 to R166). -/

namespace Sys2Proof.Machine

/-- `T = R * ceil((8*L + sl + 2) / (8*R))`, the length of the padded message in bytes (41_padding.md R161). -/
def padLength (R L sl : Nat) : Nat := R * ((8 * L + sl + 2 + (8 * R - 1)) / (8 * R))

/-- `Pad(R, m, sb, sl)`: the message, zeros up to length `T`, then the suffix with the leading 1 ORed into byte `L` and
the final 1 into byte `T-1` (41_padding.md R161). -/
def pad (R : Nat) (m : List Byte) (sb : Byte) (sl : Nat) : List Byte :=
  let L := m.length
  let T := padLength R L sl
  ((m ++ List.replicate (T - L) 0).modify L fun b => b ||| sb ||| ((1 : Byte) <<< sl)).modify (T - 1) fun b => b ||| 0x80

end Sys2Proof.Machine
end

