-- ==== Sys2Proof/Machine/Ops.lean ====
section
/-! DEFINITION. The named operations over the state: permute, absorb, padded absorb, squeeze, duplex; fault entry (the
one way an exception is taken); reset (the one way out of FAULT); acceptance and the common end of a completion. -/

namespace Sys2Proof.Machine

/-- `R`, that is `act.rate`, in bytes (42_sponge.md). -/
abbrev State.rate (s : State) : Nat := s.act.rate.toNat

/-- `Permute()`: the permutation with the session's round count, counted modulo 2^32 (40_permutation.md R138). -/
def permuteOp (s : State) : State :=
  { s with lanes := keccakP s.lanes s.act.rounds.toNat, permCount := s.permCount + 1 }

/-- `AbsorbBlock(b)` (42_sponge.md R180). -/
def absorbBlock (b : List Byte) (s : State) : State :=
  permuteOp { s with lanes := xorBlock s.lanes s.rate b }

/-- Absorb every full rate block of `bs` in order and give back the bytes left over: the loop
`while n - i >= R` of UPDATE (43_incremental.md R223) and, on a padded message, the block loop of `PadAbsorb`
(42_sponge.md R188). `fuel` bounds the blocks; `bs.length` is enough whenever `R ≥ 1`. -/
def absorbBlocks : Nat → List Byte → State → State × List Byte
  | 0, bs, s => (s, bs)
  | fuel + 1, bs, s =>
    if s.rate ≤ bs.length then absorbBlocks fuel (bs.drop s.rate) (absorbBlock (bs.take s.rate) s)
    else (s, bs)

/-- `PadAbsorb(m)` (42_sponge.md R188). -/
def padAbsorbOp (m : List Byte) (s : State) : State :=
  let P := pad s.rate m s.act.sb s.act.sl.toNat
  (absorbBlocks (P.length / s.rate) P s).1

/-- The loop of `SqueezeOut(n)` from offset `off` on: full blocks, each followed by a permutation, then a final
partial block without one (42_sponge.md R182). -/
def squeezeFrom (n : Nat) : Nat → Nat → State → State
  | 0, off, s => { s with dout := windowSplice s.dout off (stateBytes s.lanes 0 (n - off)) }
  | fuel + 1, off, s =>
    if s.rate ≤ n - off then
      squeezeFrom n fuel (off + s.rate)
        (permuteOp { s with dout := windowSplice s.dout off (stateBytes s.lanes 0 s.rate) })
    else { s with dout := windowSplice s.dout off (stateBytes s.lanes 0 (n - off)) }

/-- `SqueezeOut(n)` (42_sponge.md R182). -/
def squeezeOut (n : Nat) (s : State) : State := squeezeFrom n n 0 s

/-- `DuplexBlock(b)`: the output is the state before the input is XORed in (42_sponge.md R186). -/
def duplexBlock (b : List Byte) (s : State) : State :=
  absorbBlock b { s with dout := windowSplice s.dout 0 (stateBytes s.lanes 0 s.rate) }

/-- `FaultEntry(code)`: taking an exception. In FAULT it changes nothing, so `err` keeps the first code
(60_exceptions.md R266, R267). -/
def faultEntry (code : Cause) (s : State) : State :=
  match s.phase with
  | .fault => s
  | .idle => { s with phase := .fault, err := code }
  | .accum => { s with phase := .fault, err := code }
  | .final => { s with phase := .fault, err := code }

/-- Every piece of the engine's state at its reset value (10_state.md R44); the port and the model's own fields
keep theirs. This is the only return from FAULT (60_exceptions.md R267). -/
def resetEngine (s : State) : State :=
  { State.reset with rstN := s.rstN, inputs := s.inputs, response := s.response, freeCount := s.freeCount }

/-- The common end of every completion: `busy <- 0; done <- 1; pending <- 0` (60_exceptions.md R265). -/
def retire (s : State) : State := { s with busy := false, done := true, pending := 0 }

/-- `Complete()` (60_exceptions.md R265): the checks, then the command's effect or fault entry, then the common end.
A command completing in FAULT is abandoned. -/
def completion (failed : Option Cause) (effect : State → State) (s : State) : State :=
  match s.phase, failed with
  | .fault, _ => retire s
  | _, some code => retire (faultEntry code s)
  | _, none => retire (effect s)

/-- Acceptance of a command word: `cmd_last <- w; pending <- w; busy <- 1` (60_exceptions.md R264). -/
def accept (w : Word) (s : State) : State := { s with cmdLast := w, pending := w, busy := true }

end Sys2Proof.Machine
end

