-- ==== Sys2Proof/Machine/Operands.lean ====
section
/-! DEFINITION. Every operand form of the three formats (30_encoding.md R101 to R103) and the register words that carry a
configuration (10_state.md R28, R36). -/

namespace Sys2Proof.Machine

/-- `n = zext(w[15:8])`, unscaled and unsigned (30_encoding.md R102). -/
abbrev lenBytes (len : BitVec 8) : Nat := len.toNat

/-- `DIN[0:n)`, the bytes a LEN of `n` names (30_encoding.md R102). -/
def dinBytes (n : Nat) (s : State) : List Byte := windowSlice s.din 0 n

/-- `BUF[0:pos)`, the "unabsorbed caller data" (10_state.md R26). -/
def bufferedBytes (s : State) : List Byte := windowSlice s.buf 0 s.pos.toNat

/-- The custom configuration of CFG0 and CFG1 (43_incremental.md R222, `v = 0`). -/
abbrev customConfig (s : State) : SessionConfig := { s.cfg0, s.cfg1 with }

/-- The configuration VARIANT `v` selects: the rows of 30_encoding.md R103, and none for the reserved 6 to 15. -/
def variantConfig (v : BitVec 4) (s : State) : Option SessionConfig :=
  match v.toNat with
  | 0 => some (customConfig s)
  | 1 => some { capacity := 512, rounds := 24, rate := 136, digest := 32, sb := 0b10, sl := 2 }
  | 2 => some { capacity := 768, rounds := 24, rate := 104, digest := 48, sb := 0b10, sl := 2 }
  | 3 => some { capacity := 1024, rounds := 24, rate := 72, digest := 64, sb := 0b10, sl := 2 }
  | 4 => some { capacity := 256, rounds := 24, rate := 168, digest := 32, sb := 0b1111, sl := 4 }
  | 5 => some { capacity := 512, rounds := 24, rate := 136, digest := 64, sb := 0b1111, sl := 4 }
  | _ => none

/-- The word CFG0 and ACFG0 read: `zext_32(rounds ++ 0b00000 ++ capacity)` (10_state.md R28, R36). -/
def cfg0Word (c : Cfg0) : Word := (c.rounds ++ (0 : BitVec 5) ++ c.capacity).setWidth 32

/-- The word CFG1 and ACFG1 read: `zext_32(sl ++ sb ++ digest ++ rate)` (10_state.md R28, R36). -/
def cfg1Word (c : Cfg1) : Word := (c.sl ++ c.sb ++ c.digest ++ c.rate).setWidth 32

/-- The fields a write to CFG0 stores; reserved bits are dropped (10_state.md R28). -/
def cfg0OfWord (v : Word) : Cfg0 := { capacity := v.extractLsb' 0 11, rounds := v.extractLsb' 16 5 }

/-- The fields a write to CFG1 stores; reserved bits are dropped (10_state.md R28). -/
def cfg1OfWord (v : Word) : Cfg1 :=
  { rate := v.extractLsb' 0 8, digest := v.extractLsb' 8 8, sb := v.extractLsb' 16 8, sl := v.extractLsb' 24 4 }

end Sys2Proof.Machine
end

