-- ==== Sys2Proof/Machine/Bus.lean ====
section
/-! DEFINITION. The register block seen from the bus: the register map (20_memory.md R63), reads and writes with their side
effects (R64 to R67), and what a busy engine does with them (70_reset_and_hazards.md R311 to R315). -/

namespace Sys2Proof.Machine

/-- What stands at an offset of the register block (20_memory.md R63). -/
inductive Reg where
  | id
  | ctrl
  | status
  | cmd
  | pos
  | permCount
  | cfg0
  | cfg1
  | acfg0
  | acfg1
  | din (j : Nat)
  | dout (j : Nat)
  | state (j : Nat)
  | reserved
  deriving DecidableEq, Repr

/-- The register map, for an offset that is a multiple of 4 (20_memory.md R63). -/
def regAtNat (o : Nat) : Reg :=
  if o = 0x000 then .id
  else if o = 0x004 then .ctrl
  else if o = 0x008 then .status
  else if o = 0x00C then .cmd
  else if o = 0x010 then .pos
  else if o = 0x014 then .permCount
  else if o = 0x018 then .cfg0
  else if o = 0x01C then .cfg1
  else if o = 0x020 then .acfg0
  else if o = 0x024 then .acfg1
  else if 0x100 ≤ o ∧ o ≤ 0x1C4 then .din ((o - 0x100) / 4)
  else if 0x200 ≤ o ∧ o ≤ 0x2C4 then .dout ((o - 0x200) / 4)
  else if 0x300 ≤ o ∧ o ≤ 0x3C4 then .state ((o - 0x300) / 4)
  else .reserved

/-- What stands at an offset (20_memory.md R63). -/
def regAt (off : Offset) : Reg := regAtNat off.toNat

/-- The exact value of a register (10_state.md R28 to R39; reserved offsets read 0, 20_memory.md R65). -/
def regValue (r : Reg) (s : State) : Word :=
  match r with
  | .id => Config.idWord
  | .ctrl => ctrlWord s
  | .status => statusWord s
  | .cmd => s.cmdLast
  | .pos => s.pos.setWidth 32
  | .permCount => s.permCount
  | .cfg0 => cfg0Word s.cfg0
  | .cfg1 => cfg1Word s.cfg1
  | .acfg0 => cfg0Word s.act.toCfg0
  | .acfg1 => cfg1Word s.act.toCfg1
  | .din j => windowWord s.din j
  | .dout j => windowWord s.dout j
  | .state j => stateWord s.lanes j
  | .reserved => 0

/-- The registers whose reads are left open while `busy = 1`: POS, PERM_COUNT, ACFG0, ACFG1, DOUT and STATE
(70_reset_and_hazards.md R314). -/
def Reg.openWhileBusy : Reg → Bool
  | .pos | .permCount | .acfg0 | .acfg1 | .dout _ | .state _ => true
  | .id | .ctrl | .status | .cmd | .cfg0 | .cfg1 | .din _ | .reserved => false

/-- `BusRead` of a register: its value, or a free value for a read that R314 leaves open. The engine's own state never
changes; taking a free value moves only the model's counter. -/
def readReg (r : Reg) (s : State) : State × Word :=
  if s.busy && r.openWhileBusy then ({ s with freeCount := s.freeCount + 1 }, Config.busyRead s.freeCount)
  else (s, regValue r s)

/-- A write to CTRL: SRST = 1 is the soft reset and ignores the other bits, otherwise bit 1 becomes `irq_en`
(10_state.md R30, 70_reset_and_hazards.md R302). -/
def writeCtrl (v : Word) (s : State) : State :=
  if v.getLsbD 0 then resetEngine s else { s with irqEn := v.getLsbD 1 }

/-- A write to STATUS: a 1 in bit 1 clears DONE, nothing else changes (10_state.md R31). -/
def writeStatus (v : Word) (s : State) : State :=
  if v.getLsbD 1 then { s with done := false } else s

/-- A write to CMD, the issue of a command (60_exceptions.md R264): discarded in FAULT (R268), an overrun while busy (R269),
otherwise accepted unchecked. -/
def writeCmd (w : Word) (s : State) : State :=
  match s.phase, s.busy with
  | .fault, _ => s
  | _, true => faultEntry .cmdOverrun s
  | _, false => accept w s

/-- A write to DIN, CFG0 or CFG1: while `busy = 1` it is discarded and runs `FaultEntry(BUSY_WRITE)`
(70_reset_and_hazards.md R313). -/
def writeInput (store : State → State) (s : State) : State :=
  if s.busy then faultEntry .busyWrite s else store s

/-- `BusWrite` to a register; writes to read-only registers and reserved offsets are ignored (20_memory.md R65). -/
def writeReg (r : Reg) (v : Word) (s : State) : State :=
  match r with
  | .ctrl => writeCtrl v s
  | .status => writeStatus v s
  | .cmd => writeCmd v s
  | .cfg0 => writeInput (fun t => { t with cfg0 := cfg0OfWord v }) s
  | .cfg1 => writeInput (fun t => { t with cfg1 := cfg1OfWord v }) s
  | .din j => writeInput (fun t => { t with din := setWindowWord t.din j v }) s
  | .id | .pos | .permCount | .acfg0 | .acfg1 | .dout _ | .state _ | .reserved => s

/-- "a single 32-bit access at an offset that is a multiple of 4" (20_memory.md R64). -/
abbrev served (size : AccessSize) (off : Offset) : Prop := size = .bits32 ∧ off.toNat % 4 = 0

/-- One host access at the port: the engine's state after it and the bus's answer. An access that is not served gets an
error response and "has no effect on any engine state" (20_memory.md R64). -/
def busAccess (a : BusAccess) (s : State) : State × Response :=
  match a with
  | .read size off =>
    if served size off then ((readReg (regAt off) s).1, .data (readReg (regAt off) s).2) else (s, .error)
  | .write size off v =>
    if served size off then (writeReg (regAt off) v s, .written) else (s, .error)

/-- The host's turn. An error response is a fault of the host program (20_memory.md R64, assumption 5); an access while
`rst_n` is asserted is outside the model (70_reset_and_hazards.md R300, assumption 6). -/
def hostTurn (a : BusAccess) (s : State) : Result :=
  if s.rstN then
    match busAccess a s with
    | (_, .error) => .fault (.busError a)
    | (t, .none) => .next { t with response := .none }
    | (t, .written) => .next { t with response := .written }
    | (t, .data w) => .next { t with response := .data w }
  else .refused (.accessDuringReset a)

/-- The platform asserts `rst_n`: "the state takes the reset values of 10_state.md rule R44"
(70_reset_and_hazards.md R300). -/
def assertResetPin (s : State) : State := resetEngine { s with rstN := false }

/-- The platform releases `rst_n` (70_reset_and_hazards.md R300). -/
def releaseResetPin (s : State) : State := { s with rstN := true }

/-- The host address of an offset: the block stands at `BASE` (20_memory.md R62, R63). -/
def hostAddress (off : Offset) : Nat := Config.base + off.toNat

/-- The offset a host address selects, if it lies in the 4096-byte block at `BASE` (20_memory.md R62). -/
def offsetOf (addr : Nat) : Option Offset :=
  if Config.base ≤ addr ∧ addr < Config.base + Config.blockBytes then some (BitVec.ofNat 12 (addr - Config.base)) else none

end Sys2Proof.Machine
end

