-- ==== Sys2Proof/Machine/Checks.lean ====
section
/-! DEFINITION. The checks of one completion, in the spec's order (60_exceptions.md R261, R263): the first that fails
names the cause. -/

namespace Sys2Proof.Machine

/-- `CheckConfig(c)` (60_exceptions.md R263). -/
def checkConfig (c : SessionConfig) : Option Cause :=
  if c.rounds.toNat > Config.maxRounds then some .badRounds
  else if c.capacity.toNat % 64 ≠ 0 ∨ c.capacity.toNat ≥ 1600 then some .badCapacity
  else if c.rate.toNat ≠ (1600 - c.capacity.toNat) / 8 then some .rateMismatch
  else if c.digest.toNat > Config.stateBytes then some .badDigest
  else if c.sl.toNat > Config.maxSuffixLen ∨ c.sb.toNat ≥ 2 ^ c.sl.toNat then some .badSuffix
  else none

/-- The SEQUENCE check of a command other than INIT: "if phase = IDLE" and "if phase = FINAL" (60_exceptions.md R261). -/
def checkPhase (s : State) : Option Cause :=
  match s.phase with
  | .idle => some .sequence
  | .accum => none
  | .final => some .sequence
  | .fault => none

/-- The SEQUENCE check of a raw command: the phase, and `pos ≠ 0` (60_exceptions.md R261). -/
def checkRaw (s : State) : Option Cause :=
  (checkPhase s).orElse fun _ => if s.pos ≠ 0 then some .sequence else none

/-- The BAD_LEN check of format L: `n > 200` (60_exceptions.md R261). -/
def checkLen (n : Nat) : Option Cause := if n > Config.maxLen then some .badLen else none

/-- The BLOCK_LEN check of ABSORB and DUPLEX: `n ≠ act.rate` (60_exceptions.md R261). -/
def checkBlock (n : Nat) (s : State) : Option Cause := if n ≠ s.rate then some .blockLen else none

/-- `Check(w)` on a decoded command, the first failing check if there is one (60_exceptions.md R261). For INIT a
reserved VARIANT is ILLEGAL_CMD (30_encoding.md R105); the decoder rejects those words before (assumption 10). -/
def check (i : Instr) (s : State) : Option Cause :=
  match i with
  | .init v =>
    match variantConfig v s with
    | none => some .illegalCmd
    | some c => checkConfig c
  | .update len => (checkPhase s).orElse fun _ => checkLen (lenBytes len)
  | .finalize => checkPhase s
  | .permute => checkRaw s
  | .absorb len =>
    (checkRaw s).orElse fun _ => (checkLen (lenBytes len)).orElse fun _ => checkBlock (lenBytes len) s
  | .squeeze len => (checkRaw s).orElse fun _ => checkLen (lenBytes len)
  | .duplex len =>
    (checkRaw s).orElse fun _ => (checkLen (lenBytes len)).orElse fun _ => checkBlock (lenBytes len) s
  | .padAbsorb len => (checkRaw s).orElse fun _ => checkLen (lenBytes len)

end Sys2Proof.Machine
end

