-- ==== Sys2Proof/Machine/Incremental.lean ====
section
/-! DEFINITION. The meanings of the incremental hash state machine: INIT, UPDATE and FINALIZE (43_incremental.md). -/

namespace Sys2Proof.Machine

/-- The effect of INIT with a configuration that passed its checks (43_incremental.md R222). -/
def startSession (c : SessionConfig) (s : State) : State :=
  { s with act := c, lanes := Lanes.zero, pos := 0, buf := Window.zero, permCount := 0, phase := .accum }

/-- The effect of INIT with VARIANT `v`. The checks leave no case without a configuration. -/
def initEffect (v : BitVec 4) (s : State) : State :=
  match variantConfig v s with
  | some c => startSession c s
  | none => s

/-- The first branch of UPDATE, `pos + n < R`: append to the buffer (43_incremental.md R223). -/
def appendToBuffer (d : List Byte) (s : State) : State :=
  { s with buf := windowSplice s.buf s.pos.toNat d, pos := BitVec.ofNat 8 (s.pos.toNat + d.length) }

/-- The top-off of UPDATE when `pos > 0`: fill the buffer to `R` bytes, absorb it, and give back the rest of the data
(43_incremental.md R223). With `pos = 0` nothing is absorbed and all the data is left. -/
def topOff (d : List Byte) (s : State) : State × List Byte :=
  if s.pos.toNat > 0 then
    let k := s.rate - s.pos.toNat
    let t := { s with buf := windowSplice s.buf s.pos.toNat (d.take k) }
    (absorbBlock (windowSlice t.buf 0 s.rate) t, d.drop k)
  else (s, d)

/-- The end of UPDATE: `BUF[0 : n-i) <- d[i : n); pos <- n - i` (43_incremental.md R223). -/
def keepTail (tail : List Byte) (s : State) : State :=
  { s with buf := windowSplice s.buf 0 tail, pos := BitVec.ofNat 8 tail.length }

/-- The second branch of UPDATE, `pos + n ≥ R` (43_incremental.md R223). -/
def flushBlocks (d : List Byte) (s : State) : State :=
  let (t, rest) := topOff d s
  let (u, tail) := absorbBlocks rest.length rest t
  keepTail tail u

/-- The effect of UPDATE on the data `d = DIN[0:n)` (43_incremental.md R223). -/
def updateEffect (d : List Byte) (s : State) : State :=
  if s.pos.toNat + d.length < s.rate then appendToBuffer d s else flushBlocks d s

/-- The effect of FINALIZE (43_incremental.md R224). -/
def finalizeEffect (s : State) : State :=
  let t := squeezeOut s.act.digest.toNat (padAbsorbOp (bufferedBytes s) s)
  { t with pos := 0, phase := .final }

/-- INIT (43_incremental.md R222). -/
def execInit (v : BitVec 4) (s : State) : Result :=
  .next (completion (check (.init v) s) (initEffect v) s)

/-- UPDATE (43_incremental.md R223). -/
def execUpdate (len : BitVec 8) (s : State) : Result :=
  .next (completion (check (.update len) s) (fun t => updateEffect (dinBytes (lenBytes len) t) t) s)

/-- FINALIZE (43_incremental.md R224). -/
def execFinalize (s : State) : Result :=
  .next (completion (check .finalize s) finalizeEffect s)

end Sys2Proof.Machine
end

