-- ==== Sys2Proof/Machine/Permutation.lean ====
section
/-! DEFINITION. The meaning of PERMUTE (40_permutation.md R139). -/

namespace Sys2Proof.Machine

/-- PERMUTE: `Permute()` (40_permutation.md R139). -/
def execPermute (s : State) : Result :=
  .next (completion (check .permute s) permuteOp s)

end Sys2Proof.Machine
end

