-- ==== Sys2Proof/Machine/Sponge.lean ====
section
/-! DEFINITION. The meanings of the raw sponge commands ABSORB, SQUEEZE, DUPLEX and PAD_ABSORB (42_sponge.md). -/

namespace Sys2Proof.Machine

/-- ABSORB: `AbsorbBlock(DIN[0:R))` (42_sponge.md R181). -/
def execAbsorb (len : BitVec 8) (s : State) : Result :=
  .next (completion (check (.absorb len) s) (fun t => absorbBlock (dinBytes t.rate t) t) s)

/-- SQUEEZE: `SqueezeOut(n)` (42_sponge.md R183). -/
def execSqueeze (len : BitVec 8) (s : State) : Result :=
  .next (completion (check (.squeeze len) s) (squeezeOut (lenBytes len)) s)

/-- DUPLEX: `DuplexBlock(DIN[0:R))` (42_sponge.md R187). -/
def execDuplex (len : BitVec 8) (s : State) : Result :=
  .next (completion (check (.duplex len) s) (fun t => duplexBlock (dinBytes t.rate t) t) s)

/-- PAD_ABSORB: `PadAbsorb(DIN[0:n))` (42_sponge.md R189). -/
def execPadAbsorb (len : BitVec 8) (s : State) : Result :=
  .next (completion (check (.padAbsorb len) s) (fun t => padAbsorbOp (dinBytes (lenBytes len) t) t) s)

end Sys2Proof.Machine
end

