-- ==== Sys2Proof/Machine/Dispatch.lean ====
section
/-! DEFINITION. One arm for each command: its completion (60_exceptions.md R265). -/

namespace Sys2Proof.Machine

def exec (i : Instr) (s : State) : Host.Outcome State Fault Refusal :=
  match i with
  | .init variant => Sys2Proof.Machine.execInit variant s
  | .update len => Sys2Proof.Machine.execUpdate len s
  | .finalize => Sys2Proof.Machine.execFinalize s
  | .permute => Sys2Proof.Machine.execPermute s
  | .absorb len => Sys2Proof.Machine.execAbsorb len s
  | .squeeze len => Sys2Proof.Machine.execSqueeze len s
  | .duplex len => Sys2Proof.Machine.execDuplex len s
  | .padAbsorb len => Sys2Proof.Machine.execPadAbsorb len s

end Sys2Proof.Machine
end

