-- ==== Sys2Proof/Machine/Engine.lean ====
section
/-! DEFINITION. The engine's turn: the completion of the command in flight (60_exceptions.md R265), and how a command
word is placed in flight. -/

namespace Sys2Proof.Machine

/-- The completion of the pending word: a word that spells no command raises ILLEGAL_CMD, unless the engine is in FAULT
(30_encoding.md R105, 60_exceptions.md R261, R265). -/
def complete (s : State) : Result :=
  match decode s.pending with
  | .ok i => exec i s
  | .error _ => .next (completion (some .illegalCmd) id s)

/-- The engine's turn. Completion is "enabled exactly when `busy = 1`" (60_exceptions.md R265), the engine "takes no step"
while `rst_n` is asserted (70_reset_and_hazards.md R300), and otherwise it keeps its state (60_exceptions.md R281). -/
def engineTurn (s : State) : Result :=
  if s.rstN && s.busy then complete s else .next s

/-- The state in which the command word `w` has been accepted and the engine's turn comes next (assumption 7). -/
def placeCommand (w : Word) (s : State) : State :=
  { accept w s with rstN := true, inputs := .engine :: s.inputs }

end Sys2Proof.Machine
end

