-- ==== Sys2Proof/Machine/Step.lean ====
section
/-! DEFINITION. One step of the machine: the agent whose turn it is takes it (00_scope.md R8, R14; 20_memory.md R68). -/

namespace Sys2Proof.Machine

/-- One agent step. The turns stand in `State.inputs`; when none is left the engine has the turn, so that "every
accepted command completes after finitely many host steps" (70_reset_and_hazards.md R320, assumptions 1 and 2). -/
def step (s : State) : Host.Outcome State Fault Refusal :=
  match s.inputs with
  | [] => engineTurn s
  | .engine :: rest => engineTurn { s with inputs := rest }
  | .access a :: rest => hostTurn a { s with inputs := rest }
  | .assertReset :: rest => .next (assertResetPin { s with inputs := rest })
  | .releaseReset :: rest => .next (releaseResetPin { s with inputs := rest })

/-- The state in which the very next step completes the command word `w` (assumption 7). -/
def State.withFetchWord (s : State) (nbits w : Nat) : State :=
  placeCommand (BitVec.ofNat 32 (w % 2 ^ nbits)) s

end Sys2Proof.Machine
end

