-- ==== Sys2Proof/Machine/HostProgram.lean ====
section
/-! DEFINITION. The host's side: command lines and their assembly, the pseudo-instructions with their expansions into bus
accesses and their conditions on the answers (30_encoding.md R108, R109), the ways to wait (70_reset_and_hazards.md R316) and
the host sequence of a session (R306). Nothing here is engine state: a host program runs beside the machine, one `step` for
each access and each completion. -/

namespace Sys2Proof.Machine

/-- The offset of CMD, `0x00C` (20_memory.md R63). -/
def cmdOffset : Offset := 0x00C

/-- The offset of STATUS, `0x008` (20_memory.md R63). -/
def statusOffset : Offset := 0x008

/-- `WR off, v`: `BusWrite(off, v)` (R109). -/
def wr (off : Offset) (v : Word) : Turn := .access (.write .bits32 off v)

/-- `RD off`: `BusRead(off)` (R109). -/
def rd (off : Offset) : Turn := .access (.read .bits32 off)

/-- A command line stands for `BusWrite(0x00C, enc(OPC, operand))` (R108). -/
def issue (i : Instr) : Turn := wr cmdOffset (encode i)

/-- The offset of word `j` of a window whose first word stands at `base`. -/
def wordOffset (base : Offset) (j : Nat) : Offset := base + BitVec.ofNat 12 (4 * j)

/-- The accesses of `LOADDIN b0 .. b(m-1)`: `ceil(m/4)` writes, bytes past `m` read as 0 (R109). -/
def loadDinTurns (bs : List Byte) : List Turn :=
  (List.range ((bs.length + 3) / 4)).map fun j =>
    wr (wordOffset 0x100 j)
      (wordOfBytes (bs.getD (4 * j) 0) (bs.getD (4 * j + 1) 0) (bs.getD (4 * j + 2) 0) (bs.getD (4 * j + 3) 0))

/-- "the text's ASCII bytes, without a terminator" (R109); none if a character is not ASCII. -/
def asciiBytes : List Char → Option (List Byte)
  | [] => some []
  | c :: cs => if c.toNat < 128 then (asciiBytes cs).map (BitVec.ofNat 8 c.toNat :: ·) else none

/-- The offsets `READOUT m` reads: the first `ceil(m/4)` words of DOUT (R109). -/
def readOutOffsets (m : Nat) : List Offset := (List.range ((m + 3) / 4)).map (wordOffset 0x200)

/-- "bytes unpacked by 20_memory.md rule R61, the first m kept" (R109). -/
def unpackBytes (m : Nat) (ws : List Word) : List Byte :=
  (ws.flatMap fun w => [wordByte w 0, wordByte w 1, wordByte w 2, wordByte w 3]).take m

/-- Consecutive chunks of at most 200 bytes, in order (R109); `fuel` bounds their number. -/
def chunksOf : Nat → List Byte → List (List Byte)
  | 0, _ => []
  | _ + 1, [] => []
  | fuel + 1, b :: bs => (b :: bs).take Config.maxLen :: chunksOf fuel ((b :: bs).drop Config.maxLen)

/-- A host program in progress. -/
structure HostRun where
  /-- The engine. -/
  machine : State
  /-- For each host access still to come, whether the engine takes its turn just before it; past the end of the list it
  always does. The program does not see it: it stands for the OPEN `LATENCY`, "a model may schedule the completion at any
  point after acceptance, after any number of host accesses" (70_reset_and_hazards.md R320, assumption 13). -/
  schedule : List Bool
  /-- The values the `RD` lines read so far, in order. -/
  words : List Word
  /-- The bytes the `READOUT`s kept so far, in order. -/
  bytes : List Byte
  deriving DecidableEq, Repr

/-- Why a host program ends before its last line. -/
inductive HostStop where
  /-- `CHECK` read FAULT = 1: "the program is in error" (R109). -/
  | inError
  /-- The line is none of R109's: a `LOADDIN` of more than 200 bytes, or of a text that is not ASCII. -/
  | notALine
  /-- A read left no data in the machine's record of the answer. No read the bus serves does. -/
  | noData
  /-- A wait whose condition never comes true: no completion is to come and STATUS, or `irq`, does not show it (R316,
  assumption 13). -/
  | endlessWait
  /-- The machine's step is a fault: the bus answered with an error (20_memory.md R64). -/
  | fault (reason : Fault)
  /-- The machine's step is refused (70_reset_and_hazards.md R300). -/
  | refused (reason : Refusal)
  deriving DecidableEq, Repr

/-- One step of the machine on the turn `t`; the turns already in its list stay behind it. -/
def takeTurn (t : Turn) (r : HostRun) : Except HostStop HostRun :=
  match step { r.machine with inputs := t :: r.machine.inputs } with
  | .next s => .ok { r with machine := s }
  | .fault reason => .error (.fault reason)
  | .refused reason => .error (.refused reason)

/-- One host access, after the engine's turn if the schedule puts one there. An engine turn with nothing in flight changes
nothing, so a list of schedules is every interleaving of accesses and completions (20_memory.md R68). -/
def takeAccess (t : Turn) (r : HostRun) : Except HostStop HostRun :=
  (if r.schedule.headD true then takeTurn .engine r else .ok r).bind fun u =>
    takeTurn t { u with schedule := u.schedule.tail }

/-- Several accesses in order. -/
def takeAccesses : List Turn → HostRun → Except HostStop HostRun
  | [], r => .ok r
  | t :: ts, r => (takeAccess t r).bind (takeAccesses ts)

/-- `BusRead(off)` with its value. -/
def busRead (off : Offset) (r : HostRun) : Except HostStop (Word × HostRun) :=
  (takeAccess (rd off) r).bind fun t =>
    match t.machine.response with
    | .data w => .ok (w, t)
    | .none => .error .noData
    | .written => .error .noData
    | .error => .error .noData

/-- Read STATUS until `stop` holds of it, with `fuel` reads before the last. When the schedule is used up nothing is in
flight after a read, so STATUS stays as it is: a wait that has not ended then never does. -/
def pollStatus (stop : Word → Bool) : Nat → HostRun → Except HostStop HostRun
  | 0, r => (busRead statusOffset r).bind fun (s, t) => if stop s then .ok t else .error .endlessWait
  | fuel + 1, r =>
    (busRead statusOffset r).bind fun (s, t) => if stop s then .ok t else pollStatus stop fuel t

/-- Read STATUS until `stop` holds of it. Every read takes one entry of the schedule, so one read more than it has
entries is enough (70_reset_and_hazards.md R320: the loop "ends after finitely many reads"). -/
def pollUntil (stop : Word → Bool) (r : HostRun) : Except HostStop HostRun := pollStatus stop r.schedule.length r

/-- `WAIT`: `repeat s <- BusRead(0x008) until s[0] = 0` (R109, the polling of R316). -/
def waitIdle (r : HostRun) : Except HostStop HostRun := pollUntil (fun s => !s.getLsbD 0) r

/-- "wait until DONE = 1 ... by reading STATUS" (R316). It is endless when no completion can come, for example after a CMD
write that FAULT discarded (60_exceptions.md R268). -/
def waitDone (r : HostRun) : Except HostStop HostRun := pollUntil (fun s => s.getLsbD 1) r

/-- The end of a wait for the level `irq`, which makes no access. -/
def irqSeen (r : HostRun) : Except HostStop HostRun := if r.machine.irq then .ok r else .error .endlessWait

/-- Waiting for the level `irq` (R316): it ends at once when the level is already high (R311), otherwise at the completion.
It is endless when that does not raise the level: `irq_en = 0`, or nothing in flight. -/
def waitIrq (r : HostRun) : Except HostStop HostRun :=
  if r.machine.irq then .ok r else (takeTurn .engine r).bind irqSeen

/-- `RUN X`: the command line, then `WAIT` (R109). -/
def runCommand (i : Instr) (r : HostRun) : Except HostStop HostRun := (takeAccess (issue i) r).bind waitIdle

/-- The waiting by DONE or by the interrupt: "first clear DONE, then write the command, then wait" (R316). -/
def runByDone (wait : HostRun → Except HostStop HostRun) (i : Instr) (r : HostRun) : Except HostStop HostRun :=
  (takeAccesses [wr statusOffset 0x2, issue i] r).bind wait

/-- `LOADDIN`, of at most 200 bytes (R109). -/
def loadDin (bs : List Byte) (r : HostRun) : Except HostStop HostRun :=
  if bs.length ≤ Config.maxLen then takeAccesses (loadDinTurns bs) r else .error .notALine

/-- The reads at some offsets, with their values in order. -/
def readWords : List Offset → HostRun → Except HostStop (List Word × HostRun)
  | [], r => .ok ([], r)
  | off :: offs, r =>
    (busRead off r).bind fun (w, t) => (readWords offs t).map fun (ws, u) => (w :: ws, u)

/-- `READOUT m` (R109). -/
def readOut (m : Nat) (r : HostRun) : Except HostStop HostRun :=
  (readWords (readOutOffsets m) r).map fun (ws, t) => { t with bytes := t.bytes ++ unpackBytes m ws }

/-- `CHECK`: "the program is in error unless bit 2 (FAULT) is 0" (R109). -/
def checkNoFault (r : HostRun) : Except HostStop HostRun :=
  (busRead statusOffset r).bind fun (s, t) => if s.getLsbD 2 then .error .inError else .ok t

/-- The chunks of a message in order: `LOADDIN chunk; RUN UPDATE len(chunk)` for each (R109). -/
def feedChunks : List (List Byte) → HostRun → Except HostStop HostRun
  | [], r => .ok r
  | chunk :: more, r =>
    ((loadDin chunk r).bind (runCommand (.update (BitVec.ofNat 8 chunk.length)))).bind (feedChunks more)

/-- `HASH V, bytes`: the session of 70_reset_and_hazards.md R306, then `CHECK` and `READOUT act.digest` (R109), with the
digest length the session has. -/
def runHash (v : BitVec 4) (bs : List Byte) (r : HostRun) : Except HostStop HostRun :=
  (runCommand (.init v) r).bind fun a =>
    (feedChunks (chunksOf bs.length bs) a).bind fun b =>
      (runCommand .finalize b).bind fun c =>
        (checkNoFault c).bind fun d => readOut d.machine.act.digest.toNat d

/-- A line of a host program: a command line (R108) or a pseudo-instruction of R109's table. -/
inductive HostLine where
  /-- `WR off, v`. -/
  | wr (off : Offset) (v : Word)
  /-- `RD off`. -/
  | rd (off : Offset)
  /-- A command line. -/
  | command (i : Instr)
  /-- `WAIT`. -/
  | wait
  /-- `RUN X`. -/
  | run (i : Instr)
  /-- `LOADDIN b0 b1 .. b(m-1)`. -/
  | loadDin (bs : List Byte)
  /-- `LOADDIN "text"`. -/
  | loadText (text : List Char)
  /-- `READOUT m`. -/
  | readOut (m : Nat)
  /-- `CHECK`. -/
  | check
  /-- `HASH V, b0 .. b(L-1)`. -/
  | hash (v : BitVec 4) (bs : List Byte)
  deriving DecidableEq, Repr

/-- What a line does: R109's table row by row. A command in flight may complete before any access of a later line, a `WAIT` or
not, as the schedule says (70_reset_and_hazards.md R320, assumption 13). -/
def runLine (line : HostLine) (r : HostRun) : Except HostStop HostRun :=
  match line with
  | .wr off v => takeAccess (Sys2Proof.Machine.wr off v) r
  | .rd off => (busRead off r).map fun (w, t) => { t with words := t.words ++ [w] }
  | .command i => takeAccess (issue i) r
  | .wait => waitIdle r
  | .run i => runCommand i r
  | .loadDin bs => Sys2Proof.Machine.loadDin bs r
  | .loadText text =>
    match asciiBytes text with
    | some bs => Sys2Proof.Machine.loadDin bs r
    | none => .error .notALine
  | .readOut m => Sys2Proof.Machine.readOut m r
  | .check => checkNoFault r
  | .hash v bs => runHash v bs r

/-- The lines of a program in order. -/
def runLines : List HostLine → HostRun → Except HostStop HostRun
  | [], r => .ok r
  | line :: more, r => (runLine line r).bind (runLines more)

/-- Lower case of an ASCII letter: "Mnemonics are case-insensitive" (R108). -/
def lowerChar (c : Char) : Char :=
  if 'A'.toNat ≤ c.toNat ∧ c.toNat ≤ 'Z'.toNat then Char.ofNat (c.toNat + 32) else c

/-- The value of a digit in base 10 or 16. That a hexadecimal digit may be upper or lower case is the model's choice (DESIGN
CHOICE, assumption 13): R108 calls mnemonics case-insensitive and says nothing of digits. -/
def digitValue (base : Nat) (c : Char) : Option Nat :=
  let c := lowerChar c
  let v :=
    if '0'.toNat ≤ c.toNat ∧ c.toNat ≤ '9'.toNat then c.toNat - '0'.toNat
    else if 'a'.toNat ≤ c.toNat ∧ c.toNat ≤ 'f'.toNat then c.toNat - 'a'.toNat + 10
    else base
  if v < base then some v else none

/-- The number a list of digits writes, most significant first; none if it is empty or holds another character. -/
def digitsValue (base : Nat) (cs : List Char) : Option Nat :=
  if cs.isEmpty then none
  else cs.foldl (fun acc c => acc.bind fun a => (digitValue base c).map fun v => a * base + v) (some 0)

/-- "a decimal or `0x` hexadecimal byte count" (R108), with a lower-case `x`; leading zeros are allowed (DESIGN CHOICE,
assumption 13). -/
def numberOf : List Char → Option Nat
  | '0' :: 'x' :: cs => digitsValue 16 cs
  | cs => digitsValue 10 cs

/-- The variant names of 30_encoding.md R103. -/
def variantNames : List (List Char) :=
  ["CUSTOM".toList, "SHA3_256".toList, "SHA3_384".toList, "SHA3_512".toList, "SHAKE128_256".toList,
   "SHAKE256_512".toList]

/-- "a variant name from rule R103 or its number" (R108). R108 gives the bases of a byte count and none for a variant number:
that it is decimal or `0x` hexadecimal as well, so that `INIT 0x4` is `INIT 4`, is the model's choice, and so is that the name
is matched exactly as R103 prints it (DESIGN CHOICE, assumption 13). -/
def variantOf (cs : List Char) : Option (BitVec 4) :=
  let named := variantNames.idxOf cs
  if named ≤ lastVariant.toNat then some (BitVec.ofNat 4 named)
  else (numberOf cs).bind fun v => if v ≤ lastVariant.toNat then some (BitVec.ofNat 4 v) else none

/-- A byte count that fits LEN. -/
def lenOf (cs : List Char) : Option (BitVec 8) :=
  (numberOf cs).bind fun n => if n < 2 ^ 8 then some (BitVec.ofNat 8 n) else none

/-- The words of a line, split at spaces (DESIGN CHOICE, assumption 13: R108 does not say what separates them). -/
def tokens : List Char → List (List Char)
  | [] => []
  | c :: cs =>
    if c = ' ' then [] :: tokens cs
    else
      match tokens cs with
      | [] => [[c]]
      | t :: ts => (c :: t) :: ts

/-- Assembly of one command: "its mnemonic followed by at most one operand" (R108). -/
def assemble (line : List Char) : Option Instr :=
  match (tokens line).filter fun t => !t.isEmpty with
  | [m] =>
    let m := m.map lowerChar
    if m = "finalize".toList then some .finalize
    else if m = "permute".toList then some .permute
    else none
  | [m, arg] =>
    let m := m.map lowerChar
    if m = "init".toList then (variantOf arg).map .init
    else if m = "update".toList then (lenOf arg).map .update
    else if m = "absorb".toList then (lenOf arg).map .absorb
    else if m = "squeeze".toList then (lenOf arg).map .squeeze
    else if m = "duplex".toList then (lenOf arg).map .duplex
    else if m = "pad_absorb".toList then (lenOf arg).map .padAbsorb
    else none
  | _ => none

end Sys2Proof.Machine
end

