-- ==== Sys2Proof/Safety.lean ====
section
/-! DEFINITION. What counts as a good state and a good session, in the terms the claims use: valid configurations
(60_exceptions.md R263), the invariant between steps (10_state.md R26, R27, R33, R40), and the pure functions a session is
held against (42_sponge.md R182, R188; 43_incremental.md R221). -/

namespace Sys2Proof.Machine

/-- A configuration that the construction-time assertion accepts (60_exceptions.md R263; ranges of 00_scope.md R9). -/
structure ValidConfig (c : SessionConfig) : Prop where
  rounds_le : c.rounds.toNat ≤ 24
  capacity_lanes : c.capacity.toNat % 64 = 0
  capacity_lt : c.capacity.toNat < 1600
  rate_eq : c.rate.toNat = (1600 - c.capacity.toNat) / 8
  digest_le : c.digest.toNat ≤ 200
  suffix_len_le : c.sl.toNat ≤ 7
  suffix_lt : c.sb.toNat < 2 ^ c.sl.toNat

/-- A running session: ACCUM with a valid configuration and less than one block buffered (10_state.md R26, R27). -/
structure Accumulating (s : State) : Prop where
  phase_eq : s.phase = .accum
  valid : ValidConfig s.act
  pos_lt : s.pos.toNat < s.act.rate.toNat

/-- The state in which the raw commands are legal: ACCUM with `pos = 0` (10_state.md R24) and a valid configuration. -/
structure RawReady (s : State) : Prop where
  phase_eq : s.phase = .accum
  valid : ValidConfig s.act
  pos_zero : s.pos = 0

/-- The state after a command completed with a fault: "The faulting command changes nothing but `phase` and `err` (and, by
rule R265, `busy`, `done` and `pending`)" (60_exceptions.md R266). -/
def faultedWith (code : Cause) (s : State) : State :=
  { s with phase := .fault, err := code, busy := false, done := true, pending := 0 }

/-- What holds between steps, in every state a run reaches. -/
structure State.Inv (s : State) : Prop where
  /-- `err` "is 0 while `phase ≠ FAULT`" (10_state.md R33), and a fault has a cause. -/
  err_none_iff : s.err = .none ↔ s.phase ≠ .fault
  /-- `pending` "equals `cmd_last` while `busy = 1`" (10_state.md R40) and is 0 otherwise (60_exceptions.md R265). -/
  pending_busy : s.busy = true → s.pending = s.cmdLast
  pending_idle : s.busy = false → s.pending = 0
  /-- "in IDLE and FINAL, `pos = 0`" and "In IDLE every field is 0" (10_state.md R26, R27). -/
  idle_zero : s.phase = .idle → s.act = SessionConfig.zero ∧ s.pos = 0 ∧ s.lanes = Lanes.zero ∧ s.permCount = 0
  /-- "in ACCUM, `0 ≤ pos < act.rate`" with a checked configuration (10_state.md R26, R27). -/
  accum_ok : s.phase = .accum → ValidConfig s.act ∧ s.pos.toNat < s.act.rate.toNat
  final_ok : s.phase = .final → ValidConfig s.act ∧ s.pos = 0
  /-- "In FAULT, `act` keeps its value from before the fault", and so does `pos` (10_state.md R26, R27). -/
  fault_ok : s.phase = .fault →
    (s.act = SessionConfig.zero ∧ s.pos = 0) ∨ (ValidConfig s.act ∧ s.pos.toNat < s.act.rate.toNat)
  /-- While `rst_n` is asserted the state has the reset values (70_reset_and_hazards.md R300). -/
  held_in_reset : s.rstN = false → s = resetEngine s

/-- The state after `k` invocations of the permutation with `rounds` rounds. -/
def permuteTimes (rounds : Nat) : Nat → Lanes → Lanes
  | 0, A => A
  | k + 1, A => permuteTimes rounds k (keccakP A rounds)

/-- `k` blocks of `R` bytes of `bs` absorbed in order (the first loop of R221). -/
def spongeAbsorb (R rounds : Nat) : Nat → List Byte → Lanes → Lanes
  | 0, _, A => A
  | k + 1, bs, A => spongeAbsorb R rounds k (bs.drop R) (keccakP (xorBlock A R (bs.take R)) rounds)

/-- `d` bytes of output: rate blocks of the state with a permutation between them (the second loop of R221); `fuel` bounds
the blocks. -/
def spongeOutput (R rounds : Nat) : Nat → Nat → Lanes → List Byte
  | 0, _, _ => []
  | fuel + 1, d, A =>
    if d = 0 then []
    else stateBytes A 0 (min R d) ++ spongeOutput R rounds fuel (d - min R d) (keccakP A rounds)

/-- The state after the padded message `M` is absorbed into the zero state (R221). -/
def hashState (c : SessionConfig) (M : List Byte) : Lanes :=
  let P := pad c.rate.toNat M c.sb c.sl.toNat
  spongeAbsorb c.rate.toNat c.rounds.toNat (P.length / c.rate.toNat) P Lanes.zero

/-- `H(act, M)` (43_incremental.md R221). -/
def hashDigest (c : SessionConfig) (M : List Byte) : List Byte :=
  spongeOutput c.rate.toNat c.rounds.toNat c.digest.toNat c.digest.toNat (hashState c M)

/-- One UPDATE of a session: the host loads the chunk into DIN, then UPDATE with its length completes
(70_reset_and_hazards.md R306). -/
def feedChunk (chunk : List Byte) (s : State) : Result :=
  exec (.update (BitVec.ofNat 8 chunk.length)) { s with din := windowSplice s.din 0 chunk }

/-- The UPDATEs of a session, in order (70_reset_and_hazards.md R306). -/
def feedAll : List (List Byte) → State → Result
  | [], s => .next s
  | chunk :: more, s =>
    match feedChunk chunk s with
    | .next t => feedAll more t
    | .fault r => .fault r
    | .refused r => .refused r

/-- The UPDATEs of a session, then FINALIZE. -/
def feedAndFinalize (chunks : List (List Byte)) (s : State) : Result :=
  match feedAll chunks s with
  | .next t => exec .finalize t
  | .fault r => .fault r
  | .refused r => .refused r

end Sys2Proof.Machine
end

