-- ==== Sys2Proof/Certificates/Slice0/Obligations.lean ====
section
/-! DEFINITION. The statements for the provers: what the rules of spec/ say a command, a bus access, a reset and a step do.
Each is about every state that meets its hypotheses; where a statement is the model's reading and not a rule's own
words, its docstring says so. -/

open Sys2Proof Sys2Proof.Machine

/-! ### Decoding (30_encoding.md) -/

/-- R110: the command words of the spec's own table, written out as the spec prints them. -/
def Obligations.DecodeReadsSpecWords : Prop :=
  decode 0x00000001 = .ok (.init 0) ∧ decode 0x00000101 = .ok (.init 1) ∧ decode 0x00000201 = .ok (.init 2) ∧
  decode 0x00000301 = .ok (.init 3) ∧ decode 0x00000401 = .ok (.init 4) ∧ decode 0x00000501 = .ok (.init 5) ∧
  decode 0x00000002 = .ok (.update 0) ∧ decode 0x00000102 = .ok (.update 1) ∧ decode 0x00000302 = .ok (.update 3) ∧
  decode 0x0000C802 = .ok (.update 200) ∧ decode 0x00000003 = .ok .finalize ∧ decode 0x00000010 = .ok .permute ∧
  decode 0x00008811 = .ok (.absorb 136) ∧ decode 0x0000A811 = .ok (.absorb 168) ∧
  decode 0x00002012 = .ok (.squeeze 32) ∧ decode 0x0000C812 = .ok (.squeeze 200) ∧
  decode 0x00008813 = .ok (.duplex 136) ∧ decode 0x00000014 = .ok (.padAbsorb 0) ∧
  decode 0x00000314 = .ok (.padAbsorb 3)

/-- The decoder and the encoder agree in both directions: a word decodes to a command exactly when the command is well
formed and encodes to that word. -/
def Obligations.DecodeInvertsEncode : Prop :=
  ∀ (w : Word) (i : Instr), decode w = .ok i ↔ (i.wellFormed = true ∧ encode i = w)

/-- R104, with R105 for VARIANT 6 to 15: a word spells a command exactly when it matches the row's match under the
row's mask, and then the operand is the field's value. -/
def Obligations.WordSpellsRowByMatchAndMask : Prop :=
  ∀ w : Word,
    (∀ v, decode w = .ok (.init v) ↔
      w &&& 0xFFFFF0FF = 0x00000001 ∧ v = w.extractLsb' 8 4 ∧ (w.extractLsb' 8 4).toNat ≤ 5) ∧
    (∀ n, decode w = .ok (.update n) ↔ w &&& 0xFFFF00FF = 0x00000002 ∧ n = w.extractLsb' 8 8) ∧
    (decode w = .ok .finalize ↔ w &&& 0xFFFFFFFF = 0x00000003) ∧
    (decode w = .ok .permute ↔ w &&& 0xFFFFFFFF = 0x00000010) ∧
    (∀ n, decode w = .ok (.absorb n) ↔ w &&& 0xFFFF00FF = 0x00000011 ∧ n = w.extractLsb' 8 8) ∧
    (∀ n, decode w = .ok (.squeeze n) ↔ w &&& 0xFFFF00FF = 0x00000012 ∧ n = w.extractLsb' 8 8) ∧
    (∀ n, decode w = .ok (.duplex n) ↔ w &&& 0xFFFF00FF = 0x00000013 ∧ n = w.extractLsb' 8 8) ∧
    (∀ n, decode w = .ok (.padAbsorb n) ↔ w &&& 0xFFFF00FF = 0x00000014 ∧ n = w.extractLsb' 8 8)

/-- R105: the words that spell no command, and the fault their completion raises. -/
def Obligations.ReservedWordsRaiseIllegalCmd : Prop :=
  ∀ s : State, s.phase ≠ .fault →
    (let w := s.pending
     let op := w.extractLsb' 0 8
     (op ∉ ([0x01, 0x02, 0x03, 0x10, 0x11, 0x12, 0x13, 0x14] : List Byte) ∨
      (op ∈ ([0x03, 0x10] : List Byte) ∧ w.extractLsb' 8 24 ≠ 0) ∨
      (op ∈ ([0x02, 0x11, 0x12, 0x13, 0x14] : List Byte) ∧ w.extractLsb' 16 16 ≠ 0) ∨
      (op = 0x01 ∧ w.extractLsb' 12 20 ≠ 0) ∨
      (op = 0x01 ∧ 6 ≤ (w.extractLsb' 8 4).toNat))) →
    complete s = .next (faultedWith .illegalCmd s)

/-! ### Steps and completions (60_exceptions.md, 20_memory.md) -/

/-- A step runs the decoded command: on the engine's turn with `busy = 1`, `rst_n` released and a pending word that
decodes to `i`, the step is `exec i`, after the turn is taken off the list. With no turn left the engine has the turn
(the model's choice, assumption 2). -/
def Obligations.StepRunsTheDecodedCommand : Prop :=
  ∀ (s : State) (i : Instr), s.rstN = true → s.busy = true → decode s.pending = .ok i →
    (∀ rest, s.inputs = .engine :: rest → step s = exec i { s with inputs := rest }) ∧
    (s.inputs = [] → step s = exec i s)

/-- The model's way to place a command (assumption 7): the next step completes it, in the state R264's acceptance leaves,
with `rst_n` released. And a command the host issues over the bus is completed by the engine's next turn. -/
def Obligations.FetchedWordIsCompletedNext : Prop :=
  (∀ (s : State) (w : Word) (i : Instr), decode w = .ok i →
    step (s.withFetchWord 32 w.toNat) =
      exec i { s with cmdLast := w, pending := w, busy := true, rstN := true }) ∧
  (∀ (s : State) (i : Instr) (rest : List Turn), s.rstN = true → s.busy = false → s.phase ≠ .fault →
    i.wellFormed = true → s.inputs = .access (.write .bits32 0x00C (encode i)) :: .engine :: rest →
    ∃ t, step s = .next t ∧
      step t = exec i
        { s with
          cmdLast := encode i, pending := encode i, busy := true, response := .written, inputs := rest })

/-- Every command completes, whatever the state: BUSY is cleared, DONE is set, `pending` is 0, and what no command
writes keeps its value (R265, R266, R304): `irq_en`, `cmd_last`, `cfg0`, `cfg1`, DIN and the model's interface fields. -/
def Obligations.EveryCommandCompletes : Prop :=
  ∀ (i : Instr) (s : State), ∃ t, exec i s = .next t ∧
    t.busy = false ∧ t.done = true ∧ t.pending = 0 ∧
    t.irqEn = s.irqEn ∧ t.cmdLast = s.cmdLast ∧ t.cfg0 = s.cfg0 ∧ t.cfg1 = s.cfg1 ∧ t.din = s.din ∧
    t.rstN = s.rstN ∧ t.inputs = s.inputs ∧ t.response = s.response ∧ t.freeCount = s.freeCount

/-- R265: in FAULT the command is abandoned, "it has no effect but the last line"; this holds for every command and for
a word that spells none. -/
def Obligations.CommandInFaultIsAbandoned : Prop :=
  ∀ s : State, s.phase = .fault →
    complete s = .next { s with busy := false, done := true, pending := 0 } ∧
    ∀ i, exec i s = .next { s with busy := false, done := true, pending := 0 }

/-- R266: a completion that enters FAULT changes nothing else but `busy`, `done` and `pending`. -/
def Obligations.FaultIsPrecise : Prop :=
  ∀ (i : Instr) (s t : State), s.phase ≠ .fault → exec i s = .next t → t.phase = .fault →
    ∃ code, code ≠ .none ∧ t = faultedWith code s

/-- R24: how a completion moves the phase when it does not fault. -/
def Obligations.PhaseFollowsTheTable : Prop :=
  ∀ (i : Instr) (s t : State), s.phase ≠ .fault → exec i s = .next t → t.phase ≠ .fault →
    match i with
    | .init _ => t.phase = .accum
    | .update _ => s.phase = .accum ∧ t.phase = .accum
    | .finalize => s.phase = .accum ∧ t.phase = .final
    | .permute => s.phase = .accum ∧ s.pos = 0 ∧ t.phase = .accum
    | .absorb _ => s.phase = .accum ∧ s.pos = 0 ∧ t.phase = .accum
    | .squeeze _ => s.phase = .accum ∧ s.pos = 0 ∧ t.phase = .accum
    | .duplex _ => s.phase = .accum ∧ s.pos = 0 ∧ t.phase = .accum
    | .padAbsorb _ => s.phase = .accum ∧ s.pos = 0 ∧ t.phase = .accum

/-- R261, for a word that decodes: the checks in their order, and the first that fails names the fault. (Words that do not
decode are ReservedWordsRaiseIllegalCmd, INIT's configuration is InitChecksConfigurationInOrder.) -/
def Obligations.FirstFailedCheckNamesTheFault : Prop :=
  ∀ (i : Instr) (s : State), (∀ v, i ≠ .init v) →
    ((s.phase = .idle ∨ s.phase = .final) → exec i s = .next (faultedWith .sequence s)) ∧
    (s.phase = .accum → i.isRaw = true → s.pos ≠ 0 → exec i s = .next (faultedWith .sequence s)) ∧
    (s.phase = .accum → (i.isRaw = true → s.pos = 0) → i.format = .L → 200 < i.operand.toNat →
      exec i s = .next (faultedWith .badLen s)) ∧
    (s.phase = .accum → s.pos = 0 → ∀ len : BitVec 8, (i = .absorb len ∨ i = .duplex len) → len.toNat ≤ 200 →
      len ≠ s.act.rate → exec i s = .next (faultedWith .blockLen s))

/-- R263: INIT CUSTOM runs the five configuration checks in their order, and the first failure raises. -/
def Obligations.InitChecksConfigurationInOrder : Prop :=
  ∀ s : State, s.phase ≠ .fault →
    let r := exec (.init 0) s
    let c0 := s.cfg0
    let c1 := s.cfg1
    let badRounds := c0.rounds.toNat > 24
    let badCapacity := c0.capacity.toNat % 64 ≠ 0 ∨ c0.capacity.toNat ≥ 1600
    let badRate := c1.rate.toNat ≠ (1600 - c0.capacity.toNat) / 8
    let badDigest := c1.digest.toNat > 200
    let badSuffix := c1.sl.toNat > 7 ∨ c1.sb.toNat ≥ 2 ^ c1.sl.toNat
    (badRounds → r = .next (faultedWith .badRounds s)) ∧
    (¬badRounds → badCapacity → r = .next (faultedWith .badCapacity s)) ∧
    (¬badRounds → ¬badCapacity → badRate → r = .next (faultedWith .rateMismatch s)) ∧
    (¬badRounds → ¬badCapacity → ¬badRate → badDigest → r = .next (faultedWith .badDigest s)) ∧
    (¬badRounds → ¬badCapacity → ¬badRate → ¬badDigest → badSuffix → r = .next (faultedWith .badSuffix s))

/-- R267: a step from FAULT stays in FAULT with the same cause, unless the platform asserts `rst_n` or the host writes
1 to CTRL.SRST, and then the engine is at its reset values, in IDLE. -/
def Obligations.OnlyResetLeavesFault : Prop :=
  ∀ s t : State, s.phase = .fault → step s = .next t →
    (t.phase = .fault ∧ t.err = s.err) ∨
    (t.phase = .idle ∧ t.err = .none ∧
      ∃ rest, s.inputs = .assertReset :: rest ∨
        ∃ v : Word, v.getLsbD 0 = true ∧ s.inputs = .access (.write .bits32 0x004 v) :: rest)

/-- R281: between commands, with no host access to come, the engine keeps its state. -/
def Obligations.IdleEngineKeepsItsState : Prop :=
  ∀ s : State, s.busy = false →
    (s.inputs = [] → step s = .next s) ∧
    (∀ rest, s.inputs = .engine :: rest → step s = .next { s with inputs := rest })

/-- R312: "only the host's own CMD write sets `busy`". -/
def Obligations.OnlyACmdWriteSetsBusy : Prop :=
  ∀ s t : State, s.busy = false → step s = .next t → t.busy = true →
    s.phase ≠ .fault ∧
    ∃ (w : Word) (rest : List Turn), s.inputs = .access (.write .bits32 0x00C w) :: rest ∧
      t = { s with cmdLast := w, pending := w, busy := true, inputs := rest, response := .written }

/-- R270: the interrupt level, what raises it (a completion, fault entry) when IRQ_EN is set, and what lowers it (a DONE clear
outside FAULT, clearing IRQ_EN, reset). -/
def Obligations.InterruptLevelFollowsDoneAndFault : Prop :=
  (∀ s : State, s.irq = (s.irqEn && (s.done || decide (s.phase = .fault))) ∧
    ∃ w : Word, busAccess (.read .bits32 0x008) s = (s, .data w) ∧ w.getLsbD 16 = s.irq) ∧
  (∀ (i : Instr) (s t : State), exec i s = .next t → t.irq = s.irqEn) ∧
  (∀ (c : Cause) (s : State), (faultEntry c s).irq = s.irqEn) ∧
  (∀ (s : State) (v : Word), s.rstN = true → v.getLsbD 1 = true →
    ∃ t, hostTurn (.write .bits32 0x008 v) s = .next t ∧ t.irq = (s.irqEn && decide (s.phase = .fault))) ∧
  (∀ (s : State) (v : Word), s.rstN = true → v.getLsbD 1 = false →
    ∃ t, hostTurn (.write .bits32 0x004 v) s = .next t ∧ t.irq = false) ∧
  (∀ s : State, (resetEngine s).irq = false)

/-! ### INIT, UPDATE, FINALIZE (43_incremental.md) -/

/-- R222 for the presets, with the rows of R103: INIT with VARIANT 1 to 5 always succeeds outside FAULT, and every
field it does not name keeps its value. -/
def Obligations.InitPresetStartsSession : Prop :=
  ∀ (s : State) (v : BitVec 4) (c : SessionConfig), s.phase ≠ .fault →
    (v, c) ∈
      [((1 : BitVec 4), ({ capacity := 512, rounds := 24, rate := 136, digest := 32, sb := 0b10, sl := 2 } : SessionConfig)),
       (2, { capacity := 768, rounds := 24, rate := 104, digest := 48, sb := 0b10, sl := 2 }),
       (3, { capacity := 1024, rounds := 24, rate := 72, digest := 64, sb := 0b10, sl := 2 }),
       (4, { capacity := 256, rounds := 24, rate := 168, digest := 32, sb := 0b1111, sl := 4 }),
       (5, { capacity := 512, rounds := 24, rate := 136, digest := 64, sb := 0b1111, sl := 4 })] →
    exec (.init v) s =
      .next { s with
        act := c, lanes := Lanes.zero, pos := 0, buf := Window.zero, permCount := 0, phase := .accum,
        busy := false, done := true, pending := 0 }

/-- R222 for VARIANT = CUSTOM: with a configuration in CFG0 and CFG1 that passes every check, the session starts with it. -/
def Obligations.InitCustomStartsSession : Prop :=
  ∀ s : State, s.phase ≠ .fault →
    let c : SessionConfig :=
      { capacity := s.cfg0.capacity, rounds := s.cfg0.rounds, rate := s.cfg1.rate, digest := s.cfg1.digest,
        sb := s.cfg1.sb, sl := s.cfg1.sl }
    ValidConfig c →
    exec (.init 0) s =
      .next { s with
        act := c, lanes := Lanes.zero, pos := 0, buf := Window.zero, permCount := 0, phase := .accum,
        busy := false, done := true, pending := 0 }

/-- R226: "An UPDATE with `pos + n < R` makes no permutation call": it appends to the buffer and moves `pos`, and
nothing else changes but DONE, BUSY and `pending`. -/
def Obligations.ShortUpdateOnlyBuffers : Prop :=
  ∀ (s : State) (len : BitVec 8), s.phase = .accum → len.toNat ≤ 200 →
    s.pos.toNat + len.toNat < s.act.rate.toNat →
    ∃ buf, exec (.update len) s =
        .next { s with buf := buf, pos := s.pos + len, busy := false, done := true, pending := 0 } ∧
      ∀ k < 200, byteAt buf k =
        if s.pos.toNat ≤ k ∧ k < s.pos.toNat + len.toNat then byteAt s.din (k - s.pos.toNat) else byteAt s.buf k

/-- R223: UPDATE absorbs every full block of the buffered bytes followed by the new ones, in order, and keeps the rest in
the buffer. "Afterwards `pos = (pos_before + n) mod R`. The number of permutations is `(pos_before + n) div R`". -/
def Obligations.UpdateAbsorbsEveryFullBlock : Prop :=
  ∀ (s : State) (len : BitVec 8), Accumulating s → len.toNat ≤ 200 →
    let R := s.act.rate.toNat
    let M := windowSlice s.buf 0 s.pos.toNat ++ windowSlice s.din 0 len.toNat
    let blocks := (s.pos.toNat + len.toNat) / R
    ∃ (buf : Window) (pos : BitVec 8),
      exec (.update len) s =
        .next { s with
          lanes := spongeAbsorb R s.act.rounds.toNat blocks M s.lanes,
          permCount := s.permCount + BitVec.ofNat 32 blocks,
          buf := buf, pos := pos, busy := false, done := true, pending := 0 } ∧
      pos.toNat = (s.pos.toNat + len.toNat) % R ∧
      windowSlice buf 0 pos.toNat = M.drop (R * blocks)

/-- R224: FINALIZE pads and absorbs the buffered bytes, writes exactly `act.digest` bytes of DOUT, sets `pos` to 0 and
ends the session. -/
def Obligations.FinalizeWritesTheDigest : Prop :=
  ∀ s : State, Accumulating s →
    let R := s.act.rate.toNat
    let rounds := s.act.rounds.toNat
    let digest := s.act.digest.toNat
    let P := pad R (windowSlice s.buf 0 s.pos.toNat) s.act.sb s.act.sl.toNat
    let A := spongeAbsorb R rounds (P.length / R) P s.lanes
    ∃ dout : Window,
      exec .finalize s =
        .next { s with
          lanes := permuteTimes rounds (digest / R) A,
          permCount := s.permCount + BitVec.ofNat 32 (P.length / R + digest / R),
          dout := dout, pos := 0, phase := .final, busy := false, done := true, pending := 0 } ∧
      (∀ k < digest, byteAt dout k = stateByte (permuteTimes rounds (k / R) A) (k % R)) ∧
      (∀ k, digest ≤ k → byteAt dout k = byteAt s.dout k)

/-- R225: however a message is cut into UPDATEs of at most 200 bytes (empty ones included), FINALIZE writes the same DOUT
and leaves the same state and permutation count; and after the UPDATEs exactly the whole blocks of the input so far are
absorbed, in order, and BUF holds the rest. -/
def Obligations.DigestDoesNotDependOnChunking : Prop :=
  ∀ (s : State) (xs ys : List (List Byte)), Accumulating s →
    (∀ x ∈ xs, x.length ≤ 200) → (∀ y ∈ ys, y.length ≤ 200) → xs.flatten = ys.flatten →
    let R := s.act.rate.toNat
    let M := windowSlice s.buf 0 s.pos.toNat ++ xs.flatten
    ∃ a t u, feedAll xs s = .next a ∧ feedAndFinalize xs s = .next t ∧ feedAndFinalize ys s = .next u ∧
      t.dout = u.dout ∧ t.lanes = u.lanes ∧ t.permCount = u.permCount ∧ t.phase = .final ∧ u.phase = .final ∧
      a.pos.toNat < R ∧ windowSlice a.buf 0 a.pos.toNat = M.drop (R * (M.length / R)) ∧
      a.lanes = spongeAbsorb R s.act.rounds.toNat (M.length / R) M s.lanes

/-- R221: a session that starts right after INIT computes `H(act, M)` into `DOUT[0:act.digest)`, and R226: its permutation
count after the UPDATEs and after FINALIZE. -/
def Obligations.SessionComputesTheHash : Prop :=
  ∀ (s : State) (chunks : List (List Byte)), s.phase = .accum → ValidConfig s.act → s.lanes = Lanes.zero →
    s.pos = 0 → s.permCount = 0 → (∀ x ∈ chunks, x.length ≤ 200) →
    let M := chunks.flatten
    let R := s.act.rate.toNat
    let tail := M.drop (R * (M.length / R))
    ∃ t u, feedAll chunks s = .next t ∧ exec .finalize t = .next u ∧
      t.permCount = BitVec.ofNat 32 (M.length / R) ∧ t.pos.toNat = M.length % R ∧
      windowSlice u.dout 0 s.act.digest.toNat = hashDigest s.act M ∧
      u.phase = .final ∧
      u.permCount = BitVec.ofNat 32
        (M.length / R + (pad R tail s.act.sb s.act.sl.toNat).length / R + s.act.digest.toNat / R)

/-! ### The permutation (40_permutation.md) -/

/-- R139: PERMUTE applies the permutation with the session's round count once and counts it; `pos`, BUF, DIN, DOUT and the
phase keep their values. -/
def Obligations.PermuteAppliesThePermutationOnce : Prop :=
  ∀ s : State, s.phase = .accum → s.pos = 0 →
    exec .permute s =
      .next { s with
        lanes := keccakP s.lanes s.act.rounds.toNat, permCount := s.permCount + 1,
        busy := false, done := true, pending := 0 } ∧
    (s.act.rounds = 0 → keccakP s.lanes s.act.rounds.toNat = s.lanes)

/-- R130, one round at a time from the front: the first round of `n + 1` uses `RC[24-(n+1)]` and is theta, rho and pi, chi,
iota; the rest are the `n`-round permutation; with `n = 0` the state comes back unchanged. -/
def Obligations.RoundsComeFromTheHighEnd : Prop :=
  ∀ (A : Lanes) (n : Nat), n < 24 →
    keccakP A (n + 1) = keccakP (iota (chi (rhoPi (theta A))) (roundConstant (23 - n))) n ∧ keccakP A 0 = A

/-- R132 with the tables of R133 and R134: source lane `(x, y)` moves to destination `(y, (2x+3y) mod 5)`, rotated by its own
offset. -/
def Obligations.RhoPiMovesEveryLane : Prop :=
  (∀ (A : Lanes) (x y : Nat), x < 5 → y < 5 →
    laneAt (rhoPi A) ((2 * x + 3 * y) % 5 * 5 + y) = (laneAt A (y * 5 + x)).rotateLeft (rhoOffset (y * 5 + x)) ∧
    piLane (y * 5 + x) = (2 * x + 3 * y) % 5 * 5 + y) ∧
  (List.range 25).map rhoOffset =
    [0, 1, 62, 28, 27, 36, 44, 6, 55, 20, 3, 10, 43, 25, 39, 41, 45, 15, 21, 8, 18, 2, 61, 56, 14] ∧
  (List.range 25).map piLane =
    [0, 10, 20, 5, 15, 16, 1, 11, 21, 6, 7, 17, 2, 12, 22, 23, 8, 18, 3, 13, 14, 24, 9, 19, 4]

/-- R131, R136 and R137 by coordinates: theta, chi and iota of a state, lane by lane. -/
def Obligations.ThetaChiIotaByCoordinates : Prop :=
  ∀ (A : Lanes) (rc : Lane) (x y : Nat), x < 5 → y < 5 →
    laneAt (theta A) (y * 5 + x) =
      laneAt A (y * 5 + x) ^^^
        ((laneAt A ((x + 4) % 5) ^^^ laneAt A ((x + 4) % 5 + 5) ^^^ laneAt A ((x + 4) % 5 + 10) ^^^
            laneAt A ((x + 4) % 5 + 15) ^^^ laneAt A ((x + 4) % 5 + 20)) ^^^
          (laneAt A ((x + 1) % 5) ^^^ laneAt A ((x + 1) % 5 + 5) ^^^ laneAt A ((x + 1) % 5 + 10) ^^^
            laneAt A ((x + 1) % 5 + 15) ^^^ laneAt A ((x + 1) % 5 + 20)).rotateLeft 1) ∧
    laneAt (chi A) (y * 5 + x) =
      laneAt A (y * 5 + x) ^^^ (~~~laneAt A (y * 5 + (x + 1) % 5) &&& laneAt A (y * 5 + (x + 2) % 5)) ∧
    laneAt (iota A rc) (y * 5 + x) =
      if y * 5 + x = 0 then laneAt A 0 ^^^ rc else laneAt A (y * 5 + x)

/-- R140: the permutation of the zero state, with one round and with 24 (vector P1 of 95_test_vectors.md). -/
def Obligations.PermutationOfTheZeroState : Prop :=
  laneAt (keccakP Lanes.zero 1) 0 = 0x8000000080008008 ∧
  (∀ i < 25, i ≠ 0 → laneAt (keccakP Lanes.zero 1) i = 0) ∧
  (keccakP Lanes.zero 24).toList =
    [0xF1258F7940E1DDE7, 0x84D5CCF933C0478A, 0xD598261EA65AA9EE, 0xBD1547306F80494D, 0x8B284E056253D057,
     0xFF97A42D7F8E6FD4, 0x90FEE5A0A44647C4, 0x8C5BDA0CD6192E76, 0xAD30A6F71B19059C, 0x30935AB7D08FFC64,
     0xEB5AA93F2317D635, 0xA9A6E6260D712103, 0x81A57C16DBCF555F, 0x43B831CD0347C826, 0x01F22F1A11A5569F,
     0x05E5635A21D9AE61, 0x64BEFEF28CC970F2, 0x613670957BC46611, 0xB87C5A554FD00ECB, 0x8C3EE88A1CCF32C8,
     0x940C7922AE3A2614, 0x1841F924A2C509E4, 0x16F53526E70465C2, 0x75F644E97F30A13B, 0xEAF1FF7B5CECA249]

/-! ### Padding (41_padding.md) -/

/-- R162 with R161: the padded length is the smallest multiple of the block size that leaves room for the suffix and two
more bits; a message on a block boundary gets an entire extra block, the empty one gets one block. -/
def Obligations.PadLengthIsTheSmallestMultiple : Prop :=
  ∀ (R : Nat) (m : List Byte) (sb : Byte) (sl : Nat), 8 ≤ R → sl ≤ 7 →
    let T := (pad R m sb sl).length
    T % R = 0 ∧ 8 * m.length + sl + 2 ≤ 8 * T ∧
    (∀ T', T' % R = 0 → 8 * m.length + sl + 2 ≤ 8 * T' → T ≤ T') ∧
    (m.length % R = 0 → T = m.length + R)

/-- R161 as a bit string (bits of a byte least significant first, R160): the message bits, then the `sl` suffix bits, then
a 1, then zeros, then a final 1 at bit `8T-1`, with `T = R * ceil((8L + sl + 2) / 8R)`. -/
def Obligations.PadIsMessageSuffixAndTenStarOne : Prop :=
  ∀ (R : Nat) (m : List Byte) (sb : Byte) (sl : Nat), 8 ≤ R → sl ≤ 7 → sb.toNat < 2 ^ sl →
    let P := pad R m sb sl
    let L := m.length
    let T := P.length
    T = R * ((8 * L + sl + 2 + 8 * R - 1) / (8 * R)) ∧ 8 * L + sl < 8 * T - 1 ∧
    ∀ k < 8 * T,
      (P.getD (k / 8) 0).getLsbD (k % 8) =
        if k < 8 * L then (m.getD (k / 8) 0).getLsbD (k % 8)
        else if k < 8 * L + sl then sb.getLsbD (k - 8 * L)
        else if k = 8 * L + sl then true
        else if k = 8 * T - 1 then true
        else false

/-- R163: the number of blocks, and the one case in which the padding spills into one more block. -/
def Obligations.PadBlockCount : Prop :=
  ∀ (R : Nat) (m : List Byte) (sb : Byte) (sl : Nat), 8 ≤ R → sl ≤ 7 →
    let L := m.length
    let P := pad R m sb sl
    ((L % R ≤ R - 2 ∨ (L % R = R - 1 ∧ sl ≤ 6)) → P.length = R * (L / R + 1)) ∧
    (L % R = R - 1 → sl = 7 → P.length = R * (L / R + 2) ∧
      ∀ k < R, P.getD (R * (L / R + 1) + k) 0 = if k = R - 1 then 0x80 else 0) ∧
    (L < R → sl = 2 ∨ sl = 4 → P.length = R)

/-- R166: with round count 0 and capacity 0 the STATE window shows the padded message after PAD_ABSORB from the zero
state: one block for `n ≤ 198`, and for `n = 199` with `sl ≤ 6`; for `n = 199` with `sl = 7` the XOR of the two blocks. -/
def Obligations.PadIsVisibleThroughTheStateWindow : Prop :=
  ∀ (s : State) (len : BitVec 8), RawReady s → s.act.rounds = 0 → s.act.capacity = 0 → s.lanes = Lanes.zero →
    let P := pad 200 (windowSlice s.din 0 len.toNat) s.act.sb s.act.sl.toNat
    ((len.toNat ≤ 198 ∨ (len.toNat = 199 ∧ s.act.sl.toNat ≤ 6)) →
      ∃ t, exec (.padAbsorb len) s = .next t ∧ stateBytes t.lanes 0 200 = P) ∧
    (len.toNat = 199 → s.act.sl = 7 →
      ∃ t, exec (.padAbsorb len) s = .next t ∧ P.length = 400 ∧
        ∀ k < 200, stateByte t.lanes k = P.getD k 0 ^^^ P.getD (200 + k) 0)

/-! ### The sponge commands (42_sponge.md) -/

/-- R181 with R180: ABSORB of LEN = R XORs `DIN[0:R)` into the first R bytes of the state, byte by byte, permutes and counts
one permutation. `B` is any state with those bytes. -/
def Obligations.AbsorbXorsTheBlockAndPermutes : Prop :=
  ∀ s : State, RawReady s →
    ∃ B : Lanes,
      exec (.absorb s.act.rate) s =
        .next { s with
          lanes := keccakP B s.act.rounds.toNat, permCount := s.permCount + 1,
          busy := false, done := true, pending := 0 } ∧
      ∀ k < 200, stateByte B k =
        if k < s.act.rate.toNat then stateByte s.lanes k ^^^ byteAt s.din k else stateByte s.lanes k

/-- R183 with R182: SQUEEZE of `n ≤ 200` bytes permutes after each full block, the last one included, and not after a
partial one. -/
def Obligations.SqueezePermutesAfterEveryFullBlock : Prop :=
  ∀ (s : State) (len : BitVec 8), RawReady s → len.toNat ≤ 200 →
    let R := s.act.rate.toNat
    let rounds := s.act.rounds.toNat
    ∃ dout : Window,
      exec (.squeeze len) s =
        .next { s with
          lanes := permuteTimes rounds (len.toNat / R) s.lanes,
          permCount := s.permCount + BitVec.ofNat 32 (len.toNat / R),
          dout := dout, busy := false, done := true, pending := 0 } ∧
      (∀ k < len.toNat, byteAt dout k = stateByte (permuteTimes rounds (k / R) s.lanes) (k % R)) ∧
      (∀ k, len.toNat ≤ k → byteAt dout k = byteAt s.dout k)

/-- R184: two SQUEEZEs, the first of whole blocks, give together the output of one, and leave the same state and
permutation count. -/
def Obligations.SqueezeContinuesOnBlockBoundaries : Prop :=
  ∀ (s : State) (a b ab : BitVec 8), RawReady s → a.toNat % s.act.rate.toNat = 0 →
    ab.toNat = a.toNat + b.toNat → ab.toNat ≤ 200 →
    ∃ t u w, exec (.squeeze a) s = .next t ∧ exec (.squeeze b) t = .next u ∧ exec (.squeeze ab) s = .next w ∧
      windowSlice t.dout 0 a.toNat ++ windowSlice u.dout 0 b.toNat = windowSlice w.dout 0 ab.toNat ∧
      u.lanes = w.lanes ∧ u.permCount = w.permCount

/-- R187 with R186: DUPLEX of LEN = R writes the state before the XOR to `DOUT[0:R)`, XORs `DIN[0:R)` and permutes
once. -/
def Obligations.DuplexOutputsTheStateBeforeTheInput : Prop :=
  ∀ s : State, RawReady s →
    ∃ (B : Lanes) (dout : Window),
      exec (.duplex s.act.rate) s =
        .next { s with
          lanes := keccakP B s.act.rounds.toNat, permCount := s.permCount + 1, dout := dout,
          busy := false, done := true, pending := 0 } ∧
      (∀ k < 200, stateByte B k =
        if k < s.act.rate.toNat then stateByte s.lanes k ^^^ byteAt s.din k else stateByte s.lanes k) ∧
      (∀ k < 200, byteAt dout k = if k < s.act.rate.toNat then stateByte s.lanes k else byteAt s.dout k)

/-- R27: "Every command other than INIT reads `act`, not `cfg0` or `cfg1`", and INIT reads them only with VARIANT =
CUSTOM: replacing CFG0 and CFG1 changes nothing else in what a command leaves. -/
def Obligations.ConfigRegistersMatterOnlyToCustomInit : Prop :=
  ∀ (i : Instr) (s : State) (c0 : Cfg0) (c1 : Cfg1), i ≠ .init 0 →
    ∃ t, exec i s = .next t ∧
      exec i { s with cfg0 := c0, cfg1 := c1 } = .next { t with cfg0 := c0, cfg1 := c1 }

/-- R189 with R188: PAD_ABSORB of `n ≤ 200` bytes absorbs the blocks of the padded message in order; the phase stays
ACCUM and `pos`, BUF and DOUT keep their values. -/
def Obligations.PadAbsorbAbsorbsThePaddedMessage : Prop :=
  ∀ (s : State) (len : BitVec 8), RawReady s → len.toNat ≤ 200 →
    let R := s.act.rate.toNat
    let P := pad R (windowSlice s.din 0 len.toNat) s.act.sb s.act.sl.toNat
    exec (.padAbsorb len) s =
      .next { s with
        lanes := spongeAbsorb R s.act.rounds.toNat (P.length / R) P s.lanes,
        permCount := s.permCount + BitVec.ofNat 32 (P.length / R),
        busy := false, done := true, pending := 0 } ∧
    1 ≤ P.length / R

/-- R191: at `pos = 0` in ACCUM, ABSORB R and UPDATE R leave the same state, `pos` and permutation count. -/
def Obligations.AbsorbAndUpdateOfOneBlockAgree : Prop :=
  ∀ s : State, RawReady s →
    ∃ t u, exec (.absorb s.act.rate) s = .next t ∧ exec (.update s.act.rate) s = .next u ∧
      t.lanes = u.lanes ∧ t.pos = 0 ∧ u.pos = 0 ∧ t.permCount = u.permCount

/-- R190: a raw session and an incremental one compute the same digest from the same DIN; `S` and the permutation count
agree too, and only the phase differs. -/
def Obligations.RawAndIncrementalDigestsAgree : Prop :=
  ∀ (s : State) (len : BitVec 8), RawReady s → len.toNat ≤ 200 →
    ∃ a b c d, exec (.padAbsorb len) s = .next a ∧ exec (.squeeze s.act.digest) a = .next b ∧
      exec (.update len) s = .next c ∧ exec .finalize c = .next d ∧
      b.dout = d.dout ∧ b.lanes = d.lanes ∧ b.permCount = d.permCount ∧
      b.phase = .accum ∧ d.phase = .final

/-! ### The register block (20_memory.md, 10_state.md) -/

/-- R64: an access of another size, or not at a multiple of 4, gets an error response, changes no state and returns no data;
the model stops there as a fault of the host program. -/
def Obligations.UnservedAccessHasNoEffect : Prop :=
  ∀ (s : State) (size : AccessSize) (off : Offset) (v : Word), (size ≠ .bits32 ∨ off.toNat % 4 ≠ 0) →
    busAccess (.read size off) s = (s, .error) ∧ busAccess (.write size off v) s = (s, .error) ∧
    (s.rstN = true →
      hostTurn (.read size off) s = .fault (.busError (.read size off)) ∧
      hostTurn (.write size off v) s = .fault (.busError (.write size off v)))

/-- R66: a read changes nothing of the engine (only the model's answer and, for a read R314 leaves open, its counter). -/
def Obligations.ReadsHaveNoSideEffect : Prop :=
  ∀ (s : State) (off : Offset), s.rstN = true → off.toNat % 4 = 0 →
    ∃ (data : Word) (free : Nat),
      hostTurn (.read .bits32 off) s = .next { s with response := .data data, freeCount := free }

/-- R65: reserved offsets read 0; writes to them and to read-only registers are ignored, with no fault, whether or not
the engine is busy. -/
def Obligations.ReservedAndReadOnlyWritesAreIgnored : Prop :=
  ∀ (s : State) (off : Offset) (v : Word), s.rstN = true → off.toNat % 4 = 0 →
    let o := off.toNat
    let reserved := (0x028 ≤ o ∧ o ≤ 0x0FC) ∨ (0x1C8 ≤ o ∧ o ≤ 0x1FC) ∨ (0x2C8 ≤ o ∧ o ≤ 0x2FC) ∨ 0x3C8 ≤ o
    let readOnly := o = 0x000 ∨ o = 0x010 ∨ o = 0x014 ∨ o = 0x020 ∨ o = 0x024 ∨
      (0x200 ≤ o ∧ o ≤ 0x2C4) ∨ (0x300 ≤ o ∧ o ≤ 0x3C4)
    (reserved → hostTurn (.read .bits32 off) s = .next { s with response := .data 0 }) ∧
    (reserved ∨ readOnly → hostTurn (.write .bits32 off v) s = .next { s with response := .written })

/-- R37 with R61: a DIN write while `busy = 0` stores word `j` little-endian, in any phase, changes no other byte, and
reads back. -/
def Obligations.DinWriteStoresFourBytes : Prop :=
  ∀ (s : State) (j : Nat) (v : Word), s.rstN = true → s.busy = false → j < 50 →
    let off : Offset := BitVec.ofNat 12 (0x100 + 4 * j)
    ∃ din : Window,
      hostTurn (.write .bits32 off v) s = .next { s with din := din, response := .written } ∧
      (∀ i < 4, byteAt din (4 * j + i) = v.extractLsb' (8 * i) 8) ∧
      (∀ k, k < 4 * j ∨ 4 * j + 4 ≤ k → byteAt din k = byteAt s.din k) ∧
      busAccess (.read .bits32 off) { s with din := din } = ({ s with din := din }, .data v)

/-- R38 and R61: a DOUT read while `busy = 0` returns four consecutive bytes, little-endian, and DIN reads the same way
whether or not the engine is busy. -/
def Obligations.WindowReadsPackFourBytes : Prop :=
  ∀ (s : State) (j i : Nat), j < 50 → i < 4 →
    (s.busy = false →
      ∃ w : Word, busAccess (.read .bits32 (BitVec.ofNat 12 (0x200 + 4 * j))) s = (s, .data w) ∧
        w.extractLsb' (8 * i) 8 = byteAt s.dout (4 * j + i)) ∧
    (∃ w : Word, busAccess (.read .bits32 (BitVec.ofNat 12 (0x100 + 4 * j))) s = (s, .data w) ∧
      w.extractLsb' (8 * i) 8 = byteAt s.din (4 * j + i))

/-- R39: while `busy = 0`, word `2i` of the STATE window is `S[i][31:0]` and word `2i+1` is `S[i][63:32]`. -/
def Obligations.StateWindowReadsTheLanes : Prop :=
  ∀ (s : State) (i : Nat), s.busy = false → i < 25 →
    busAccess (.read .bits32 (BitVec.ofNat 12 (0x300 + 8 * i))) s =
      (s, .data ((laneAt s.lanes i).extractLsb' 0 32)) ∧
    busAccess (.read .bits32 (BitVec.ofNat 12 (0x304 + 8 * i))) s =
      (s, .data ((laneAt s.lanes i).extractLsb' 32 32))

/-- R28: a CFG0 or CFG1 write while `busy = 0` stores the field bits and drops the reserved ones, and changes no other
state; INIT alone checks the values. -/
def Obligations.ConfigWriteDropsReservedBits : Prop :=
  ∀ (s : State) (v : Word), s.rstN = true → s.busy = false →
    (∃ c : Cfg0, hostTurn (.write .bits32 0x018 v) s = .next { s with cfg0 := c, response := .written } ∧
      c.capacity = v.extractLsb' 0 11 ∧ c.rounds = v.extractLsb' 16 5 ∧
      busAccess (.read .bits32 0x018) { s with cfg0 := c } = ({ s with cfg0 := c }, .data (v &&& 0x001F07FF))) ∧
    (∃ c : Cfg1, hostTurn (.write .bits32 0x01C v) s = .next { s with cfg1 := c, response := .written } ∧
      c.rate = v.extractLsb' 0 8 ∧ c.digest = v.extractLsb' 8 8 ∧ c.sb = v.extractLsb' 16 8 ∧
      c.sl = v.extractLsb' 24 4 ∧
      busAccess (.read .bits32 0x01C) { s with cfg1 := c } = ({ s with cfg1 := c }, .data (v &&& 0x0FFFFFFF)))

/-- R31 with the codes of R23 and R260: STATUS reads its fields, and every reserved bit reads 0, busy or not; a write changes only DONE, and only when
bit 1 of the written word is 1. -/
def Obligations.StatusReadsItsFields : Prop :=
  ∀ s : State,
    (∃ w : Word, busAccess (.read .bits32 0x008) s = (s, .data w) ∧
      w.getLsbD 0 = s.busy ∧ w.getLsbD 1 = s.done ∧ w.getLsbD 2 = decide (s.phase = .fault) ∧
      w.extractLsb' 4 2 = (match s.phase with | .idle => 0 | .accum => 1 | .final => 2 | .fault => 3) ∧
      w.extractLsb' 8 8 =
        (match s.err with
          | .none => 0x00 | .illegalCmd => 0x01 | .sequence => 0x02 | .badLen => 0x03 | .blockLen => 0x04
          | .badRounds => 0x05 | .badCapacity => 0x06 | .rateMismatch => 0x07 | .badDigest => 0x08
          | .badSuffix => 0x09 | .cmdOverrun => 0x0A | .busyWrite => 0x0B) ∧
      w.getLsbD 16 = (s.irqEn && (s.done || decide (s.phase = .fault))) ∧
      w.getLsbD 3 = false ∧ w.extractLsb' 6 2 = 0 ∧ w.extractLsb' 17 15 = 0) ∧
    (s.rstN = true → ∀ v : Word,
      hostTurn (.write .bits32 0x008 v) s =
        .next { s with done := if v.getLsbD 1 then false else s.done, response := .written })

/-- R36 and R35: ACFG0 and ACFG1 mirror `act` in the layout of CFG0 and CFG1, and POS reads `pos`, while `busy = 0`. -/
def Obligations.MirrorRegistersReadTheSession : Prop :=
  ∀ s : State, s.busy = false →
    ∃ w0 w1 wp : Word,
      busAccess (.read .bits32 0x020) s = (s, .data w0) ∧
      w0.extractLsb' 0 11 = s.act.capacity ∧ w0.extractLsb' 11 5 = 0 ∧ w0.extractLsb' 16 5 = s.act.rounds ∧
      w0.extractLsb' 21 11 = 0 ∧
      busAccess (.read .bits32 0x024) s = (s, .data w1) ∧
      w1.extractLsb' 0 8 = s.act.rate ∧ w1.extractLsb' 8 8 = s.act.digest ∧ w1.extractLsb' 16 8 = s.act.sb ∧
      w1.extractLsb' 24 4 = s.act.sl ∧ w1.extractLsb' 28 4 = 0 ∧
      busAccess (.read .bits32 0x010) s = (s, .data wp) ∧ wp.toNat = s.pos.toNat ∧
      busAccess (.read .bits32 0x014) s = (s, .data s.permCount)

/-- R264 with R268 and R269: a write to CMD is discarded in FAULT, is an overrun while busy, and otherwise is accepted
unchecked. -/
def Obligations.CmdWriteIsAcceptedDiscardedOrOverrun : Prop :=
  ∀ (s : State) (w : Word), s.rstN = true →
    (s.phase = .fault → hostTurn (.write .bits32 0x00C w) s = .next { s with response := .written }) ∧
    (s.phase ≠ .fault → s.busy = true →
      hostTurn (.write .bits32 0x00C w) s =
        .next { s with phase := .fault, err := .cmdOverrun, response := .written }) ∧
    (s.phase ≠ .fault → s.busy = false →
      hostTurn (.write .bits32 0x00C w) s =
        .next { s with cmdLast := w, pending := w, busy := true, response := .written })

/-- R269: the overrunning write is discarded and enters FAULT, `cmd_last` and `pending` keep the in-flight command, and that
command is abandoned at its completion: it has no effect but clearing BUSY and setting DONE. -/
def Obligations.OverrunLosesTheCommandInFlight : Prop :=
  ∀ (s : State) (w : Word) (rest : List Turn), s.rstN = true → s.phase ≠ .fault → s.busy = true →
    s.inputs = .access (.write .bits32 0x00C w) :: .engine :: rest →
    ∃ t, step s = .next t ∧
      t = { s with phase := .fault, err := .cmdOverrun, inputs := .engine :: rest, response := .written } ∧
      step t = .next { s with
        phase := .fault, err := .cmdOverrun, busy := false, done := true, pending := 0, inputs := rest,
        response := .written }

/-- R313: while `busy = 1` a write to DIN, CFG0 or CFG1 is discarded and enters FAULT with BUSY_WRITE; in FAULT it is
only discarded. -/
def Obligations.BusyInputWriteIsDiscardedAndFaults : Prop :=
  ∀ (s : State) (off : Offset) (v : Word), s.rstN = true → s.busy = true → off.toNat % 4 = 0 →
    (off.toNat = 0x018 ∨ off.toNat = 0x01C ∨ (0x100 ≤ off.toNat ∧ off.toNat ≤ 0x1C4)) →
    (s.phase ≠ .fault →
      hostTurn (.write .bits32 off v) s =
        .next { s with phase := .fault, err := .busyWrite, response := .written }) ∧
    (s.phase = .fault → hostTurn (.write .bits32 off v) s = .next { s with response := .written })

/-- R314: while `busy = 1` a read of POS, PERM_COUNT, ACFG0, ACFG1, DOUT or STATE returns the free value (assumption 3), and
the reads of ID, CTRL, STATUS, CMD, CFG0, CFG1 and DIN return their exact values, every reserved bit 0. -/
def Obligations.BusyReadsAreOpenOrExact : Prop :=
  ∀ (s : State) (off : Offset), s.busy = true → off.toNat % 4 = 0 →
    ((off.toNat = 0x010 ∨ off.toNat = 0x014 ∨ off.toNat = 0x020 ∨ off.toNat = 0x024 ∨
        (0x200 ≤ off.toNat ∧ off.toNat ≤ 0x2C4) ∨ (0x300 ≤ off.toNat ∧ off.toNat ≤ 0x3C4)) →
      busAccess (.read .bits32 off) s =
        ({ s with freeCount := s.freeCount + 1 }, .data (Config.busyRead s.freeCount))) ∧
    (off.toNat = 0x000 → busAccess (.read .bits32 off) s = (s, .data 0x4B454343)) ∧
    (off.toNat = 0x004 → ∃ w : Word, busAccess (.read .bits32 off) s = (s, .data w) ∧
      w.getLsbD 0 = false ∧ w.getLsbD 1 = s.irqEn ∧ w.extractLsb' 2 30 = 0) ∧
    (off.toNat = 0x008 → ∃ w : Word, busAccess (.read .bits32 off) s = (s, .data w) ∧
      w.getLsbD 0 = true ∧ w.getLsbD 1 = s.done ∧ w.getLsbD 2 = decide (s.phase = .fault) ∧
      w.getLsbD 3 = false ∧ w.extractLsb' 4 2 = s.phase.code ∧ w.extractLsb' 6 2 = 0 ∧
      w.extractLsb' 8 8 = s.err.code ∧ w.getLsbD 16 = s.irq ∧ w.extractLsb' 17 15 = 0) ∧
    (off.toNat = 0x00C → busAccess (.read .bits32 off) s = (s, .data s.cmdLast)) ∧
    (off.toNat = 0x018 → ∃ w : Word, busAccess (.read .bits32 off) s = (s, .data w) ∧
      w.extractLsb' 0 11 = s.cfg0.capacity ∧ w.extractLsb' 11 5 = 0 ∧ w.extractLsb' 16 5 = s.cfg0.rounds ∧
      w.extractLsb' 21 11 = 0) ∧
    (off.toNat = 0x01C → ∃ w : Word, busAccess (.read .bits32 off) s = (s, .data w) ∧
      w.extractLsb' 0 8 = s.cfg1.rate ∧ w.extractLsb' 8 8 = s.cfg1.digest ∧ w.extractLsb' 16 8 = s.cfg1.sb ∧
      w.extractLsb' 24 4 = s.cfg1.sl ∧ w.extractLsb' 28 4 = 0) ∧
    (0x100 ≤ off.toNat → off.toNat ≤ 0x1C4 → ∃ w : Word, busAccess (.read .bits32 off) s = (s, .data w) ∧
      ∀ i < 4, w.extractLsb' (8 * i) 8 = byteAt s.din (off.toNat - 0x100 + i))

/-- R30: CTRL reads `irq_en` in bit 1 and 0 elsewhere; a write with SRST = 0 changes only `irq_en`; a write with SRST = 1 resets
the engine and leaves `irq_en` 0. All hold busy or not, in any phase. -/
def Obligations.ControlWritesChangeOneFlag : Prop :=
  ∀ (s : State) (v : Word), s.rstN = true →
    (v.getLsbD 0 = false →
      hostTurn (.write .bits32 0x004 v) s = .next { s with irqEn := v.getLsbD 1, response := .written }) ∧
    (v.getLsbD 0 = true →
      ∃ t, hostTurn (.write .bits32 0x004 v) s = .next t ∧ t.irqEn = false ∧ t.phase = .idle ∧ t.busy = false) ∧
    ∃ w : Word, busAccess (.read .bits32 0x004) s = (s, .data w) ∧
      w.getLsbD 1 = s.irqEn ∧ w.getLsbD 0 = false ∧ w.extractLsb' 2 30 = 0

/-! ### Reset (70_reset_and_hazards.md, 10_state.md) -/

/-- R44: the reset value of every piece of state, and what every register reads after reset. -/
def Obligations.ResetGivesTheStatedValues : Prop :=
  let s := State.reset
  (∀ i < 25, laneAt s.lanes i = 0) ∧ s.phase = .idle ∧ s.err = .none ∧ s.busy = false ∧ s.pending = 0 ∧
  s.done = false ∧ s.irqEn = false ∧ s.cmdLast = 0 ∧
  s.act = { capacity := 0, rounds := 0, rate := 0, digest := 0, sb := 0, sl := 0 } ∧
  s.cfg0 = { capacity := 512, rounds := 24 } ∧ s.cfg1 = { rate := 136, digest := 32, sb := 0b10, sl := 2 } ∧
  s.pos = 0 ∧ s.permCount = 0 ∧
  (∀ k < 200, byteAt s.buf k = 0 ∧ byteAt s.din k = 0 ∧ byteAt s.dout k = 0) ∧
  regValue .id s = 0x4B454343 ∧ regValue .ctrl s = 0 ∧ regValue .status s = 0 ∧ regValue .cmd s = 0 ∧
  regValue .pos s = 0 ∧ regValue .permCount s = 0 ∧ regValue .cfg0 s = 0x00180200 ∧
  regValue .cfg1 s = 0x02022088 ∧ regValue .acfg0 s = 0 ∧ regValue .acfg1 s = 0 ∧
  (∀ j < 50, regValue (.din j) s = 0 ∧ regValue (.dout j) s = 0 ∧ regValue (.state j) s = 0)

/-- R302: a write of 1 to CTRL.SRST gives every piece of the engine's state its reset value, in any phase, busy or not; the
other bits of the word do not matter. The interface fields of the model keep theirs. -/
def Obligations.SoftResetEqualsReset : Prop :=
  ∀ (s : State) (v : Word), s.rstN = true → v.getLsbD 0 = true →
    hostTurn (.write .bits32 0x004 v) s =
      .next { State.reset with inputs := s.inputs, response := .written, freeCount := s.freeCount }

/-- R300 and R303: while `rst_n` is asserted the state has the reset values and the engine takes no step; after the release
no completion of the abandoned command follows. A host access while `rst_n` is asserted is refused by name (the model's
stop, assumption 6). -/
def Obligations.HardwareResetAbandonsTheCommand : Prop :=
  (∀ (s : State) (rest : List Turn),
    s.inputs = .assertReset :: .engine :: .releaseReset :: .engine :: rest →
    ∃ a b c, step s = .next a ∧
      a = { State.reset with
        rstN := false, inputs := .engine :: .releaseReset :: .engine :: rest, response := s.response,
        freeCount := s.freeCount } ∧
      step a = .next b ∧ b = { a with inputs := .releaseReset :: .engine :: rest } ∧
      step b = .next c ∧ c = { b with rstN := true, inputs := .engine :: rest } ∧
      step c = .next { c with inputs := rest }) ∧
  (∀ (s : State) (a : BusAccess) (rest : List Turn), s.rstN = false → s.inputs = .access a :: rest →
    step s = .refused (.accessDuringReset a))

/-- R26: `BUF[pos:200)` is "stale/unused": no command reads it. Two states that differ only there are told apart by no
field but BUF after any command, and `BUF[0:pos)` is again the same. -/
def Obligations.StaleBufferBytesAreNeverRead : Prop :=
  ∀ (i : Instr) (s : State) (buf : Window), s.Inv →
    (∀ k < s.pos.toNat, byteAt buf k = byteAt s.buf k) →
    ∃ (t : State) (buf' : Window), exec i s = .next t ∧
      exec i { s with buf := buf } = .next { t with buf := buf' } ∧
      ∀ k < t.pos.toNat, byteAt buf' k = byteAt t.buf k

/-! ### The invariant -/

/-- The invariant of R24, R26, R27, R33, R40 and R300 holds after reset. -/
def Obligations.ResetMeetsTheInvariant : Prop := State.reset.Inv

/-- Every step from every state that meets the invariant keeps it. -/
def Obligations.EveryStepKeepsTheInvariant : Prop :=
  ∀ s t : State, s.Inv → step s = .next t → t.Inv
end

