-- ==== Sys2Proof/Laws/Bytes.lean ====
section
/-! SUPPORT. What the byte-order operations do, index by index: lanes and bytes of a state, windows and bus words. -/

namespace Sys2Proof.Machine

theorem toList_getD_ofFn {α : Type} {n : Nat} (f : Fin n → α) (k : Nat) (d : α) (h : k < n) :
    (Vector.ofFn f).toList.getD k d = f ⟨k, h⟩ := by
  simp [List.getD, h]

/-- Two lists of one length are equal when they read the same at every index. -/
theorem list_ext_getD {α : Type} {xs ys : List α} (d : α) (hl : xs.length = ys.length)
    (h : ∀ k < xs.length, xs.getD k d = ys.getD k d) : xs = ys := by
  apply List.ext_getElem hl
  intro k h1 h2
  simpa [List.getD, h1, h2] using h k h1

theorem getD_append {α : Type} (xs ys : List α) (k : Nat) (d : α) :
    (xs ++ ys).getD k d = if k < xs.length then xs.getD k d else ys.getD (k - xs.length) d := by
  simp only [List.getD, List.getElem?_append]
  split <;> rfl

/-- A lane of a state built lane by lane. -/
theorem laneAt_ofFn (f : Fin 25 → Lane) (i : Nat) (h : i < 25) : laneAt (Vector.ofFn f) i = f ⟨i, h⟩ :=
  toList_getD_ofFn f i 0 h

/-- A byte of a window built byte by byte. -/
theorem byteAt_ofFn (f : Fin 200 → Byte) (k : Nat) (h : k < 200) : byteAt (Vector.ofFn f) k = f ⟨k, h⟩ :=
  toList_getD_ofFn f k 0 h

theorem laneAt_eq_getElem (A : Lanes) (i : Nat) (h : i < 25) : laneAt A i = A[i] := by
  simp [laneAt, List.getD, h]

theorem byteAt_eq_getElem (w : Window) (k : Nat) (h : k < 200) : byteAt w k = w[k] := by
  simp [byteAt, List.getD, h]

theorem laneAt_of_ge (A : Lanes) (i : Nat) (h : 25 ≤ i) : laneAt A i = 0 := by
  simp [laneAt, List.getD, h]

/-- A read past the end of a window is 0. -/
theorem byteAt_of_ge (w : Window) (k : Nat) (h : 200 ≤ k) : byteAt w k = 0 := by
  simp [byteAt, List.getD, h]

/-- Two states with the same lanes are equal. -/
theorem lanes_ext {A B : Lanes} (h : ∀ i < 25, laneAt A i = laneAt B i) : A = B := by
  apply Vector.ext
  intro i hi
  rw [← laneAt_eq_getElem A i hi, ← laneAt_eq_getElem B i hi, h i hi]

/-- Two windows with the same bytes are equal. -/
theorem window_ext {v w : Window} (h : ∀ k < 200, byteAt v k = byteAt w k) : v = w := by
  apply Vector.ext
  intro k hk
  rw [← byteAt_eq_getElem v k hk, ← byteAt_eq_getElem w k hk, h k hk]

@[simp] theorem laneAt_zero (i : Nat) : laneAt Lanes.zero i = 0 := by
  rcases Nat.lt_or_ge i 25 with h | h
  · simp [laneAt_eq_getElem _ _ h, Lanes.zero]
  · exact laneAt_of_ge _ _ h

@[simp] theorem byteAt_zero (k : Nat) : byteAt Window.zero k = 0 := by
  rcases Nat.lt_or_ge k 200 with h | h
  · simp [byteAt_eq_getElem _ _ h, Window.zero]
  · exact byteAt_of_ge _ _ h

/-! ### Slices and splices of a window -/

@[simp] theorem windowSlice_length (w : Window) (a n : Nat) : (windowSlice w a n).length = min n (200 - a) := by
  simp [windowSlice]

theorem windowSlice_length_of_le (w : Window) (n : Nat) (h : n ≤ 200) : (windowSlice w 0 n).length = n := by
  simp; omega

theorem windowSlice_getD (w : Window) (a n k : Nat) (h : k < n) : (windowSlice w a n).getD k 0 = byteAt w (a + k) := by
  simp [windowSlice, byteAt, List.getD, List.getElem?_drop, h]

/-- Two slices are equal when the bytes they name are. -/
theorem windowSlice_congr {v w : Window} {a n : Nat} (h : ∀ k < n, byteAt v (a + k) = byteAt w (a + k)) :
    windowSlice v a n = windowSlice w a n := by
  apply list_ext_getD 0 (by simp)
  intro k hk
  have hk : k < n := by simp at hk; omega
  rw [windowSlice_getD v a n k hk, windowSlice_getD w a n k hk, h k hk]

@[simp] theorem windowSlice_zero_len (w : Window) (a : Nat) : windowSlice w a 0 = [] := by simp [windowSlice]

/-- A byte of a window after a splice: inside the written range the new byte, outside it the old one. -/
theorem byteAt_windowSplice (w : Window) (a : Nat) (bs : List Byte) (k : Nat) (h : k < 200) :
    byteAt (windowSplice w a bs) k = if a ≤ k ∧ k < a + bs.length then bs.getD (k - a) 0 else byteAt w k := by
  rw [windowSplice, byteAt_ofFn _ k h]

@[simp] theorem windowSplice_nil (w : Window) (a : Nat) : windowSplice w a [] = w := by
  apply window_ext
  intro k hk
  rw [byteAt_windowSplice _ _ _ _ hk, if_neg (by simp)]

/-- A splice at the start, read back. -/
theorem windowSlice_windowSplice_zero (w : Window) (bs : List Byte) (h : bs.length ≤ 200) :
    windowSlice (windowSplice w 0 bs) 0 bs.length = bs := by
  apply list_ext_getD 0 (by simp [h])
  intro k hk
  have hk : k < bs.length := by simp at hk; omega
  rw [windowSlice_getD _ _ _ _ hk, Nat.zero_add, byteAt_windowSplice _ _ _ _ (by omega), if_pos (by omega), Nat.sub_zero]

/-- Appending at offset `a` extends the slice that ends there. -/
theorem windowSlice_append (w : Window) (a : Nat) (bs : List Byte) (h : a + bs.length ≤ 200) :
    windowSlice (windowSplice w a bs) 0 (a + bs.length) = windowSlice w 0 a ++ bs := by
  have hlen : (windowSlice w 0 a).length = a := windowSlice_length_of_le w a (by omega)
  apply list_ext_getD 0 (by simp; omega)
  intro k hk
  have hk : k < a + bs.length := by simp at hk; omega
  rw [windowSlice_getD _ _ _ _ hk, Nat.zero_add, byteAt_windowSplice _ _ _ _ (by omega), getD_append, hlen]
  by_cases hka : k < a
  · rw [if_neg (by omega), if_pos hka, windowSlice_getD w 0 a k hka, Nat.zero_add]
  · rw [if_pos (by omega), if_neg hka]

/-! ### Lanes and their bytes -/

theorem laneByte_eq_iff {u v : Lane} (h : ∀ j < 8, laneByte u j = laneByte v j) : u = v := by
  apply BitVec.eq_of_getLsbD_eq
  intro i hi
  have := congrArg (fun b : Byte => b.getLsbD (i % 8)) (h (i / 8) (by omega))
  simp only [laneByte, BitVec.getLsbD_extractLsb'] at this
  have e : 8 * (i / 8) + i % 8 = i := by omega
  simpa [e, Nat.mod_lt] using this

theorem laneByte_laneOfBytes (f : Nat → Byte) (j : Nat) (h : j < 8) : laneByte (laneOfBytes f) j = f j := by
  apply BitVec.eq_of_getLsbD_eq
  intro i hi
  simp only [laneByte, BitVec.getLsbD_extractLsb', laneOfBytes]
  have : j = 0 ∨ j = 1 ∨ j = 2 ∨ j = 3 ∨ j = 4 ∨ j = 5 ∨ j = 6 ∨ j = 7 := by omega
  rcases this with rfl | rfl | rfl | rfl | rfl | rfl | rfl | rfl <;>
    (simp only [BitVec.getLsbD_append, hi, decide_true, Bool.true_and]
     repeat' first | (rw [if_pos (by omega)]) | (rw [if_neg (by omega)]) | rfl | (congr 1; omega))

theorem laneByte_xor (u v : Lane) (j : Nat) : laneByte (u ^^^ v) j = laneByte u j ^^^ laneByte v j := by
  apply BitVec.eq_of_getLsbD_eq
  intro i hi
  simp [laneByte, hi]

/-- A state is its 200 bytes (20_memory.md R60). -/
theorem lanes_ext_bytes {A B : Lanes} (h : ∀ k < 200, stateByte A k = stateByte B k) : A = B := by
  apply lanes_ext
  intro i hi
  apply laneByte_eq_iff
  intro j hj
  have := h (8 * i + j) (by omega)
  simpa [stateByte, show (8 * i + j) / 8 = i by omega, show (8 * i + j) % 8 = j by omega] using this

@[simp] theorem stateByte_zero (k : Nat) : stateByte Lanes.zero k = 0 := by
  simp [stateByte, laneByte]

theorem stateByte_of_ge (A : Lanes) (k : Nat) (h : 200 ≤ k) : stateByte A k = 0 := by
  simp [stateByte, laneAt_of_ge A (k / 8) (by omega), laneByte]

/-- What `xorBlock` does, byte by byte (42_sponge.md R180). -/
theorem stateByte_xorBlock (A : Lanes) (R : Nat) (b : List Byte) (k : Nat) (h : k < 200) :
    stateByte (xorBlock A R b) k = if k < R then stateByte A k ^^^ b.getD k 0 else stateByte A k := by
  have hk : 8 * (k / 8) + k % 8 = k := by omega
  rw [stateByte, xorBlock, laneAt_ofFn _ _ (by omega), laneByte_xor, laneByte_laneOfBytes _ _ (by omega)]
  simp only [hk]
  split
  · rfl
  · simp [stateByte]

/-- XOR of zeros changes nothing. -/
theorem xorBlock_of_zeros (A : Lanes) (R : Nat) (b : List Byte) (h : ∀ k < R, b.getD k 0 = 0) :
    xorBlock A R b = A := by
  apply lanes_ext_bytes
  intro k hk
  rw [stateByte_xorBlock _ _ _ _ hk]
  split
  · rename_i hR
    rw [h k hR]; simp
  · rfl

/-- `xorBlock` reads only the first `R` bytes of the block. -/
theorem xorBlock_congr (A : Lanes) (R : Nat) {b c : List Byte} (h : ∀ k < R, b.getD k 0 = c.getD k 0) :
    xorBlock A R b = xorBlock A R c := by
  apply lanes_ext_bytes
  intro k hk
  rw [stateByte_xorBlock _ _ _ _ hk, stateByte_xorBlock _ _ _ _ hk]
  split
  · rename_i hR
    rw [h k hR]
  · rfl

@[simp] theorem stateBytes_length (A : Lanes) (a n : Nat) : (stateBytes A a n).length = n := by simp [stateBytes]

theorem stateBytes_getD (A : Lanes) (a n k : Nat) (h : k < n) : (stateBytes A a n).getD k 0 = stateByte A (a + k) := by
  simp [stateBytes, List.getD, h]

/-! ### Bus words -/

theorem wordByte_wordOfBytes (b0 b1 b2 b3 : Byte) (i : Nat) (h : i < 4) :
    wordByte (wordOfBytes b0 b1 b2 b3) i = [b0, b1, b2, b3].getD i 0 := by
  apply BitVec.eq_of_getLsbD_eq
  intro j hj
  simp only [wordByte, BitVec.getLsbD_extractLsb', wordOfBytes]
  have : i = 0 ∨ i = 1 ∨ i = 2 ∨ i = 3 := by omega
  rcases this with rfl | rfl | rfl | rfl <;>
    (simp only [BitVec.getLsbD_append, hj, decide_true, Bool.true_and, List.getD, List.getElem?_cons_zero,
       List.getElem?_cons_succ, Option.getD_some]
     repeat' first | (rw [if_pos (by omega)]) | (rw [if_neg (by omega)]) | rfl | (congr 1; omega))

theorem wordOfBytes_wordByte (v : Word) :
    wordOfBytes (wordByte v 0) (wordByte v 1) (wordByte v 2) (wordByte v 3) = v := by
  apply BitVec.eq_of_getLsbD_eq
  intro j hj
  simp only [wordOfBytes, wordByte, BitVec.getLsbD_append, BitVec.getLsbD_extractLsb']
  repeat' split
  all_goals
    try simp only [hj, decide_true, Bool.true_and]
    first
    | rfl
    | (rw [decide_eq_true (by omega), Bool.true_and]; done)
    | (rw [decide_eq_true (by omega), Bool.true_and]; congr 1; omega)

/-- A window word read after it was written. -/
theorem windowWord_setWindowWord (w : Window) (j : Nat) (v : Word) (h : j < 50) :
    windowWord (setWindowWord w j v) j = v := by
  have e : ∀ i < 4, byteAt (setWindowWord w j v) (4 * j + i) = wordByte v i := by
    intro i hi
    rw [setWindowWord, byteAt_windowSplice _ _ _ _ (by omega), if_pos (by simp; omega)]
    have : i = 0 ∨ i = 1 ∨ i = 2 ∨ i = 3 := by omega
    rcases this with rfl | rfl | rfl | rfl <;> simp
  rw [windowWord, ← Nat.add_zero (4 * j), e 0 (by omega), Nat.add_zero, e 1 (by omega), e 2 (by omega),
    e 3 (by omega), wordOfBytes_wordByte]

/-- Word `2i` of the STATE window is the low half of lane `i` (10_state.md R39). -/
theorem stateWord_even (A : Lanes) (i : Nat) : stateWord A (2 * i) = (laneAt A i).extractLsb' 0 32 := by
  apply BitVec.eq_of_getLsbD_eq
  intro j hj
  simp only [stateWord, stateByte, laneByte, wordOfBytes, show 4 * (2 * i) / 8 = i by omega,
    show (4 * (2 * i) + 1) / 8 = i by omega, show (4 * (2 * i) + 2) / 8 = i by omega,
    show (4 * (2 * i) + 3) / 8 = i by omega, show 4 * (2 * i) % 8 = 0 by omega,
    show (4 * (2 * i) + 1) % 8 = 1 by omega, show (4 * (2 * i) + 2) % 8 = 2 by omega,
    show (4 * (2 * i) + 3) % 8 = 3 by omega, BitVec.getLsbD_append, BitVec.getLsbD_extractLsb']
  repeat' split
  all_goals
    try simp only [hj, decide_true, Bool.true_and]
    first
    | rfl
    | (rw [decide_eq_true (by omega), Bool.true_and]; done)
    | (rw [decide_eq_true (by omega), Bool.true_and]; congr 1; omega)

/-- Word `2i+1` of the STATE window is the high half of lane `i` (10_state.md R39). -/
theorem stateWord_odd (A : Lanes) (i : Nat) : stateWord A (2 * i + 1) = (laneAt A i).extractLsb' 32 32 := by
  apply BitVec.eq_of_getLsbD_eq
  intro j hj
  simp only [stateWord, stateByte, laneByte, wordOfBytes, show 4 * (2 * i + 1) / 8 = i by omega,
    show (4 * (2 * i + 1) + 1) / 8 = i by omega, show (4 * (2 * i + 1) + 2) / 8 = i by omega,
    show (4 * (2 * i + 1) + 3) / 8 = i by omega, show 4 * (2 * i + 1) % 8 = 4 by omega,
    show (4 * (2 * i + 1) + 1) % 8 = 5 by omega, show (4 * (2 * i + 1) + 2) % 8 = 6 by omega,
    show (4 * (2 * i + 1) + 3) % 8 = 7 by omega, BitVec.getLsbD_append, BitVec.getLsbD_extractLsb']
  repeat' split
  all_goals
    try simp only [hj, decide_true, Bool.true_and]
    first
    | rfl
    | (rw [decide_eq_true (by omega), Bool.true_and]; done)
    | (rw [decide_eq_true (by omega), Bool.true_and]; congr 1; omega)

end Sys2Proof.Machine
end

