-- ==== Sys2Proof/Laws/State.lean ====
section
/-! SUPPORT. One lemma for each field after each named update of the state, so that no later proof unfolds a record
update. -/

namespace Sys2Proof.Machine

/-! ### `Permute()` -/

@[simp] theorem permuteOp_lanes (s : State) : (permuteOp s).lanes = keccakP s.lanes s.act.rounds.toNat := rfl
@[simp] theorem permuteOp_phase (s : State) : (permuteOp s).phase = s.phase := rfl
@[simp] theorem permuteOp_err (s : State) : (permuteOp s).err = s.err := rfl
@[simp] theorem permuteOp_busy (s : State) : (permuteOp s).busy = s.busy := rfl
@[simp] theorem permuteOp_pending (s : State) : (permuteOp s).pending = s.pending := rfl
@[simp] theorem permuteOp_done (s : State) : (permuteOp s).done = s.done := rfl
@[simp] theorem permuteOp_irqEn (s : State) : (permuteOp s).irqEn = s.irqEn := rfl
@[simp] theorem permuteOp_cmdLast (s : State) : (permuteOp s).cmdLast = s.cmdLast := rfl
@[simp] theorem permuteOp_act (s : State) : (permuteOp s).act = s.act := rfl
@[simp] theorem permuteOp_cfg0 (s : State) : (permuteOp s).cfg0 = s.cfg0 := rfl
@[simp] theorem permuteOp_cfg1 (s : State) : (permuteOp s).cfg1 = s.cfg1 := rfl
@[simp] theorem permuteOp_pos (s : State) : (permuteOp s).pos = s.pos := rfl
@[simp] theorem permuteOp_buf (s : State) : (permuteOp s).buf = s.buf := rfl
@[simp] theorem permuteOp_permCount (s : State) : (permuteOp s).permCount = s.permCount + 1 := rfl
@[simp] theorem permuteOp_din (s : State) : (permuteOp s).din = s.din := rfl
@[simp] theorem permuteOp_dout (s : State) : (permuteOp s).dout = s.dout := rfl
@[simp] theorem permuteOp_rstN (s : State) : (permuteOp s).rstN = s.rstN := rfl
@[simp] theorem permuteOp_inputs (s : State) : (permuteOp s).inputs = s.inputs := rfl
@[simp] theorem permuteOp_response (s : State) : (permuteOp s).response = s.response := rfl
@[simp] theorem permuteOp_freeCount (s : State) : (permuteOp s).freeCount = s.freeCount := rfl

/-! ### `AbsorbBlock(b)` -/

@[simp] theorem absorbBlock_lanes (b : List Byte) (s : State) : (absorbBlock b s).lanes = keccakP (xorBlock s.lanes s.rate b) s.act.rounds.toNat := rfl
@[simp] theorem absorbBlock_phase (b : List Byte) (s : State) : (absorbBlock b s).phase = s.phase := rfl
@[simp] theorem absorbBlock_err (b : List Byte) (s : State) : (absorbBlock b s).err = s.err := rfl
@[simp] theorem absorbBlock_busy (b : List Byte) (s : State) : (absorbBlock b s).busy = s.busy := rfl
@[simp] theorem absorbBlock_pending (b : List Byte) (s : State) : (absorbBlock b s).pending = s.pending := rfl
@[simp] theorem absorbBlock_done (b : List Byte) (s : State) : (absorbBlock b s).done = s.done := rfl
@[simp] theorem absorbBlock_irqEn (b : List Byte) (s : State) : (absorbBlock b s).irqEn = s.irqEn := rfl
@[simp] theorem absorbBlock_cmdLast (b : List Byte) (s : State) : (absorbBlock b s).cmdLast = s.cmdLast := rfl
@[simp] theorem absorbBlock_act (b : List Byte) (s : State) : (absorbBlock b s).act = s.act := rfl
@[simp] theorem absorbBlock_cfg0 (b : List Byte) (s : State) : (absorbBlock b s).cfg0 = s.cfg0 := rfl
@[simp] theorem absorbBlock_cfg1 (b : List Byte) (s : State) : (absorbBlock b s).cfg1 = s.cfg1 := rfl
@[simp] theorem absorbBlock_pos (b : List Byte) (s : State) : (absorbBlock b s).pos = s.pos := rfl
@[simp] theorem absorbBlock_buf (b : List Byte) (s : State) : (absorbBlock b s).buf = s.buf := rfl
@[simp] theorem absorbBlock_permCount (b : List Byte) (s : State) : (absorbBlock b s).permCount = s.permCount + 1 := rfl
@[simp] theorem absorbBlock_din (b : List Byte) (s : State) : (absorbBlock b s).din = s.din := rfl
@[simp] theorem absorbBlock_dout (b : List Byte) (s : State) : (absorbBlock b s).dout = s.dout := rfl
@[simp] theorem absorbBlock_rstN (b : List Byte) (s : State) : (absorbBlock b s).rstN = s.rstN := rfl
@[simp] theorem absorbBlock_inputs (b : List Byte) (s : State) : (absorbBlock b s).inputs = s.inputs := rfl
@[simp] theorem absorbBlock_response (b : List Byte) (s : State) : (absorbBlock b s).response = s.response := rfl
@[simp] theorem absorbBlock_freeCount (b : List Byte) (s : State) : (absorbBlock b s).freeCount = s.freeCount := rfl

/-! ### `DuplexBlock(b)` -/

@[simp] theorem duplexBlock_lanes (b : List Byte) (s : State) :
    (duplexBlock b s).lanes = keccakP (xorBlock s.lanes s.rate b) s.act.rounds.toNat := by
  simp only [duplexBlock, absorbBlock_lanes, State.rate]
@[simp] theorem duplexBlock_phase (b : List Byte) (s : State) : (duplexBlock b s).phase = s.phase := rfl
@[simp] theorem duplexBlock_err (b : List Byte) (s : State) : (duplexBlock b s).err = s.err := rfl
@[simp] theorem duplexBlock_busy (b : List Byte) (s : State) : (duplexBlock b s).busy = s.busy := rfl
@[simp] theorem duplexBlock_pending (b : List Byte) (s : State) : (duplexBlock b s).pending = s.pending := rfl
@[simp] theorem duplexBlock_done (b : List Byte) (s : State) : (duplexBlock b s).done = s.done := rfl
@[simp] theorem duplexBlock_irqEn (b : List Byte) (s : State) : (duplexBlock b s).irqEn = s.irqEn := rfl
@[simp] theorem duplexBlock_cmdLast (b : List Byte) (s : State) : (duplexBlock b s).cmdLast = s.cmdLast := rfl
@[simp] theorem duplexBlock_act (b : List Byte) (s : State) : (duplexBlock b s).act = s.act := rfl
@[simp] theorem duplexBlock_cfg0 (b : List Byte) (s : State) : (duplexBlock b s).cfg0 = s.cfg0 := rfl
@[simp] theorem duplexBlock_cfg1 (b : List Byte) (s : State) : (duplexBlock b s).cfg1 = s.cfg1 := rfl
@[simp] theorem duplexBlock_pos (b : List Byte) (s : State) : (duplexBlock b s).pos = s.pos := rfl
@[simp] theorem duplexBlock_buf (b : List Byte) (s : State) : (duplexBlock b s).buf = s.buf := rfl
@[simp] theorem duplexBlock_permCount (b : List Byte) (s : State) : (duplexBlock b s).permCount = s.permCount + 1 := rfl
@[simp] theorem duplexBlock_din (b : List Byte) (s : State) : (duplexBlock b s).din = s.din := rfl
@[simp] theorem duplexBlock_dout (b : List Byte) (s : State) : (duplexBlock b s).dout = windowSplice s.dout 0 (stateBytes s.lanes 0 s.rate) := rfl
@[simp] theorem duplexBlock_rstN (b : List Byte) (s : State) : (duplexBlock b s).rstN = s.rstN := rfl
@[simp] theorem duplexBlock_inputs (b : List Byte) (s : State) : (duplexBlock b s).inputs = s.inputs := rfl
@[simp] theorem duplexBlock_response (b : List Byte) (s : State) : (duplexBlock b s).response = s.response := rfl
@[simp] theorem duplexBlock_freeCount (b : List Byte) (s : State) : (duplexBlock b s).freeCount = s.freeCount := rfl

/-! ### The end of a completion -/

@[simp] theorem retire_lanes (s : State) : (retire s).lanes = s.lanes := rfl
@[simp] theorem retire_phase (s : State) : (retire s).phase = s.phase := rfl
@[simp] theorem retire_err (s : State) : (retire s).err = s.err := rfl
@[simp] theorem retire_busy (s : State) : (retire s).busy = false := rfl
@[simp] theorem retire_pending (s : State) : (retire s).pending = 0 := rfl
@[simp] theorem retire_done (s : State) : (retire s).done = true := rfl
@[simp] theorem retire_irqEn (s : State) : (retire s).irqEn = s.irqEn := rfl
@[simp] theorem retire_cmdLast (s : State) : (retire s).cmdLast = s.cmdLast := rfl
@[simp] theorem retire_act (s : State) : (retire s).act = s.act := rfl
@[simp] theorem retire_cfg0 (s : State) : (retire s).cfg0 = s.cfg0 := rfl
@[simp] theorem retire_cfg1 (s : State) : (retire s).cfg1 = s.cfg1 := rfl
@[simp] theorem retire_pos (s : State) : (retire s).pos = s.pos := rfl
@[simp] theorem retire_buf (s : State) : (retire s).buf = s.buf := rfl
@[simp] theorem retire_permCount (s : State) : (retire s).permCount = s.permCount := rfl
@[simp] theorem retire_din (s : State) : (retire s).din = s.din := rfl
@[simp] theorem retire_dout (s : State) : (retire s).dout = s.dout := rfl
@[simp] theorem retire_rstN (s : State) : (retire s).rstN = s.rstN := rfl
@[simp] theorem retire_inputs (s : State) : (retire s).inputs = s.inputs := rfl
@[simp] theorem retire_response (s : State) : (retire s).response = s.response := rfl
@[simp] theorem retire_freeCount (s : State) : (retire s).freeCount = s.freeCount := rfl

/-! ### Acceptance -/

@[simp] theorem accept_lanes (w : Word) (s : State) : (accept w s).lanes = s.lanes := rfl
@[simp] theorem accept_phase (w : Word) (s : State) : (accept w s).phase = s.phase := rfl
@[simp] theorem accept_err (w : Word) (s : State) : (accept w s).err = s.err := rfl
@[simp] theorem accept_busy (w : Word) (s : State) : (accept w s).busy = true := rfl
@[simp] theorem accept_pending (w : Word) (s : State) : (accept w s).pending = w := rfl
@[simp] theorem accept_done (w : Word) (s : State) : (accept w s).done = s.done := rfl
@[simp] theorem accept_irqEn (w : Word) (s : State) : (accept w s).irqEn = s.irqEn := rfl
@[simp] theorem accept_cmdLast (w : Word) (s : State) : (accept w s).cmdLast = w := rfl
@[simp] theorem accept_act (w : Word) (s : State) : (accept w s).act = s.act := rfl
@[simp] theorem accept_cfg0 (w : Word) (s : State) : (accept w s).cfg0 = s.cfg0 := rfl
@[simp] theorem accept_cfg1 (w : Word) (s : State) : (accept w s).cfg1 = s.cfg1 := rfl
@[simp] theorem accept_pos (w : Word) (s : State) : (accept w s).pos = s.pos := rfl
@[simp] theorem accept_buf (w : Word) (s : State) : (accept w s).buf = s.buf := rfl
@[simp] theorem accept_permCount (w : Word) (s : State) : (accept w s).permCount = s.permCount := rfl
@[simp] theorem accept_din (w : Word) (s : State) : (accept w s).din = s.din := rfl
@[simp] theorem accept_dout (w : Word) (s : State) : (accept w s).dout = s.dout := rfl
@[simp] theorem accept_rstN (w : Word) (s : State) : (accept w s).rstN = s.rstN := rfl
@[simp] theorem accept_inputs (w : Word) (s : State) : (accept w s).inputs = s.inputs := rfl
@[simp] theorem accept_response (w : Word) (s : State) : (accept w s).response = s.response := rfl
@[simp] theorem accept_freeCount (w : Word) (s : State) : (accept w s).freeCount = s.freeCount := rfl

/-! ### INIT -/

@[simp] theorem startSession_lanes (c : SessionConfig) (s : State) : (startSession c s).lanes = Lanes.zero := rfl
@[simp] theorem startSession_phase (c : SessionConfig) (s : State) : (startSession c s).phase = .accum := rfl
@[simp] theorem startSession_err (c : SessionConfig) (s : State) : (startSession c s).err = s.err := rfl
@[simp] theorem startSession_busy (c : SessionConfig) (s : State) : (startSession c s).busy = s.busy := rfl
@[simp] theorem startSession_pending (c : SessionConfig) (s : State) : (startSession c s).pending = s.pending := rfl
@[simp] theorem startSession_done (c : SessionConfig) (s : State) : (startSession c s).done = s.done := rfl
@[simp] theorem startSession_irqEn (c : SessionConfig) (s : State) : (startSession c s).irqEn = s.irqEn := rfl
@[simp] theorem startSession_cmdLast (c : SessionConfig) (s : State) : (startSession c s).cmdLast = s.cmdLast := rfl
@[simp] theorem startSession_act (c : SessionConfig) (s : State) : (startSession c s).act = c := rfl
@[simp] theorem startSession_cfg0 (c : SessionConfig) (s : State) : (startSession c s).cfg0 = s.cfg0 := rfl
@[simp] theorem startSession_cfg1 (c : SessionConfig) (s : State) : (startSession c s).cfg1 = s.cfg1 := rfl
@[simp] theorem startSession_pos (c : SessionConfig) (s : State) : (startSession c s).pos = 0 := rfl
@[simp] theorem startSession_buf (c : SessionConfig) (s : State) : (startSession c s).buf = Window.zero := rfl
@[simp] theorem startSession_permCount (c : SessionConfig) (s : State) : (startSession c s).permCount = 0 := rfl
@[simp] theorem startSession_din (c : SessionConfig) (s : State) : (startSession c s).din = s.din := rfl
@[simp] theorem startSession_dout (c : SessionConfig) (s : State) : (startSession c s).dout = s.dout := rfl
@[simp] theorem startSession_rstN (c : SessionConfig) (s : State) : (startSession c s).rstN = s.rstN := rfl
@[simp] theorem startSession_inputs (c : SessionConfig) (s : State) : (startSession c s).inputs = s.inputs := rfl
@[simp] theorem startSession_response (c : SessionConfig) (s : State) : (startSession c s).response = s.response := rfl
@[simp] theorem startSession_freeCount (c : SessionConfig) (s : State) : (startSession c s).freeCount = s.freeCount := rfl

/-! ### The reset values (10_state.md R44) -/

@[simp] theorem reset_lanes : State.reset.lanes = Lanes.zero := rfl
@[simp] theorem reset_phase : State.reset.phase = .idle := rfl
@[simp] theorem reset_err : State.reset.err = .none := rfl
@[simp] theorem reset_busy : State.reset.busy = false := rfl
@[simp] theorem reset_pending : State.reset.pending = 0 := rfl
@[simp] theorem reset_done : State.reset.done = false := rfl
@[simp] theorem reset_irqEn : State.reset.irqEn = false := rfl
@[simp] theorem reset_cmdLast : State.reset.cmdLast = 0 := rfl
@[simp] theorem reset_act : State.reset.act = SessionConfig.zero := rfl
@[simp] theorem reset_pos : State.reset.pos = 0 := rfl
@[simp] theorem reset_buf : State.reset.buf = Window.zero := rfl
@[simp] theorem reset_permCount : State.reset.permCount = 0 := rfl
@[simp] theorem reset_din : State.reset.din = Window.zero := rfl
@[simp] theorem reset_dout : State.reset.dout = Window.zero := rfl
@[simp] theorem reset_rstN : State.reset.rstN = true := rfl
@[simp] theorem reset_inputs : State.reset.inputs = [] := rfl
@[simp] theorem reset_response : State.reset.response = .none := rfl
@[simp] theorem reset_freeCount : State.reset.freeCount = 0 := rfl

/-! ### Reset -/

@[simp] theorem resetEngine_lanes (s : State) : (resetEngine s).lanes = State.reset.lanes := rfl
@[simp] theorem resetEngine_phase (s : State) : (resetEngine s).phase = State.reset.phase := rfl
@[simp] theorem resetEngine_err (s : State) : (resetEngine s).err = State.reset.err := rfl
@[simp] theorem resetEngine_busy (s : State) : (resetEngine s).busy = State.reset.busy := rfl
@[simp] theorem resetEngine_pending (s : State) : (resetEngine s).pending = State.reset.pending := rfl
@[simp] theorem resetEngine_done (s : State) : (resetEngine s).done = State.reset.done := rfl
@[simp] theorem resetEngine_irqEn (s : State) : (resetEngine s).irqEn = State.reset.irqEn := rfl
@[simp] theorem resetEngine_cmdLast (s : State) : (resetEngine s).cmdLast = State.reset.cmdLast := rfl
@[simp] theorem resetEngine_act (s : State) : (resetEngine s).act = State.reset.act := rfl
@[simp] theorem resetEngine_cfg0 (s : State) : (resetEngine s).cfg0 = State.reset.cfg0 := rfl
@[simp] theorem resetEngine_cfg1 (s : State) : (resetEngine s).cfg1 = State.reset.cfg1 := rfl
@[simp] theorem resetEngine_pos (s : State) : (resetEngine s).pos = State.reset.pos := rfl
@[simp] theorem resetEngine_buf (s : State) : (resetEngine s).buf = State.reset.buf := rfl
@[simp] theorem resetEngine_permCount (s : State) : (resetEngine s).permCount = State.reset.permCount := rfl
@[simp] theorem resetEngine_din (s : State) : (resetEngine s).din = State.reset.din := rfl
@[simp] theorem resetEngine_dout (s : State) : (resetEngine s).dout = State.reset.dout := rfl
@[simp] theorem resetEngine_rstN (s : State) : (resetEngine s).rstN = s.rstN := rfl
@[simp] theorem resetEngine_inputs (s : State) : (resetEngine s).inputs = s.inputs := rfl
@[simp] theorem resetEngine_response (s : State) : (resetEngine s).response = s.response := rfl
@[simp] theorem resetEngine_freeCount (s : State) : (resetEngine s).freeCount = s.freeCount := rfl

/-! ### The rate -/

@[simp] theorem permuteOp_rate (s : State) : (permuteOp s).rate = s.rate := rfl
@[simp] theorem absorbBlock_rate (b : List Byte) (s : State) : (absorbBlock b s).rate = s.rate := rfl
@[simp] theorem retire_rate (s : State) : (retire s).rate = s.rate := rfl

/-! ### Fault entry -/

/-- Outside FAULT, fault entry sets the phase and the cause and nothing else (60_exceptions.md R266). -/
theorem faultEntry_of_ne (code : Cause) (s : State) (h : s.phase ≠ .fault) :
    faultEntry code s = { s with phase := .fault, err := code } := by
  unfold faultEntry
  split <;> first | rfl | contradiction

/-- In FAULT, fault entry changes nothing: the first cause stays (60_exceptions.md R267). -/
theorem faultEntry_of_fault (code : Cause) (s : State) (h : s.phase = .fault) : faultEntry code s = s := by
  simp [faultEntry, h]

@[simp] theorem faultEntry_phase (code : Cause) (s : State) : (faultEntry code s).phase = .fault := by
  by_cases h : s.phase = .fault
  · rw [faultEntry_of_fault _ _ h, h]
  · rw [faultEntry_of_ne _ _ h]

end Sys2Proof.Machine
end

