-- ==== Sys2Proof/Laws/Bus.lean ====
section
/-! SUPPORT. Where each register stands, what one served access does, and everything a step can be. -/

namespace Sys2Proof.Machine

/-! ### The register map -/

/-- DIN word `j` stands at 0x100 + 4j (20_memory.md R63). -/
theorem regAt_din (j : Nat) (h : j < 50) : regAt (BitVec.ofNat 12 (0x100 + 4 * j)) = .din j := by
  have e : (BitVec.ofNat 12 (0x100 + 4 * j)).toNat = 0x100 + 4 * j := by rw [BitVec.toNat_ofNat]; omega
  unfold regAt regAtNat
  simp only [e]
  repeat rw [if_neg (by omega)]
  rw [if_pos (by omega)]
  congr 1; omega

/-- DOUT word `j` stands at 0x200 + 4j (20_memory.md R63). -/
theorem regAt_dout (j : Nat) (h : j < 50) : regAt (BitVec.ofNat 12 (0x200 + 4 * j)) = .dout j := by
  have e : (BitVec.ofNat 12 (0x200 + 4 * j)).toNat = 0x200 + 4 * j := by rw [BitVec.toNat_ofNat]; omega
  unfold regAt regAtNat
  simp only [e]
  repeat rw [if_neg (by omega)]
  rw [if_pos (by omega)]
  congr 1; omega

/-- STATE word `j` stands at 0x300 + 4j (20_memory.md R63). -/
theorem regAt_state (j : Nat) (h : j < 50) : regAt (BitVec.ofNat 12 (0x300 + 4 * j)) = .state j := by
  have e : (BitVec.ofNat 12 (0x300 + 4 * j)).toNat = 0x300 + 4 * j := by rw [BitVec.toNat_ofNat]; omega
  unfold regAt regAtNat
  simp only [e]
  repeat rw [if_neg (by omega)]
  rw [if_pos (by omega)]
  congr 1; omega

/-- Every word offset of DIN is some word of DIN. -/
theorem regAt_of_din_range (off : Offset) (h : 0x100 ≤ off.toNat ∧ off.toNat ≤ 0x1C4) :
    regAt off = .din ((off.toNat - 0x100) / 4) := by
  unfold regAt regAtNat
  repeat rw [if_neg (by omega)]
  rw [if_pos h]

theorem regAt_of_dout_range (off : Offset) (h : 0x200 ≤ off.toNat ∧ off.toNat ≤ 0x2C4) :
    regAt off = .dout ((off.toNat - 0x200) / 4) := by
  unfold regAt regAtNat
  repeat rw [if_neg (by omega)]
  rw [if_pos h]

theorem regAt_of_state_range (off : Offset) (h : 0x300 ≤ off.toNat ∧ off.toNat ≤ 0x3C4) :
    regAt off = .state ((off.toNat - 0x300) / 4) := by
  unfold regAt regAtNat
  repeat rw [if_neg (by omega)]
  rw [if_pos h]

/-- The reserved offsets (20_memory.md R63, R65). -/
theorem regAt_reserved (off : Offset) (ha : off.toNat % 4 = 0)
    (h : (0x028 ≤ off.toNat ∧ off.toNat ≤ 0x0FC) ∨ (0x1C8 ≤ off.toNat ∧ off.toNat ≤ 0x1FC) ∨
      (0x2C8 ≤ off.toNat ∧ off.toNat ≤ 0x2FC) ∨ 0x3C8 ≤ off.toNat) : regAt off = .reserved := by
  unfold regAt regAtNat
  repeat rw [if_neg (by omega)]

/-- A choice between two values that both differ from a third differs from it. -/
theorem ite_ne {α : Type} {c : Prop} [Decidable c] {a b x : α} (ha : a ≠ x) (hb : b ≠ x) :
    (if c then a else b) ≠ x := by
  by_cases h : c
  · rwa [if_pos h]
  · rwa [if_neg h]

/-- CTRL stands at 0x004 and nowhere else (20_memory.md R63). -/
theorem regAt_eq_ctrl {off : Offset} (h : regAt off = .ctrl) : off = 0x004 := by
  apply BitVec.eq_of_toNat_eq
  change off.toNat = 0x004
  by_contra hn
  refine absurd h ?_
  unfold regAt regAtNat
  refine ite_ne nofun ?_
  rw [if_neg hn]
  iterate 11 refine ite_ne (by simp) ?_
  simp

/-- CMD stands at 0x00C and nowhere else (20_memory.md R63). -/
theorem regAt_eq_cmd {off : Offset} (h : regAt off = .cmd) : off = 0x00C := by
  apply BitVec.eq_of_toNat_eq
  change off.toNat = 0x00C
  by_contra hn
  refine absurd h ?_
  unfold regAt regAtNat
  iterate 3 refine ite_ne nofun ?_
  rw [if_neg hn]
  iterate 9 refine ite_ne (by simp) ?_
  simp

/-! ### One access -/

theorem busAccess_read (off : Offset) (s : State) (h : off.toNat % 4 = 0) :
    busAccess (.read .bits32 off) s = ((readReg (regAt off) s).1, .data (readReg (regAt off) s).2) := by
  simp [busAccess, served, h]

theorem busAccess_write (off : Offset) (v : Word) (s : State) (h : off.toNat % 4 = 0) :
    busAccess (.write .bits32 off v) s = (writeReg (regAt off) v s, .written) := by
  simp [busAccess, served, h]

/-- A read that is not served (20_memory.md R64). -/
theorem busAccess_read_unserved (size : AccessSize) (off : Offset) (s : State) (h : ¬served size off) :
    busAccess (.read size off) s = (s, .error) := if_neg h

/-- A write that is not served (20_memory.md R64). -/
theorem busAccess_write_unserved (size : AccessSize) (off : Offset) (v : Word) (s : State) (h : ¬served size off) :
    busAccess (.write size off v) s = (s, .error) := if_neg h

theorem hostTurn_read (off : Offset) (s : State) (hr : s.rstN = true) (h : off.toNat % 4 = 0) :
    hostTurn (.read .bits32 off) s =
      .next { (readReg (regAt off) s).1 with response := .data (readReg (regAt off) s).2 } := by
  simp [hostTurn, hr, busAccess_read off s h]

theorem hostTurn_write (off : Offset) (v : Word) (s : State) (hr : s.rstN = true) (h : off.toNat % 4 = 0) :
    hostTurn (.write .bits32 off v) s = .next { writeReg (regAt off) v s with response := .written } := by
  simp [hostTurn, hr, busAccess_write off v s h]

/-- A read: the register's value, or a free value when R314 leaves it open. -/
theorem readReg_of_exact (r : Reg) (s : State) (h : s.busy = false ∨ r.openWhileBusy = false) :
    readReg r s = (s, regValue r s) := by
  unfold readReg
  rcases h with h | h <;> simp [h]

theorem readReg_of_open (r : Reg) (s : State) (h : s.busy = true) (hr : r.openWhileBusy = true) :
    readReg r s = ({ s with freeCount := s.freeCount + 1 }, Config.busyRead s.freeCount) := by
  simp [readReg, h, hr]

/-- Whatever the register, a read changes at most the model's counter (20_memory.md R66). -/
theorem readReg_state (r : Reg) (s : State) :
    (readReg r s).1 = s ∨ (readReg r s).1 = { s with freeCount := s.freeCount + 1 } := by
  unfold readReg
  split
  · exact .inr rfl
  · exact .inl rfl

/-- In FAULT a command word is discarded (60_exceptions.md R268). -/
theorem writeCmd_of_fault (w : Word) (s : State) (h : s.phase = .fault) : writeCmd w s = s := by
  unfold writeCmd
  split <;> simp_all

/-- While busy a command word is an overrun (60_exceptions.md R269). -/
theorem writeCmd_of_busy (w : Word) (s : State) (h : s.phase ≠ .fault) (hb : s.busy = true) :
    writeCmd w s = { s with phase := .fault, err := .cmdOverrun } := by
  rw [← faultEntry_of_ne _ _ h]
  unfold writeCmd
  split <;> simp_all

/-- Otherwise a command word is accepted unchecked (60_exceptions.md R264). -/
theorem writeCmd_of_ready (w : Word) (s : State) (h : s.phase ≠ .fault) (hb : s.busy = false) :
    writeCmd w s = accept w s := by
  unfold writeCmd
  split <;> simp_all

/-- A write to DIN, CFG0 or CFG1: discarded in FAULT while busy, a fault while busy, stored otherwise
(70_reset_and_hazards.md R313). -/
theorem writeInput_cases (store : State → State) (s : State)
    (hs : ∃ c0 c1 din, store s = { s with cfg0 := c0, cfg1 := c1, din := din }) :
    writeInput store s = s ∨
    (s.busy = true ∧ s.phase ≠ .fault ∧ writeInput store s = { s with phase := .fault, err := .busyWrite }) ∨
    (s.busy = false ∧ ∃ c0 c1 din, writeInput store s = { s with cfg0 := c0, cfg1 := c1, din := din }) := by
  unfold writeInput
  by_cases hb : s.busy = true
  · rw [if_pos hb]
    by_cases hp : s.phase = .fault
    · exact .inl (faultEntry_of_fault _ _ hp)
    · exact .inr (.inl ⟨hb, hp, faultEntry_of_ne _ _ hp⟩)
  · rw [if_neg hb]
    exact .inr (.inr ⟨by simpa using hb, hs⟩)

/-- Everything a served write can do to the state (20_memory.md R65, R66). -/
theorem writeReg_cases (r : Reg) (v : Word) (s : State) :
    writeReg r v s = s ∨
    (r = .ctrl ∧ v.getLsbD 0 = true ∧ writeReg r v s = resetEngine s) ∨
    (r = .ctrl ∧ v.getLsbD 0 = false ∧ writeReg r v s = { s with irqEn := v.getLsbD 1 }) ∨
    (r = .status ∧ v.getLsbD 1 = true ∧ writeReg r v s = { s with done := false }) ∨
    (r = .cmd ∧ s.phase ≠ .fault ∧ s.busy = true ∧ writeReg r v s = { s with phase := .fault, err := .cmdOverrun }) ∨
    (r = .cmd ∧ s.phase ≠ .fault ∧ s.busy = false ∧ writeReg r v s = accept v s) ∨
    (s.busy = true ∧ s.phase ≠ .fault ∧ writeReg r v s = { s with phase := .fault, err := .busyWrite }) ∨
    (s.busy = false ∧ ∃ c0 c1 din, writeReg r v s = { s with cfg0 := c0, cfg1 := c1, din := din }) := by
  cases r
  case ctrl =>
    by_cases hv : v.getLsbD 0 = true
    · exact .inr (.inl ⟨rfl, hv, if_pos hv⟩)
    · exact .inr (.inr (.inl ⟨rfl, by simpa using hv, if_neg hv⟩))
  case status =>
    by_cases hv : v.getLsbD 1 = true
    · exact .inr (.inr (.inr (.inl ⟨rfl, hv, if_pos hv⟩)))
    · exact .inl (if_neg hv)
  case cmd =>
    by_cases hp : s.phase = .fault
    · exact .inl (writeCmd_of_fault v s hp)
    · by_cases hb : s.busy = true
      · exact .inr (.inr (.inr (.inr (.inl ⟨rfl, hp, hb, writeCmd_of_busy v s hp hb⟩))))
      · have hb : s.busy = false := by simpa using hb
        exact .inr (.inr (.inr (.inr (.inr (.inl ⟨rfl, hp, hb, writeCmd_of_ready v s hp hb⟩)))))
  case cfg0 =>
    rcases writeInput_cases (fun t => { t with cfg0 := cfg0OfWord v }) s ⟨_, s.cfg1, s.din, rfl⟩ with h | h | h
    · exact .inl h
    · exact .inr (.inr (.inr (.inr (.inr (.inr (.inl h))))))
    · exact .inr (.inr (.inr (.inr (.inr (.inr (.inr h))))))
  case cfg1 =>
    rcases writeInput_cases (fun t => { t with cfg1 := cfg1OfWord v }) s ⟨s.cfg0, _, s.din, rfl⟩ with h | h | h
    · exact .inl h
    · exact .inr (.inr (.inr (.inr (.inr (.inr (.inl h))))))
    · exact .inr (.inr (.inr (.inr (.inr (.inr (.inr h))))))
  case din j =>
    rcases writeInput_cases (fun t => { t with din := setWindowWord t.din j v }) s ⟨s.cfg0, s.cfg1, _, rfl⟩ with h | h | h
    · exact .inl h
    · exact .inr (.inr (.inr (.inr (.inr (.inr (.inl h))))))
    · exact .inr (.inr (.inr (.inr (.inr (.inr (.inr h))))))
  all_goals exact .inl rfl

/-! ### One step -/

/-- Everything a step that goes on can be: the engine completes the command in flight, the engine keeps its state, a read,
a write, the reset pin asserted, the reset pin released (00_scope.md R14). In each case the turn is taken off the list. -/
theorem step_cases {s t : State} (h : step s = .next t) :
    ∃ r : State, r = { s with inputs := s.inputs.tail } ∧
      ((s.rstN = true ∧ s.busy = true ∧ (s.inputs = [] ∨ ∃ rest, s.inputs = .engine :: rest) ∧ complete r = .next t) ∨
      ((s.rstN = false ∨ s.busy = false) ∧ (s.inputs = [] ∨ ∃ rest, s.inputs = .engine :: rest) ∧ t = r) ∨
      (s.rstN = true ∧ ∃ off rest, s.inputs = .access (.read .bits32 off) :: rest ∧ off.toNat % 4 = 0 ∧
        t = { (readReg (regAt off) r).1 with response := .data (readReg (regAt off) r).2 }) ∨
      (s.rstN = true ∧ ∃ off v rest, s.inputs = .access (.write .bits32 off v) :: rest ∧ off.toNat % 4 = 0 ∧
        t = { writeReg (regAt off) v r with response := .written }) ∨
      (∃ rest, s.inputs = .assertReset :: rest ∧ t = assertResetPin r) ∨
      (∃ rest, s.inputs = .releaseReset :: rest ∧ t = releaseResetPin r)) := by
  refine ⟨_, rfl, ?_⟩
  have engine : ∀ r : State, r.rstN = s.rstN → r.busy = s.busy → engineTurn r = .next t →
      (s.rstN = true ∧ s.busy = true ∧ complete r = .next t) ∨ ((s.rstN = false ∨ s.busy = false) ∧ t = r) := by
    intro r h1 h2 h
    unfold engineTurn at h
    rw [h1, h2] at h
    cases hr : s.rstN <;> cases hb : s.busy <;> simp only [hr, hb] at h <;> first
      | exact .inl ⟨rfl, rfl, h⟩
      | (cases h; simp)
  unfold step at h
  cases hi : s.inputs with
  | nil =>
    simp only [hi] at h
    have hs : ({ s with inputs := [].tail } : State) = s := by rw [List.tail_nil, ← hi]
    rw [hs]
    rcases engine s rfl rfl h with ⟨h1, h2, h3⟩ | ⟨h1, h2⟩
    · exact .inl ⟨h1, h2, .inl rfl, h3⟩
    · exact .inr (.inl ⟨h1, .inl rfl, h2⟩)
  | cons turn rest =>
    simp only [hi] at h
    simp only [List.tail_cons]
    cases turn with
    | engine =>
      rcases engine { s with inputs := rest } rfl rfl h with ⟨h1, h2, h3⟩ | ⟨h1, h2⟩
      · exact .inl ⟨h1, h2, .inr ⟨rest, rfl⟩, h3⟩
      · exact .inr (.inl ⟨h1, .inr ⟨rest, rfl⟩, h2⟩)
    | access a =>
      simp only [hostTurn] at h
      cases hr : s.rstN with
      | false => simp [hr] at h
      | true =>
        simp only [hr, if_true] at h
        cases a with
        | read size off =>
          by_cases hs : size = .bits32 ∧ off.toNat % 4 = 0
          · obtain ⟨rfl, ha⟩ := hs
            rw [busAccess_read _ _ ha] at h
            cases h
            exact .inr (.inr (.inl ⟨rfl, off, rest, rfl, ha, rfl⟩))
          · simp [busAccess, served, hs] at h
        | write size off v =>
          by_cases hs : size = .bits32 ∧ off.toNat % 4 = 0
          · obtain ⟨rfl, ha⟩ := hs
            rw [busAccess_write _ _ _ ha] at h
            cases h
            exact .inr (.inr (.inr (.inl ⟨rfl, off, v, rest, rfl, ha, rfl⟩)))
          · simp [busAccess, served, hs] at h
    | assertReset => cases h; exact .inr (.inr (.inr (.inr (.inl ⟨rest, rfl, rfl⟩))))
    | releaseReset => cases h; exact .inr (.inr (.inr (.inr (.inr ⟨rest, rfl, rfl⟩))))

end Sys2Proof.Machine
end

