-- ==== Sys2Proof/Laws/Decode.lean ====
section
/-! SUPPORT. Command words as numbers: every field of a word by division and remainder, and the number an encoded command
is. -/

namespace Sys2Proof

theorem opcField_toNat (w : Word) : (opcField w).toNat = w.toNat % 2 ^ 8 := by
  simp [BitVec.extractLsb'_toNat]

theorem lenField_toNat (w : Word) : (lenField w).toNat = w.toNat / 2 ^ 8 % 2 ^ 8 := by
  simp [BitVec.extractLsb'_toNat, Nat.shiftRight_eq_div_pow]

theorem variantField_toNat (w : Word) : (variantField w).toNat = w.toNat / 2 ^ 8 % 2 ^ 4 := by
  simp [BitVec.extractLsb'_toNat, Nat.shiftRight_eq_div_pow]

/-- `w[31:k] = 0` says that `w` is below `2^k`. -/
theorem reserved_eq_zero_iff (w : Word) (k : Nat) (n : Nat) (h : k + n = 32) :
    w.extractLsb' k n = 0 ↔ w.toNat < 2 ^ k := by
  have hw := w.isLt
  have hp : (2 : Nat) ^ 32 = 2 ^ k * 2 ^ n := by rw [← Nat.pow_add, h]
  rw [← BitVec.toNat_inj, BitVec.extractLsb'_toNat, Nat.shiftRight_eq_div_pow, BitVec.ofNat_eq_ofNat, BitVec.toNat_ofNat,
    Nat.zero_mod, Nat.mod_eq_of_lt (Nat.div_lt_of_lt_mul (by omega)), Nat.div_eq_zero_iff]
  simp

/-- The number an encoded command is: `arg * 256 + op` (30_encoding.md R104). -/
theorem encode_toNat (i : Instr) : (encode i).toNat = i.operand.toNat * 2 ^ 8 + i.opcode.toNat := by
  have h1 : i.operand.toNat < 2 ^ 8 := by cases i <;> simp [Instr.operand] <;> omega
  have h2 : i.opcode.toNat < 2 ^ 8 := i.opcode.isLt
  have e := Nat.shiftLeft_add_eq_or_of_lt h2 i.operand.toNat
  rw [encode, BitVec.toNat_or, BitVec.toNat_shiftLeft, BitVec.toNat_setWidth, Nat.mod_eq_of_lt (a := i.opcode.toNat) (by omega),
    Nat.mod_eq_of_lt (a := i.operand.toNat <<< 8) (by rw [Nat.shiftLeft_eq]; omega), ← e, Nat.shiftLeft_eq]

/-! ### The masks of the opcode table -/

/-- A concatenation as a number. -/
theorem append_toNat {m n : Nat} (a : BitVec m) (b : BitVec n) : (a ++ b).toNat = a.toNat * 2 ^ n + b.toNat := by
  rw [BitVec.toNat_append, ← Nat.shiftLeft_add_eq_or_of_lt b.isLt, Nat.shiftLeft_eq]

/-- The mask of a format L row keeps the reserved field and the opcode (30_encoding.md R104). -/
theorem and_lenMask (w : Word) : w &&& 0xFFFF00FF = w.extractLsb' 16 16 ++ (0 : BitVec 8) ++ opcField w := by
  apply BitVec.eq_of_getLsbD_eq
  intro i hi
  simp only [BitVec.getLsbD_and, BitVec.getLsbD_append, BitVec.getLsbD_extractLsb']
  interval_cases i <;> simp

/-- The mask of the format V row keeps the reserved field and the opcode (30_encoding.md R104). -/
theorem and_variantMask (w : Word) : w &&& 0xFFFFF0FF = w.extractLsb' 12 20 ++ (0 : BitVec 4) ++ opcField w := by
  apply BitVec.eq_of_getLsbD_eq
  intro i hi
  simp only [BitVec.getLsbD_and, BitVec.getLsbD_append, BitVec.getLsbD_extractLsb']
  interval_cases i <;> simp

/-- Matching a format L row: the reserved field is 0 and the opcode is the row's (30_encoding.md R104). -/
theorem and_lenMask_eq_iff (w : Word) (op : Byte) :
    w &&& 0xFFFF00FF = op.setWidth 32 ↔ w.extractLsb' 16 16 = 0 ∧ opcField w = op := by
  have ho := op.isLt
  have hc := (opcField w).isLt
  rw [and_lenMask, ← BitVec.toNat_inj, append_toNat, append_toNat, ← BitVec.toNat_inj,
    ← BitVec.toNat_inj (x := opcField w), BitVec.toNat_setWidth]
  simp only [BitVec.ofNat_eq_ofNat, BitVec.toNat_ofNat, Nat.zero_mod]
  generalize (opcField w).toNat = c at *
  omega

/-- Matching the format V row: the reserved field is 0 and the opcode is the row's (30_encoding.md R104). -/
theorem and_variantMask_eq_iff (w : Word) (op : Byte) :
    w &&& 0xFFFFF0FF = op.setWidth 32 ↔ w.extractLsb' 12 20 = 0 ∧ opcField w = op := by
  have ho := op.isLt
  have hc := (opcField w).isLt
  rw [and_variantMask, ← BitVec.toNat_inj, append_toNat, append_toNat, ← BitVec.toNat_inj,
    ← BitVec.toNat_inj (x := opcField w), BitVec.toNat_setWidth]
  simp only [BitVec.ofNat_eq_ofNat, BitVec.toNat_ofNat, Nat.zero_mod]
  generalize (opcField w).toNat = c at *
  omega

end Sys2Proof
end

