-- ==== Sys2Proof/Laws/Ops.lean ====
section
/-! SUPPORT. One lemma for each shared operation that says everything it can do: the completion, the block loop, the
squeeze loop, the checks of a configuration. Later proofs cite these and unfold none of them. -/

namespace Sys2Proof.Machine

/-! ### The common frame of a completion -/

theorem completion_of_fault (f : Option Cause) (e : State → State) (s : State) (h : s.phase = .fault) :
    completion f e s = retire s := by
  unfold completion
  split <;> simp_all

theorem completion_of_failed (c : Cause) (e : State → State) (s : State) (h : s.phase ≠ .fault) :
    completion (some c) e s = retire (faultEntry c s) := by
  unfold completion
  split <;> simp_all

theorem completion_of_passed (e : State → State) (s : State) (h : s.phase ≠ .fault) :
    completion none e s = retire (e s) := by
  unfold completion
  split <;> simp_all

/-- Everything a completion can do (60_exceptions.md R265): abandoned in FAULT, the first failed check, or the effect. -/
theorem completion_cases (f : Option Cause) (e : State → State) (s : State) :
    (s.phase = .fault ∧ completion f e s = retire s) ∨
    (s.phase ≠ .fault ∧ ∃ c, f = some c ∧ completion f e s = faultedWith c s) ∨
    (s.phase ≠ .fault ∧ f = none ∧ completion f e s = retire (e s)) := by
  by_cases h : s.phase = .fault
  · exact .inl ⟨h, completion_of_fault f e s h⟩
  · cases f with
    | none => exact .inr (.inr ⟨h, rfl, completion_of_passed e s h⟩)
    | some c =>
      refine .inr (.inl ⟨h, c, rfl, ?_⟩)
      rw [completion_of_failed c e s h, faultEntry_of_ne _ _ h]
      rfl

/-- Counting one permutation and then `k` more. -/
theorem count_succ (c : Word) (k : Nat) : c + 1 + BitVec.ofNat 32 k = c + BitVec.ofNat 32 (k + 1) := by
  rw [BitVec.add_assoc, Nat.add_comm k 1, BitVec.ofNat_add]
  rfl

/-- Counting `j` permutations and then `k` more. -/
theorem count_add (c : Word) (j k : Nat) :
    c + BitVec.ofNat 32 j + BitVec.ofNat 32 k = c + BitVec.ofNat 32 (j + k) := by
  rw [BitVec.add_assoc, BitVec.ofNat_add]

/-! ### The block loop -/

/-- The state after the block loop: only the lanes and the permutation count move. -/
theorem absorbBlocks_state (R : Nat) (fuel : Nat) (bs : List Byte) (s : State) (hR : s.rate = R) (h0 : 0 < R)
    (hf : bs.length / R ≤ fuel) :
    absorbBlocks fuel bs s =
      ({ s with
          lanes := spongeAbsorb R s.act.rounds.toNat (bs.length / R) bs s.lanes,
          permCount := s.permCount + BitVec.ofNat 32 (bs.length / R) },
        bs.drop (R * (bs.length / R))) := by
  induction fuel generalizing bs s with
  | zero =>
    have h : bs.length / R = 0 := Nat.le_zero.mp hf
    simp [absorbBlocks, h, spongeAbsorb]
  | succ fuel ih =>
    unfold absorbBlocks
    split
    · rename_i hle
      rw [hR] at hle
      have hd : bs.length / R = (bs.length - R) / R + 1 := by
        rw [← Nat.add_div_right _ h0, Nat.sub_add_cancel hle]
      have hl : (bs.drop R).length = bs.length - R := by simp
      rw [hR, ih (bs.drop R) (absorbBlock (bs.take R) s) (by simpa using hR) (by rw [hl]; omega), hl, hd]
      simp only [absorbBlock_act, absorbBlock_lanes, absorbBlock_permCount, hR, List.drop_drop, spongeAbsorb,
        Nat.mul_add, Nat.mul_one, Nat.add_comm R, Prod.mk.injEq, and_true]
      rw [count_succ]
      rfl
    · rename_i hlt
      have h : bs.length / R = 0 := Nat.div_eq_of_lt (by omega)
      simp [h, spongeAbsorb]

/-! ### The permutation, repeated -/

theorem permuteTimes_succ (rounds k : Nat) (A : Lanes) :
    permuteTimes rounds (k + 1) A = keccakP (permuteTimes rounds k A) rounds := by
  induction k generalizing A with
  | zero => rfl
  | succ k ih => rw [permuteTimes, ih]; rfl

theorem permuteTimes_add (rounds j k : Nat) (A : Lanes) :
    permuteTimes rounds (j + k) A = permuteTimes rounds k (permuteTimes rounds j A) := by
  induction j generalizing A with
  | zero => simp [permuteTimes]
  | succ j ih => rw [Nat.add_right_comm, permuteTimes, ih]; rfl

/-! ### The squeeze loop -/

/-- The final partial block: fewer than `R` bytes, no permutation (42_sponge.md R182). -/
theorem squeezeTail_spec (R n off : Nat) (s : State) (h : n - off < R) (hoff : off ≤ n) (hn : n ≤ 200) :
    ∃ dout : Window,
      ({ s with dout := windowSplice s.dout off (stateBytes s.lanes 0 (n - off)) } : State) =
        { s with
          lanes := permuteTimes s.act.rounds.toNat ((n - off) / R) s.lanes,
          permCount := s.permCount + BitVec.ofNat 32 ((n - off) / R),
          dout := dout } ∧
      (∀ k < n - off, byteAt dout (off + k) =
        stateByte (permuteTimes s.act.rounds.toNat (k / R) s.lanes) (k % R)) ∧
      (∀ k, k < off ∨ n ≤ k → byteAt dout k = byteAt s.dout k) := by
  refine ⟨windowSplice s.dout off (stateBytes s.lanes 0 (n - off)), by simp [Nat.div_eq_of_lt h, permuteTimes], ?_, ?_⟩
  · intro k hk
    rw [byteAt_windowSplice _ _ _ _ (by omega), if_pos (by simp; omega), Nat.add_sub_cancel_left,
      stateBytes_getD _ _ _ _ hk, Nat.zero_add, Nat.div_eq_of_lt (by omega), Nat.mod_eq_of_lt (by omega), permuteTimes]
  · intro k hk
    rcases Nat.lt_or_ge k 200 with h | h
    · rw [byteAt_windowSplice _ _ _ _ h, if_neg (by simp; omega)]
    · rw [byteAt_of_ge _ _ h, byteAt_of_ge _ _ h]

/-- Everything the squeeze loop does from offset `off` on (42_sponge.md R182): each full block is followed by a
permutation, the bytes it names are written, every other byte of DOUT is kept. -/
theorem squeezeFrom_spec (R n fuel off : Nat) (s : State) (hR : s.rate = R) (h0 : 0 < R) (hoff : off ≤ n)
    (hn : n ≤ 200) (hf : (n - off) / R ≤ fuel) :
    ∃ dout : Window,
      squeezeFrom n fuel off s =
        { s with
          lanes := permuteTimes s.act.rounds.toNat ((n - off) / R) s.lanes,
          permCount := s.permCount + BitVec.ofNat 32 ((n - off) / R),
          dout := dout } ∧
      (∀ k < n - off, byteAt dout (off + k) =
        stateByte (permuteTimes s.act.rounds.toNat (k / R) s.lanes) (k % R)) ∧
      (∀ k, k < off ∨ n ≤ k → byteAt dout k = byteAt s.dout k) := by
  induction fuel generalizing off s with
  | zero => exact squeezeTail_spec R n off s (Nat.lt_of_div_eq_zero h0 (Nat.le_zero.mp hf)) hoff hn
  | succ fuel ih =>
    unfold squeezeFrom
    split
    · rename_i hle
      rw [hR] at hle
      have hd : (n - off) / R = (n - (off + R)) / R + 1 := by
        rw [← Nat.add_div_right _ h0]; congr 1; omega
      obtain ⟨dout, he, hin, hout⟩ := ih (off + R)
        (permuteOp { s with dout := windowSplice s.dout off (stateBytes s.lanes 0 R) }) (by simpa [State.rate] using hR)
        (by omega) (by omega)
      refine ⟨dout, ?_, ?_, ?_⟩
      · rw [hR, he, hd]
        simp only [permuteOp, permuteTimes, count_succ]
      · intro k hk
        rcases Nat.lt_or_ge k R with h | h
        · rw [hout (off + k) (by omega), permuteOp_dout, byteAt_windowSplice _ _ _ _ (by omega),
            if_pos (by simp; omega), Nat.add_sub_cancel_left, stateBytes_getD _ _ _ _ h, Nat.zero_add,
            Nat.div_eq_of_lt h, Nat.mod_eq_of_lt h, permuteTimes]
        · have := hin (k - R) (by omega)
          rw [show off + R + (k - R) = off + k by omega] at this
          rw [this, permuteOp_lanes, permuteOp_act, Nat.mod_eq_sub_mod h,
            show k / R = (k - R) / R + 1 by rw [← Nat.add_div_right _ h0, Nat.sub_add_cancel h], permuteTimes]
      · intro k hk
        rw [hout k (by omega), permuteOp_dout]
        rcases Nat.lt_or_ge k 200 with h | h
        · rw [byteAt_windowSplice _ _ _ _ h, if_neg (by simp; omega)]
        · rw [byteAt_of_ge _ _ h, byteAt_of_ge _ _ h]
    · rename_i hgt
      exact squeezeTail_spec R n off s (by omega) hoff hn

/-! ### Configurations -/

/-- `CheckConfig` passes exactly the valid configurations (60_exceptions.md R263). -/
theorem checkConfig_eq_none_iff (c : SessionConfig) : checkConfig c = none ↔ ValidConfig c := by
  unfold checkConfig
  simp only [Config.maxRounds, Config.stateBytes, Config.maxSuffixLen]
  constructor
  · intro h
    by_cases h1 : c.rounds.toNat > 24
    · simp [h1] at h
    by_cases h2 : c.capacity.toNat % 64 ≠ 0 ∨ c.capacity.toNat ≥ 1600
    · simp [h1, h2] at h
    by_cases h3 : c.rate.toNat ≠ (1600 - c.capacity.toNat) / 8
    · simp [h1, h2, h3] at h
    by_cases h4 : c.digest.toNat > 200
    · rw [if_neg h1, if_neg h2, if_neg h3, if_pos h4] at h; cases h
    by_cases h5 : c.sl.toNat > 7 ∨ c.sb.toNat ≥ 2 ^ c.sl.toNat
    · rw [if_neg h1, if_neg h2, if_neg h3, if_neg h4, if_pos h5] at h; cases h
    exact ⟨by omega, by omega, by omega, by omega, by omega, by omega, by omega⟩
  · rintro ⟨h1, h2, h3, h4, h5, h6, h7⟩
    rw [if_neg (by omega), if_neg (by omega), if_neg (by omega), if_neg (by omega), if_neg (by omega)]

/-- `CheckConfig` never answers the code of no fault. -/
theorem checkConfig_ne_none_cause (c : SessionConfig) : checkConfig c ≠ some .none := by
  unfold checkConfig
  repeat' split
  all_goals simp

/-- The rate of a valid configuration: whole lanes, at least one, at most the state (42_sponge.md R180). -/
theorem ValidConfig.rate_bounds {c : SessionConfig} (h : ValidConfig c) :
    8 ≤ c.rate.toNat ∧ c.rate.toNat ≤ 200 ∧ c.rate.toNat % 8 = 0 := by
  have h1 := h.capacity_lanes
  have h2 := h.capacity_lt
  have h3 := h.rate_eq
  omega

end Sys2Proof.Machine
end

