-- ==== Sys2Proof/Laws/Frame.lean ====
section
/-! SUPPORT. What no command writes: one lemma for each effect, the form all eight commands share, the inversion of one
completion and the inversion of one step. -/

namespace Sys2Proof.Machine

/-- What no effect of a command changes: `err`, `irq_en`, `cmd_last`, `cfg0`, `cfg1`, DIN, the port and the model's own
fields (60_exceptions.md R266, 70_reset_and_hazards.md R304, 10_state.md R37). -/
structure Kept (s t : State) : Prop where
  err : t.err = s.err
  irqEn : t.irqEn = s.irqEn
  cmdLast : t.cmdLast = s.cmdLast
  cfg0 : t.cfg0 = s.cfg0
  cfg1 : t.cfg1 = s.cfg1
  din : t.din = s.din
  rstN : t.rstN = s.rstN
  inputs : t.inputs = s.inputs
  response : t.response = s.response
  freeCount : t.freeCount = s.freeCount

theorem Kept.refl (s : State) : Kept s s := ⟨rfl, rfl, rfl, rfl, rfl, rfl, rfl, rfl, rfl, rfl⟩

theorem Kept.trans {a b c : State} (h : Kept a b) (g : Kept b c) : Kept a c :=
  ⟨g.err.trans h.err, g.irqEn.trans h.irqEn, g.cmdLast.trans h.cmdLast, g.cfg0.trans h.cfg0, g.cfg1.trans h.cfg1,
    g.din.trans h.din, g.rstN.trans h.rstN, g.inputs.trans h.inputs, g.response.trans h.response,
    g.freeCount.trans h.freeCount⟩

theorem kept_permuteOp (s : State) : Kept s (permuteOp s) := ⟨rfl, rfl, rfl, rfl, rfl, rfl, rfl, rfl, rfl, rfl⟩

theorem kept_absorbBlock (b : List Byte) (s : State) : Kept s (absorbBlock b s) :=
  ⟨rfl, rfl, rfl, rfl, rfl, rfl, rfl, rfl, rfl, rfl⟩

theorem kept_duplexBlock (b : List Byte) (s : State) : Kept s (duplexBlock b s) :=
  ⟨rfl, rfl, rfl, rfl, rfl, rfl, rfl, rfl, rfl, rfl⟩

theorem kept_startSession (c : SessionConfig) (s : State) : Kept s (startSession c s) :=
  ⟨rfl, rfl, rfl, rfl, rfl, rfl, rfl, rfl, rfl, rfl⟩

theorem kept_initEffect (v : BitVec 4) (s : State) : Kept s (initEffect v s) := by
  unfold initEffect
  split
  · exact kept_startSession _ s
  · exact Kept.refl s

/-- The block loop keeps the phase, the configuration, `pos` and BUF too (42_sponge.md R180). -/
theorem kept_absorbBlocks (fuel : Nat) (bs : List Byte) (s : State) :
    Kept s (absorbBlocks fuel bs s).1 ∧ (absorbBlocks fuel bs s).1.phase = s.phase ∧
      (absorbBlocks fuel bs s).1.act = s.act := by
  induction fuel generalizing bs s with
  | zero => exact ⟨Kept.refl s, by simp only [absorbBlocks], by simp only [absorbBlocks]⟩
  | succ fuel ih =>
    unfold absorbBlocks
    split
    · obtain ⟨h1, h2, h3⟩ := ih (bs.drop s.rate) (absorbBlock (bs.take s.rate) s)
      exact ⟨(kept_absorbBlock _ s).trans h1, h2, h3⟩
    · exact ⟨Kept.refl s, rfl, rfl⟩

theorem kept_padAbsorbOp (m : List Byte) (s : State) :
    Kept s (padAbsorbOp m s) ∧ (padAbsorbOp m s).phase = s.phase ∧ (padAbsorbOp m s).act = s.act :=
  kept_absorbBlocks _ _ s

theorem kept_squeezeFrom (n fuel off : Nat) (s : State) :
    Kept s (squeezeFrom n fuel off s) ∧ (squeezeFrom n fuel off s).phase = s.phase ∧
      (squeezeFrom n fuel off s).act = s.act := by
  induction fuel generalizing off s with
  | zero =>
    unfold squeezeFrom
    exact ⟨⟨rfl, rfl, rfl, rfl, rfl, rfl, rfl, rfl, rfl, rfl⟩, rfl, rfl⟩
  | succ fuel ih =>
    unfold squeezeFrom
    split
    · obtain ⟨h1, h2, h3⟩ := ih (off + s.rate)
        (permuteOp { s with dout := windowSplice s.dout off (stateBytes s.lanes 0 s.rate) })
      refine ⟨Kept.trans ?_ h1, h2, h3⟩
      exact ⟨rfl, rfl, rfl, rfl, rfl, rfl, rfl, rfl, rfl, rfl⟩
    · exact ⟨⟨rfl, rfl, rfl, rfl, rfl, rfl, rfl, rfl, rfl, rfl⟩, rfl, rfl⟩

theorem kept_squeezeOut (n : Nat) (s : State) :
    Kept s (squeezeOut n s) ∧ (squeezeOut n s).phase = s.phase ∧ (squeezeOut n s).act = s.act :=
  kept_squeezeFrom n n 0 s

theorem kept_updateEffect (d : List Byte) (s : State) :
    Kept s (updateEffect d s) ∧ (updateEffect d s).phase = s.phase ∧ (updateEffect d s).act = s.act := by
  unfold updateEffect
  split
  · exact ⟨⟨rfl, rfl, rfl, rfl, rfl, rfl, rfl, rfl, rfl, rfl⟩, rfl, rfl⟩
  · have ht : Kept s (topOff d s).1 ∧ (topOff d s).1.phase = s.phase ∧ (topOff d s).1.act = s.act := by
      unfold topOff
      split
      · exact ⟨⟨rfl, rfl, rfl, rfl, rfl, rfl, rfl, rfl, rfl, rfl⟩, rfl, rfl⟩
      · exact ⟨Kept.refl s, rfl, rfl⟩
    obtain ⟨h1, h2, h3⟩ := kept_absorbBlocks (topOff d s).2.length (topOff d s).2 (topOff d s).1
    refine ⟨(ht.1.trans h1).trans ?_, h2.trans ht.2.1, h3.trans ht.2.2⟩
    exact ⟨rfl, rfl, rfl, rfl, rfl, rfl, rfl, rfl, rfl, rfl⟩

theorem kept_finalizeEffect (s : State) :
    Kept s (finalizeEffect s) ∧ (finalizeEffect s).phase = .final ∧ (finalizeEffect s).act = s.act ∧
      (finalizeEffect s).pos = 0 := by
  obtain ⟨h1, -, h2⟩ := kept_padAbsorbOp (bufferedBytes s) s
  obtain ⟨h3, -, h4⟩ := kept_squeezeOut s.act.digest.toNat (padAbsorbOp (bufferedBytes s) s)
  refine ⟨(h1.trans h3).trans ?_, rfl, h4.trans h2, rfl⟩
  exact ⟨rfl, rfl, rfl, rfl, rfl, rfl, rfl, rfl, rfl, rfl⟩

/-- The effect of a command, once its checks have passed. -/
def effectOf (i : Instr) : State → State :=
  match i with
  | .init v => initEffect v
  | .update len => fun t => updateEffect (dinBytes (lenBytes len) t) t
  | .finalize => finalizeEffect
  | .permute => permuteOp
  | .absorb _ => fun t => absorbBlock (dinBytes t.rate t) t
  | .squeeze len => squeezeOut (lenBytes len)
  | .duplex _ => fun t => duplexBlock (dinBytes t.rate t) t
  | .padAbsorb len => fun t => padAbsorbOp (dinBytes (lenBytes len) t) t

/-- The one form all eight commands have (60_exceptions.md R265). -/
theorem exec_eq_completion (i : Instr) (s : State) : exec i s = .next (completion (check i s) (effectOf i) s) := by
  cases i <;> rfl

/-- In FAULT every command is abandoned (60_exceptions.md R265). -/
theorem exec_of_fault (i : Instr) (s : State) (h : s.phase = .fault) : exec i s = .next (retire s) := by
  rw [exec_eq_completion, completion_of_fault _ _ _ h]

/-- A failed check enters FAULT with its cause (60_exceptions.md R261, R266). -/
theorem exec_of_failed (i : Instr) (s : State) (c : Cause) (h : s.phase ≠ .fault) (hc : check i s = some c) :
    exec i s = .next (faultedWith c s) := by
  rw [exec_eq_completion, hc, completion_of_failed _ _ _ h, faultEntry_of_ne _ _ h]
  rfl

/-- With all checks passed a command has its effect and retires (60_exceptions.md R265). -/
theorem exec_of_passed (i : Instr) (s : State) (h : s.phase ≠ .fault) (hc : check i s = none) :
    exec i s = .next (retire (effectOf i s)) := by
  rw [exec_eq_completion, hc, completion_of_passed _ _ h]

theorem kept_effectOf (i : Instr) (s : State) : Kept s (effectOf i s) := by
  cases i with
  | init v => exact kept_initEffect v s
  | update len => exact (kept_updateEffect _ s).1
  | finalize => exact (kept_finalizeEffect s).1
  | permute => exact kept_permuteOp s
  | absorb _ => exact kept_absorbBlock _ s
  | squeeze len => exact (kept_squeezeOut _ s).1
  | duplex _ => exact kept_duplexBlock _ s
  | padAbsorb len => exact (kept_padAbsorbOp _ s).1

/-! ### What a passed check says -/

theorem checkPhase_eq_none {s : State} (h : s.phase ≠ .fault) (hc : checkPhase s = none) : s.phase = .accum := by
  unfold checkPhase at hc
  split at hc <;> first | assumption | contradiction

theorem checkPhase_of_accum {s : State} (h : s.phase = .accum) : checkPhase s = none := by
  simp [checkPhase, h]

theorem checkRaw_of_accum {s : State} (h : s.phase = .accum) : checkRaw s = if s.pos ≠ 0 then some .sequence else none := by
  simp [checkRaw, checkPhase, h]

theorem checkRaw_of_ready {s : State} (h : s.phase = .accum) (hp : s.pos = 0) : checkRaw s = none := by
  simp [checkRaw, checkPhase, h, hp]

theorem checkLen_of_le {n : Nat} (h : n ≤ 200) : checkLen n = none := by
  simp only [checkLen, Config.maxLen]
  rw [if_neg (by omega)]

theorem checkLen_of_gt {n : Nat} (h : 200 < n) : checkLen n = some .badLen := by
  simp only [checkLen, Config.maxLen]
  rw [if_pos h]

/-- The configuration checks, written as the spec writes them (60_exceptions.md R263). -/
theorem checkConfig_eq (c : SessionConfig) :
    checkConfig c =
      if c.rounds.toNat > 24 then some .badRounds
      else if c.capacity.toNat % 64 ≠ 0 ∨ c.capacity.toNat ≥ 1600 then some .badCapacity
      else if c.rate.toNat ≠ (1600 - c.capacity.toNat) / 8 then some .rateMismatch
      else if c.digest.toNat > 200 then some .badDigest
      else if c.sl.toNat > 7 ∨ c.sb.toNat ≥ 2 ^ c.sl.toNat then some .badSuffix
      else none := rfl

/-- No check answers the code of no fault. -/
theorem check_ne_none_cause (i : Instr) (s : State) : check i s ≠ some .none := by
  cases i <;> simp only [check, checkRaw, checkPhase, checkLen, checkBlock]
  case init v =>
    split
    · simp
    · exact checkConfig_ne_none_cause _
  all_goals (repeat' split) <;> simp_all

end Sys2Proof.Machine
end

