-- ==== Sys2Proof/Laws/HostProgram.lean ====
section
/-! SUPPORT. What the pieces of a host program do: one turn, one access, one read of STATUS, that what a wait leaves does not
depend on how many reads come before the completion, and that an endless wait is endless. -/

namespace Sys2Proof.Machine

/-- A turn that answers a next state leaves the rest of the list of turns as it was. -/
theorem takeTurn_access (a : BusAccess) (r : HostRun) (s : State) (h : hostTurn a r.machine = .next s) :
    takeTurn (.access a) r = .ok { r with machine := s } := by
  have e : step { r.machine with inputs := .access a :: r.machine.inputs } = hostTurn a r.machine := rfl
  unfold takeTurn
  rw [e, h]

theorem takeTurn_engine (r : HostRun) (s : State) (h : engineTurn r.machine = .next s) :
    takeTurn .engine r = .ok { r with machine := s } := by
  have e : step { r.machine with inputs := .engine :: r.machine.inputs } = engineTurn r.machine := rfl
  unfold takeTurn
  rw [e, h]

/-- An access that the schedule puts before the completion: the host's turn and nothing else. -/
theorem takeAccess_before (a : BusAccess) (r : HostRun) (rest : List Bool) (s : State) (hs : r.schedule = false :: rest)
    (h : hostTurn a r.machine = .next s) :
    takeAccess (.access a) r = .ok { r with machine := s, schedule := rest } := by
  unfold takeAccess
  rw [if_neg (by simp [hs]), ← List.tail_cons (a := false) (as := rest), ← hs]
  exact takeTurn_access a { r with schedule := r.schedule.tail } s h

/-- An access that the schedule puts after the completion. -/
theorem takeAccess_after (a : BusAccess) (r : HostRun) (u s : State) (hs : r.schedule.headD true = true)
    (hu : engineTurn r.machine = .next u) (h : hostTurn a u = .next s) :
    takeAccess (.access a) r = .ok { r with machine := s, schedule := r.schedule.tail } := by
  unfold takeAccess
  rw [hs, if_pos rfl, takeTurn_engine r u hu]
  exact takeTurn_access a { r with machine := u, schedule := r.schedule.tail } s h

/-- With nothing in flight the schedule does not matter: the access finds the engine as it was. -/
theorem takeAccess_idle (a : BusAccess) (r : HostRun) (s : State) (hb : r.machine.busy = false)
    (h : hostTurn a r.machine = .next s) :
    takeAccess (.access a) r = .ok { r with machine := s, schedule := r.schedule.tail } := by
  have hu : engineTurn r.machine = .next r.machine := by simp [engineTurn, hb]
  rcases e : r.schedule with _ | ⟨_ | _, rest⟩
  · rw [takeAccess_after a r _ s (by rw [e]; rfl) hu h, e]
  · rw [takeAccess_before a r rest s e h]
    rfl
  · rw [takeAccess_after a r _ s (by rw [e]; rfl) hu h, e]

theorem takeAccesses_append (ts us : List Turn) (r : HostRun) :
    takeAccesses (ts ++ us) r = (takeAccesses ts r).bind (takeAccesses us) := by
  induction ts generalizing r with
  | nil => rfl
  | cons t ts ih =>
    simp only [List.cons_append, takeAccesses]
    cases takeAccess t r with
    | error e => rfl
    | ok u => exact ih u

/-- STATUS reads exactly, busy or not (10_state.md R31, 70_reset_and_hazards.md R314). -/
theorem hostTurn_status (s : State) (hr : s.rstN = true) :
    hostTurn (.read .bits32 statusOffset) s = .next { s with response := .data (statusWord s) } := by
  rw [hostTurn_read _ _ hr (by decide), show regAt statusOffset = .status from by decide,
    readReg_of_exact _ _ (.inr rfl)]
  rfl

/-- The run after a read of STATUS that no completion comes before. -/
def HostRun.statusRead (r : HostRun) (rest : List Bool) : HostRun :=
  { r with machine := { r.machine with response := .data (statusWord r.machine) }, schedule := rest }

/-- A read of STATUS that the schedule puts before the completion. -/
theorem busRead_status_before (r : HostRun) (rest : List Bool) (hs : r.schedule = false :: rest)
    (hr : r.machine.rstN = true) : busRead statusOffset r = .ok (statusWord r.machine, r.statusRead rest) := by
  unfold busRead rd
  rw [takeAccess_before _ _ rest _ hs (hostTurn_status r.machine hr)]
  rfl

/-- A read of STATUS with nothing in flight, whatever the schedule. -/
theorem busRead_status_idle (r : HostRun) (hb : r.machine.busy = false) (hr : r.machine.rstN = true) :
    busRead statusOffset r = .ok (statusWord r.machine, r.statusRead r.schedule.tail) := by
  unfold busRead rd
  rw [takeAccess_idle _ _ _ hb (hostTurn_status r.machine hr)]
  rfl

/-- How many reads come before the completion does not matter to what a wait leaves (70_reset_and_hazards.md R320): the
engine goes on from the same state. -/
theorem pollUntil_any_delay (stop : Word → Bool) (n : Nat) (rest : List Bool) (r : HostRun)
    (hs : r.schedule = List.replicate (n + 1) false ++ rest) (hr : r.machine.rstN = true)
    (hf : stop (statusWord r.machine) = false) : pollUntil stop r = pollUntil stop (r.statusRead rest) := by
  have once : ∀ (rest : List Bool) (r : HostRun), r.schedule = false :: rest → r.machine.rstN = true →
      stop (statusWord r.machine) = false → pollUntil stop r = pollUntil stop (r.statusRead rest) := by
    intro rest r hs hr hf
    unfold pollUntil
    rw [hs, List.length_cons]
    simp [pollStatus, busRead_status_before r rest hs hr, Except.bind, hf, HostRun.statusRead]
  induction n generalizing r with
  | zero => exact once rest r (by simpa using hs) hr hf
  | succ n ih =>
    rw [once (List.replicate (n + 1) false ++ rest) r (by rw [hs]; rfl) hr hf]
    exact ih (r.statusRead (List.replicate (n + 1) false ++ rest)) rfl hr hf

/-- A wait with nothing in flight whose condition STATUS does not show is endless: no read ever shows it (R316). -/
theorem pollStatus_endless (stop : Word → Bool) (fuel : Nat) (r : HostRun) (hb : r.machine.busy = false)
    (hr : r.machine.rstN = true) (hf : stop (statusWord r.machine) = false) :
    pollStatus stop fuel r = .error .endlessWait := by
  induction fuel generalizing r with
  | zero => simp [pollStatus, busRead_status_idle r hb hr, Except.bind, hf]
  | succ fuel ih =>
    have h := ih (r.statusRead r.schedule.tail) hb hr hf
    simp [pollStatus, busRead_status_idle r hb hr, Except.bind, hf, h]

/-- BUSY is bit 0 of STATUS (10_state.md R31), the bit `WAIT` looks at. -/
theorem statusWord_busy (s : State) : (statusWord s).getLsbD 0 = s.busy := by
  rw [statusWord, BitVec.getLsbD_setWidth, BitVec.getLsbD_append]
  cases s.busy <;> rfl

/-- While a command is in flight, `WAIT` goes on to its completion, whatever the delay. -/
theorem waitIdle_any_delay (r : HostRun) (n : Nat) (rest : List Bool)
    (hs : r.schedule = List.replicate (n + 1) false ++ rest) (hr : r.machine.rstN = true)
    (hb : r.machine.busy = true) : waitIdle r = waitIdle (r.statusRead rest) :=
  pollUntil_any_delay _ n rest r hs hr (by rw [statusWord_busy, hb]; rfl)

/-- `READOUT m` keeps at most `m` bytes (30_encoding.md R109). -/
theorem unpackBytes_length_le (m : Nat) (ws : List Word) : (unpackBytes m ws).length ≤ m := by
  unfold unpackBytes
  exact List.length_take_le _ _

/-- Running lines one after the other. -/
theorem runLines_append (ls ms : List HostLine) (r : HostRun) :
    runLines (ls ++ ms) r = (runLines ls r).bind (runLines ms) := by
  induction ls generalizing r with
  | nil => rfl
  | cons l ls ih =>
    simp only [List.cons_append, runLines]
    cases runLine l r with
    | error e => rfl
    | ok u => exact ih u

end Sys2Proof.Machine
end

