-- ==== Sys2Proof/Laws/Keccak.lean ====
section
/-! SUPPORT. The steps of a round lane by lane, and the order of the rounds. -/

namespace Sys2Proof.Machine

theorem laneAt_set (A : Lanes) (i j : Nat) (v : Lane) (h : i < 25) :
    laneAt (A.set! i v) j = if i = j then v else laneAt A j := by
  rcases Nat.lt_or_ge j 25 with hj | hj
  · rw [laneAt_eq_getElem _ _ hj, laneAt_eq_getElem _ _ hj]
    exact Vector.getElem_setIfInBounds hj
  · rw [laneAt_of_ge _ _ hj, laneAt_of_ge _ _ hj, if_neg (by omega)]

/-- Theta (40_permutation.md R131). -/
theorem laneAt_theta (A : Lanes) (i : Nat) (h : i < 25) : laneAt (theta A) i = laneAt A i ^^^ thetaMask A (i % 5) :=
  laneAt_ofFn _ i h

/-- Chi (40_permutation.md R136). -/
theorem laneAt_chi (A : Lanes) (i : Nat) (h : i < 25) :
    laneAt (chi A) i =
      laneAt A i ^^^ (~~~laneAt A (i / 5 * 5 + (i % 5 + 1) % 5) &&& laneAt A (i / 5 * 5 + (i % 5 + 2) % 5)) :=
  laneAt_ofFn _ i h

/-- Iota (40_permutation.md R137). -/
theorem laneAt_iota (A : Lanes) (rc : Lane) (i : Nat) :
    laneAt (iota A rc) i = if i = 0 then laneAt A 0 ^^^ rc else laneAt A i := by
  rw [iota, laneAt_set _ _ _ _ (by omega)]
  by_cases h : i = 0
  · simp [h]
  · rw [if_neg (Ne.symm h), if_neg h]

/-- Every destination of pi is a lane (40_permutation.md R134). -/
theorem piLane_lt (i : Nat) (h : i < 25) : piLane i < 25 := by
  have : ∀ i < 25, piLane i < 25 := by decide
  exact this i h

/-- The destinations of pi are distinct (40_permutation.md R132). -/
theorem piLane_nodup : ((List.range 25).map piLane).Nodup := by decide

/-- The lanes a sequence of writes to distinct places leaves. -/
theorem laneAt_foldl_set (f : Nat → Lane) (l : List Nat) (hl : ∀ i ∈ l, i < 25) (hn : (l.map piLane).Nodup)
    (B : Lanes) (i : Nat) (hi : i ∈ l) :
    laneAt (l.foldl (fun B i => B.set! (piLane i) (f i)) B) (piLane i) = f i := by
  have keep : ∀ (l : List Nat) (B : Lanes) (j : Nat), (∀ i ∈ l, i < 25) → j ∉ l.map piLane →
      laneAt (l.foldl (fun B i => B.set! (piLane i) (f i)) B) j = laneAt B j := by
    intro l
    induction l with
    | nil => intro B j _ _; rfl
    | cons a l ih =>
      intro B j hl hj
      simp only [List.map_cons, List.mem_cons, not_or] at hj
      rw [List.foldl_cons, ih _ _ (fun i hi => hl i (by simp [hi])) hj.2,
        laneAt_set _ _ _ _ (piLane_lt a (hl a (by simp))), if_neg (fun h => hj.1 h.symm)]
  induction l generalizing B with
  | nil => cases hi
  | cons a l ih =>
    rw [List.map_cons, List.nodup_cons] at hn
    rw [List.foldl_cons]
    by_cases hil : i ∈ l
    · exact ih (fun i hi => hl i (by simp [hi])) hn.2 _ hil
    · have : i = a := by simpa [hil] using hi
      subst this
      rw [keep l _ _ (fun i hi => hl i (by simp [hi])) hn.1, laneAt_set _ _ _ _ (piLane_lt i (hl i (by simp))),
        if_pos rfl]

/-- Rho and pi: every source lane at its destination, rotated (40_permutation.md R132). -/
theorem laneAt_rhoPi (A : Lanes) (i : Nat) (h : i < 25) :
    laneAt (rhoPi A) (piLane i) = rotl (laneAt A i) (rhoOffset i) :=
  laneAt_foldl_set (fun i => rotl (laneAt A i) (rhoOffset i)) (List.range 25) (fun i hi => by simpa using hi)
    piLane_nodup Lanes.zero i (by simpa using h)

@[simp] theorem keccakP_zero_rounds (A : Lanes) : keccakP A 0 = A := rfl

/-- Counting the steps of a loop from 1 instead of 0. -/
theorem foldl_range_succ {α : Type} (f : α → Nat → α) (a : α) (n : Nat) :
    (List.range (n + 1)).foldl f a = (List.range n).foldl (fun b i => f b (i + 1)) (f a 0) := by
  rw [List.range_succ_eq_map, List.foldl_cons, List.foldl_map]

/-- The rounds from the front: the first of `n + 1` uses constant `24 - (n + 1)` (40_permutation.md R130). -/
theorem keccakP_succ (A : Lanes) (n : Nat) (h : n < 24) :
    keccakP A (n + 1) = keccakP (keccakRound A (roundConstant (24 - (n + 1)))) n := by
  have e : (fun (B : Lanes) (i : Nat) => keccakRound B (roundConstant (24 - (n + 1) + (i + 1)))) =
      fun B i => keccakRound B (roundConstant (24 - n + i)) := by
    funext B i
    rw [show 24 - (n + 1) + (i + 1) = 24 - n + i by omega]
  unfold keccakP
  rw [foldl_range_succ, e, Nat.add_zero]

end Sys2Proof.Machine
end

