-- ==== Sys2Proof/Laws/Padding.lean ====
section
/-! SUPPORT. What the block formatter answers: its length, each of its bytes, and that whole blocks in front pass through
it unchanged. -/

namespace Sys2Proof.Machine

/-- The number of blocks of a padded message (41_padding.md R161). -/
def padBlocks (R L sl : Nat) : Nat := (8 * L + sl + 2 + (8 * R - 1)) / (8 * R)

theorem padLength_eq (R L sl : Nat) : padLength R L sl = R * padBlocks R L sl := rfl

/-- The padded message has room for the suffix and two more bits. -/
theorem padBlocks_room {R : Nat} (L sl : Nat) (h0 : 0 < R) : 8 * L + sl + 2 ≤ 8 * (R * padBlocks R L sl) := by
  have h := Nat.div_add_mod (8 * L + sl + 2 + (8 * R - 1)) (8 * R)
  have hm := Nat.mod_lt (8 * L + sl + 2 + (8 * R - 1)) (show 8 * R > 0 by omega)
  have e : 8 * (R * padBlocks R L sl) = 8 * R * ((8 * L + sl + 2 + (8 * R - 1)) / (8 * R)) := by
    rw [padBlocks, Nat.mul_assoc]
  omega

/-- One block less would not have that room. -/
theorem padBlocks_least {R : Nat} (L sl : Nat) (h0 : 0 < R) :
    8 * (R * padBlocks R L sl) < 8 * L + sl + 2 + 8 * R := by
  have h := Nat.div_add_mod (8 * L + sl + 2 + (8 * R - 1)) (8 * R)
  have e : 8 * (R * padBlocks R L sl) = 8 * R * ((8 * L + sl + 2 + (8 * R - 1)) / (8 * R)) := by
    rw [padBlocks, Nat.mul_assoc]
  omega

theorem one_le_padBlocks {R : Nat} (L sl : Nat) (h0 : 0 < R) : 1 ≤ padBlocks R L sl := by
  have h := padBlocks_room L sl h0
  rcases Nat.eq_zero_or_pos (padBlocks R L sl) with e | e
  · rw [e] at h; omega
  · exact e

/-- Whole blocks in front add their number (41_padding.md R163). -/
theorem padBlocks_add {R : Nat} (j L sl : Nat) (h0 : 0 < R) : padBlocks R (R * j + L) sl = j + padBlocks R L sl := by
  have e : 8 * (R * j + L) + sl + 2 + (8 * R - 1) = 8 * L + sl + 2 + (8 * R - 1) + 8 * R * j := by
    rw [Nat.mul_add, ← Nat.mul_assoc]; omega
  rw [padBlocks, e, Nat.add_mul_div_left _ _ (by omega), padBlocks, Nat.add_comm]

theorem lt_padLength {R : Nat} (L sl : Nat) (h0 : 0 < R) : L < padLength R L sl := by
  have := padBlocks_room L sl h0
  rw [padLength_eq]; omega

theorem pad_length {R : Nat} (m : List Byte) (sb : Byte) (sl : Nat) (h0 : 0 < R) :
    (pad R m sb sl).length = R * padBlocks R m.length sl := by
  have := lt_padLength m.length sl h0
  simp only [pad, List.length_modify, List.length_append, List.length_replicate]
  rw [← padLength_eq]; omega

theorem pad_length_div {R : Nat} (m : List Byte) (sb : Byte) (sl : Nat) (h0 : 0 < R) :
    (pad R m sb sl).length / R = padBlocks R m.length sl := by
  rw [pad_length m sb sl h0, Nat.mul_div_cancel_left _ h0]

theorem getD_modify {α : Type} (l : List α) (n k : Nat) (f : α → α) (d : α) (h : k < l.length) :
    (l.modify n f).getD k d = if n = k then f (l.getD k d) else l.getD k d := by
  simp only [List.getD, List.getElem?_modify, List.getElem?_eq_getElem h, Option.getD_some]
  split <;> simp

/-- Every byte of the padded message (41_padding.md R161). -/
theorem pad_getD {R : Nat} (m : List Byte) (sb : Byte) (sl k : Nat) (h0 : 0 < R) (hk : k < R * padBlocks R m.length sl) :
    (pad R m sb sl).getD k 0 =
      (if k < m.length then m.getD k 0 else if k = m.length then sb ||| (1 : Byte) <<< sl else 0) |||
        (if k = R * padBlocks R m.length sl - 1 then 0x80 else 0) := by
  have hl := lt_padLength m.length sl h0
  rw [padLength_eq] at hl
  have hlen : (m ++ List.replicate (R * padBlocks R m.length sl - m.length) (0 : Byte)).length =
      R * padBlocks R m.length sl := by simp; omega
  have hbase : (m ++ List.replicate (R * padBlocks R m.length sl - m.length) (0 : Byte)).getD k 0 =
      if k < m.length then m.getD k 0 else 0 := by
    rw [getD_append]
    split
    · rfl
    · rw [List.getD, List.getElem?_replicate]; split <;> rfl
  simp only [pad, padLength_eq]
  rw [getD_modify _ _ _ _ _ (by rw [List.length_modify, hlen]; exact hk), getD_modify _ _ _ _ _ (by rw [hlen]; exact hk),
    hbase]
  by_cases h1 : m.length = k
  · subst h1
    by_cases h2 : R * padBlocks R m.length sl - 1 = m.length
    · simp [h2]
    · simp [h2, Ne.symm h2]
  · by_cases h2 : R * padBlocks R m.length sl - 1 = k
    · simp only [if_neg h1, if_pos h2, if_neg (Ne.symm h1), if_pos h2.symm]
    · simp only [if_neg h1, if_neg h2, if_neg (Ne.symm h1), if_neg (Ne.symm h2)]
      exact BitVec.or_zero.symm

/-- Padding the whole message gives the same blocks as passing whole blocks through and padding the rest
(42_sponge.md R188). -/
theorem pad_append {R : Nat} (bs m : List Byte) (sb : Byte) (sl j : Nat) (h0 : 0 < R) (hb : bs.length = R * j) :
    pad R (bs ++ m) sb sl = bs ++ pad R m sb sl := by
  have hl : (bs ++ m).length = R * j + m.length := by simp [hb]
  have hpos := Nat.mul_le_mul_left R (one_le_padBlocks m.length sl h0)
  apply list_ext_getD 0
  · rw [pad_length _ _ _ h0, hl, List.length_append, pad_length _ _ _ h0, padBlocks_add _ _ _ h0, hb, Nat.mul_add]
  · intro k hk
    rw [pad_length _ _ _ h0, hl, padBlocks_add _ _ _ h0] at hk
    rw [pad_getD _ _ _ _ h0 (by rw [hl, padBlocks_add _ _ _ h0]; exact hk), getD_append, hl, padBlocks_add _ _ _ h0,
      getD_append, hb]
    rw [Nat.mul_add] at hk ⊢
    by_cases hkb : k < R * j
    · rw [if_pos (by omega), if_pos hkb, if_pos hkb, if_neg (by omega)]
      exact BitVec.or_zero
    · rw [if_neg hkb, if_neg hkb, pad_getD _ _ _ _ h0 (by omega)]
      congr 1
      · by_cases h1 : k - R * j < m.length
        · rw [if_pos (by omega), if_pos h1]
        · rw [if_neg (by omega), if_neg h1]
          by_cases h2 : k - R * j = m.length
          · rw [if_pos (by omega), if_pos h2]
          · rw [if_neg (by omega), if_neg h2]
      · by_cases h3 : k - R * j = R * padBlocks R m.length sl - 1
        · rw [if_pos (by omega), if_pos h3]
        · rw [if_neg (by omega), if_neg h3]

end Sys2Proof.Machine
end

