-- ==== Sys2Proof/Laws/PerInstr.lean ====
section
/-! SUPPORT. One statement per constructor of `Instr`: its encoding is a word of its row of spec/opcode_table.json
(30_encoding.md R104). -/

namespace Sys2Proof.Laws.EncodeMatchesRow

/-- `mask(X)` (R104). -/
def rowMask : Instr → Word
  | .init _ => 0xFFFFF0FF
  | .update _ => 0xFFFF00FF
  | .finalize => 0xFFFFFFFF
  | .permute => 0xFFFFFFFF
  | .absorb _ => 0xFFFF00FF
  | .squeeze _ => 0xFFFF00FF
  | .duplex _ => 0xFFFF00FF
  | .padAbsorb _ => 0xFFFF00FF

/-- `match(X)` (R104). -/
def rowMatch : Instr → Word
  | .init _ => 0x00000001
  | .update _ => 0x00000002
  | .finalize => 0x00000003
  | .permute => 0x00000010
  | .absorb _ => 0x00000011
  | .squeeze _ => 0x00000012
  | .duplex _ => 0x00000013
  | .padAbsorb _ => 0x00000014

/-- `w AND mask(X) = match(X)` for the word `w` of a command `X`. -/
def Statement (i : Instr) : Prop := encode i &&& rowMask i = rowMatch i

theorem init (variant : BitVec 4) : Statement (.init variant) := by
  have h : ∀ v : BitVec 4, encode (.init v) &&& 0xFFFFF0FF = 0x00000001 := by decide
  exact h variant

theorem update (len : BitVec 8) : Statement (.update len) := by
  have h : ∀ n : BitVec 8, encode (.update n) &&& 0xFFFF00FF = 0x00000002 := by decide
  exact h len

theorem finalize : Statement .finalize := by
  unfold Statement
  decide

theorem permute : Statement .permute := by
  unfold Statement
  decide

theorem absorb (len : BitVec 8) : Statement (.absorb len) := by
  have h : ∀ n : BitVec 8, encode (.absorb n) &&& 0xFFFF00FF = 0x00000011 := by decide
  exact h len

theorem squeeze (len : BitVec 8) : Statement (.squeeze len) := by
  have h : ∀ n : BitVec 8, encode (.squeeze n) &&& 0xFFFF00FF = 0x00000012 := by decide
  exact h len

theorem duplex (len : BitVec 8) : Statement (.duplex len) := by
  have h : ∀ n : BitVec 8, encode (.duplex n) &&& 0xFFFF00FF = 0x00000013 := by decide
  exact h len

theorem padAbsorb (len : BitVec 8) : Statement (.padAbsorb len) := by
  have h : ∀ n : BitVec 8, encode (.padAbsorb n) &&& 0xFFFF00FF = 0x00000014 := by decide
  exact h len

end Sys2Proof.Laws.EncodeMatchesRow
end

