-- ==== Sys2Proof/Laws/Session.lean ====
section
/-! SUPPORT. What the session's operations do as a whole: blocks absorbed one after another, padded absorption, the squeeze,
UPDATE's effect and FINALIZE's effect, each by one equation. -/

namespace Sys2Proof.Machine

/-! ### Blocks one after another -/

/-- `spongeAbsorb` reads only the blocks it absorbs. -/
theorem spongeAbsorb_append (R rounds k : Nat) (bs more : List Byte) (A : Lanes) (h : R * k ≤ bs.length) :
    spongeAbsorb R rounds k (bs ++ more) A = spongeAbsorb R rounds k bs A := by
  induction k generalizing bs A with
  | zero => rfl
  | succ k ih =>
    rw [Nat.mul_succ] at h
    simp only [spongeAbsorb]
    rw [List.take_append_of_le_length (by omega), List.drop_append_of_le_length (by omega), ih _ _ (by simp; omega)]

/-- First `j` blocks, then `k` more (43_incremental.md R225). -/
theorem spongeAbsorb_add (R rounds j k : Nat) (bs : List Byte) (A : Lanes) :
    spongeAbsorb R rounds (j + k) bs A =
      spongeAbsorb R rounds k (bs.drop (R * j)) (spongeAbsorb R rounds j bs A) := by
  induction j generalizing bs A with
  | zero => simp [spongeAbsorb]
  | succ j ih =>
    rw [Nat.add_right_comm, spongeAbsorb, ih, spongeAbsorb, List.drop_drop, Nat.mul_succ, Nat.add_comm R]

/-- The same for a message in two pieces, the first of whole blocks. -/
theorem spongeAbsorb_pieces (R rounds j k : Nat) (bs more : List Byte) (A : Lanes) (h : bs.length = R * j) :
    spongeAbsorb R rounds (j + k) (bs ++ more) A =
      spongeAbsorb R rounds k more (spongeAbsorb R rounds j bs A) := by
  rw [spongeAbsorb_add, spongeAbsorb_append _ _ _ _ _ _ (by omega), ← h, List.drop_left]

/-- Absorbing one block is one step of `spongeAbsorb`. -/
theorem spongeAbsorb_one (R rounds : Nat) (bs : List Byte) (A : Lanes) :
    spongeAbsorb R rounds 1 bs A = keccakP (xorBlock A R (bs.take R)) rounds := rfl

/-! ### Padded absorption and the squeeze -/

/-- Everything `PadAbsorb` does (42_sponge.md R188). -/
theorem padAbsorbOp_eq (m : List Byte) (s : State) (h0 : 0 < s.rate) :
    padAbsorbOp m s =
      { s with
        lanes := spongeAbsorb s.rate s.act.rounds.toNat (padBlocks s.rate m.length s.act.sl.toNat)
          (pad s.rate m s.act.sb s.act.sl.toNat) s.lanes,
        permCount := s.permCount + BitVec.ofNat 32 (padBlocks s.rate m.length s.act.sl.toNat) } := by
  simp only [padAbsorbOp]
  rw [absorbBlocks_state s.rate _ _ s rfl h0 (Nat.le_refl _), pad_length_div _ _ _ h0]

/-- Everything `SqueezeOut` does (42_sponge.md R182). -/
theorem squeezeOut_eq (n : Nat) (s : State) (h0 : 0 < s.rate) (hn : n ≤ 200) :
    ∃ dout : Window,
      squeezeOut n s =
        { s with
          lanes := permuteTimes s.act.rounds.toNat (n / s.rate) s.lanes,
          permCount := s.permCount + BitVec.ofNat 32 (n / s.rate),
          dout := dout } ∧
      (∀ k < n, byteAt dout k = stateByte (permuteTimes s.act.rounds.toNat (k / s.rate) s.lanes) (k % s.rate)) ∧
      (∀ k, n ≤ k → byteAt dout k = byteAt s.dout k) := by
  obtain ⟨dout, h1, h2, h3⟩ := squeezeFrom_spec s.rate n n 0 s rfl h0 (Nat.zero_le n) hn (Nat.div_le_self n s.rate)
  refine ⟨dout, h1, ?_, fun k hk => h3 k (.inr hk)⟩
  intro k hk
  simpa using h2 k hk

/-! ### UPDATE -/

/-- The bytes a session holds and the new ones: what UPDATE works on (43_incremental.md R225). -/
theorem bufferedBytes_length {s : State} (h : s.pos.toNat ≤ 200) : (bufferedBytes s).length = s.pos.toNat :=
  windowSlice_length_of_le s.buf _ h

/-- The first branch of UPDATE (43_incremental.md R223, R226). -/
theorem updateEffect_of_short (d : List Byte) (s : State) (h : s.pos.toNat + d.length < s.rate) :
    updateEffect d s = appendToBuffer d s := by
  rw [updateEffect, if_pos h]

/-- The blocks of the rest of the data and its tail, the end of UPDATE (43_incremental.md R223). -/
theorem keepTail_absorbBlocks (R : Nat) (rest : List Byte) (t : State) (hR : t.rate = R) (h0 : 0 < R) :
    keepTail (absorbBlocks rest.length rest t).2 (absorbBlocks rest.length rest t).1 =
      { t with
        lanes := spongeAbsorb R t.act.rounds.toNat (rest.length / R) rest t.lanes,
        permCount := t.permCount + BitVec.ofNat 32 (rest.length / R),
        buf := windowSplice t.buf 0 (rest.drop (R * (rest.length / R))),
        pos := BitVec.ofNat 8 (rest.length % R) } := by
  have hlen : rest.length - R * (rest.length / R) = rest.length % R := by
    have := Nat.div_add_mod rest.length R
    omega
  rw [absorbBlocks_state R _ _ t hR h0 (Nat.div_le_self _ _)]
  simp only [keepTail, List.length_drop, hlen]

/-- The top-off, when the buffer holds bytes and the data fills it (43_incremental.md R223). -/
theorem topOff_of_buffered (d : List Byte) (s : State) (h0 : 0 < s.pos.toNat) (hpos : s.pos.toNat < s.rate)
    (hR : s.rate ≤ 200) (hk : s.rate - s.pos.toNat ≤ d.length) :
    topOff d s =
      (absorbBlock (bufferedBytes s ++ d.take (s.rate - s.pos.toNat))
        { s with buf := windowSplice s.buf s.pos.toNat (d.take (s.rate - s.pos.toNat)) },
        d.drop (s.rate - s.pos.toNat)) := by
  have htake : (d.take (s.rate - s.pos.toNat)).length = s.rate - s.pos.toNat := by simp [hk]
  have h := windowSlice_append s.buf s.pos.toNat (d.take (s.rate - s.pos.toNat)) (by omega)
  rw [htake, Nat.add_sub_cancel' (Nat.le_of_lt hpos)] at h
  simp only [topOff, if_pos h0, h]
  rfl

/-- UPDATE's effect when the buffer is topped off and absorbed first (43_incremental.md R223). -/
theorem flushBlocks_of_buffered (d : List Byte) (s : State) (h0 : 0 < s.pos.toNat) (hpos : s.pos.toNat < s.rate)
    (hR : s.rate ≤ 200) (hk : s.rate - s.pos.toNat ≤ d.length) :
    flushBlocks d s =
      { s with
        lanes := spongeAbsorb s.rate s.act.rounds.toNat ((s.pos.toNat + d.length) / s.rate) (bufferedBytes s ++ d) s.lanes,
        permCount := s.permCount + BitVec.ofNat 32 ((s.pos.toNat + d.length) / s.rate),
        buf := windowSplice (windowSplice s.buf s.pos.toNat (d.take (s.rate - s.pos.toNat))) 0
          ((bufferedBytes s ++ d).drop (s.rate * ((s.pos.toNat + d.length) / s.rate))),
        pos := BitVec.ofNat 8 ((s.pos.toNat + d.length) % s.rate) } := by
  have hr0 : 0 < s.rate := by omega
  have hlen : (bufferedBytes s ++ d.take (s.rate - s.pos.toNat)).length = s.rate := by
    rw [List.length_append, bufferedBytes_length (by omega), List.length_take]; omega
  have hq : (s.pos.toNat + d.length) / s.rate = 1 + (d.length - (s.rate - s.pos.toNat)) / s.rate := by
    rw [Nat.add_comm 1, ← Nat.add_div_right _ hr0]; congr 1; omega
  have hr : (s.pos.toNat + d.length) % s.rate = (d.length - (s.rate - s.pos.toNat)) % s.rate := by
    rw [← Nat.add_mod_right (d.length - (s.rate - s.pos.toNat))]; congr 1; omega
  have hcat : bufferedBytes s ++ d =
      (bufferedBytes s ++ d.take (s.rate - s.pos.toNat)) ++ d.drop (s.rate - s.pos.toNat) := by
    rw [List.append_assoc, List.take_append_drop]
  have hdrop : (bufferedBytes s ++ d).drop (s.rate * (1 + (d.length - (s.rate - s.pos.toNat)) / s.rate)) =
      (d.drop (s.rate - s.pos.toNat)).drop (s.rate * ((d.length - (s.rate - s.pos.toNat)) / s.rate)) := by
    rw [hcat, Nat.mul_add, Nat.mul_one, List.drop_append, hlen, Nat.add_sub_cancel_left,
      List.drop_of_length_le (by rw [hlen]; omega), List.nil_append]
  rw [hq, hr, hdrop, hcat, spongeAbsorb_pieces _ _ _ _ _ _ _ (by rw [hlen, Nat.mul_one]), spongeAbsorb_one,
    List.take_of_length_le (Nat.le_of_eq hlen), Nat.add_comm 1, ← count_succ]
  simp only [flushBlocks, topOff_of_buffered d s h0 hpos hR hk]
  rw [keepTail_absorbBlocks s.rate (d.drop (s.rate - s.pos.toNat)) _ ?_ hr0]
  · simp only [absorbBlock_act, absorbBlock_lanes, absorbBlock_permCount, absorbBlock_buf, List.length_drop, State.rate]
    rfl
  · rfl

/-- UPDATE's effect when the buffer is empty (43_incremental.md R223). -/
theorem flushBlocks_of_empty (d : List Byte) (s : State) (hp : s.pos.toNat = 0) (h0 : 0 < s.rate) :
    flushBlocks d s =
      { s with
        lanes := spongeAbsorb s.rate s.act.rounds.toNat (d.length / s.rate) d s.lanes,
        permCount := s.permCount + BitVec.ofNat 32 (d.length / s.rate),
        buf := windowSplice s.buf 0 (d.drop (s.rate * (d.length / s.rate))),
        pos := BitVec.ofNat 8 (d.length % s.rate) } := by
  simp only [flushBlocks, topOff]
  rw [if_neg (by omega)]
  exact keepTail_absorbBlocks s.rate d s rfl h0

/-- Everything UPDATE's effect does (43_incremental.md R223): the full blocks of the buffered bytes followed by the new ones
are absorbed in order, and the rest is buffered. -/
theorem updateEffect_eq (d : List Byte) (s : State) (hpos : s.pos.toNat < s.rate) (hR : s.rate ≤ 200) :
    ∃ buf : Window,
      updateEffect d s =
        { s with
          lanes := spongeAbsorb s.rate s.act.rounds.toNat ((s.pos.toNat + d.length) / s.rate) (bufferedBytes s ++ d) s.lanes,
          permCount := s.permCount + BitVec.ofNat 32 ((s.pos.toNat + d.length) / s.rate),
          buf := buf,
          pos := BitVec.ofNat 8 ((s.pos.toNat + d.length) % s.rate) } ∧
      windowSlice buf 0 ((s.pos.toNat + d.length) % s.rate) =
        (bufferedBytes s ++ d).drop (s.rate * ((s.pos.toNat + d.length) / s.rate)) := by
  have h0 : 0 < s.rate := by omega
  have hb : (bufferedBytes s).length = s.pos.toNat := bufferedBytes_length (by omega)
  have hm := Nat.mod_lt (s.pos.toNat + d.length) h0
  have hl : ((bufferedBytes s ++ d).drop (s.rate * ((s.pos.toNat + d.length) / s.rate))).length =
      (s.pos.toNat + d.length) % s.rate := by
    have := Nat.div_add_mod (s.pos.toNat + d.length) s.rate
    rw [List.length_drop, List.length_append, hb]; omega
  rcases Nat.lt_or_ge (s.pos.toNat + d.length) s.rate with hlt | hge
  · refine ⟨windowSplice s.buf s.pos.toNat d, ?_, ?_⟩
    · rw [updateEffect_of_short d s hlt, Nat.div_eq_of_lt hlt, Nat.mod_eq_of_lt hlt]
      simp [appendToBuffer, spongeAbsorb]
    · rw [Nat.div_eq_of_lt hlt, Nat.mod_eq_of_lt hlt, windowSlice_append _ _ _ (by omega)]
      simp [bufferedBytes]
  · rw [updateEffect, if_neg (by omega)]
    rcases Nat.eq_zero_or_pos s.pos.toNat with hp | hp
    · have hbuf : bufferedBytes s = [] := List.eq_nil_of_length_eq_zero (by rw [hb, hp])
      rw [flushBlocks_of_empty d s hp h0]
      rw [hbuf, hp, Nat.zero_add, List.nil_append] at hl ⊢
      rw [hp, Nat.zero_add] at hm
      exact ⟨_, rfl, by rw [← hl, windowSlice_windowSplice_zero _ _ (by rw [hl]; omega)]⟩
    · rw [flushBlocks_of_buffered d s hp hpos hR (by omega)]
      exact ⟨_, rfl, by rw [← hl, windowSlice_windowSplice_zero _ _ (by rw [hl]; omega)]⟩

/-! ### FINALIZE -/

/-- Everything FINALIZE's effect does (43_incremental.md R224). -/
theorem finalizeEffect_eq (s : State) (h0 : 0 < s.rate) (hpos : s.pos.toNat ≤ 200) (hd : s.act.digest.toNat ≤ 200) :
    ∃ dout : Window,
      finalizeEffect s =
        { s with
          lanes := permuteTimes s.act.rounds.toNat (s.act.digest.toNat / s.rate)
            (spongeAbsorb s.rate s.act.rounds.toNat (padBlocks s.rate s.pos.toNat s.act.sl.toNat)
              (pad s.rate (bufferedBytes s) s.act.sb s.act.sl.toNat) s.lanes),
          permCount := s.permCount +
            BitVec.ofNat 32 (padBlocks s.rate s.pos.toNat s.act.sl.toNat + s.act.digest.toNat / s.rate),
          dout := dout, pos := 0, phase := .final } ∧
      (∀ k < s.act.digest.toNat, byteAt dout k =
        stateByte (permuteTimes s.act.rounds.toNat (k / s.rate)
          (spongeAbsorb s.rate s.act.rounds.toNat (padBlocks s.rate s.pos.toNat s.act.sl.toNat)
            (pad s.rate (bufferedBytes s) s.act.sb s.act.sl.toNat) s.lanes)) (k % s.rate)) ∧
      (∀ k, s.act.digest.toNat ≤ k → byteAt dout k = byteAt s.dout k) := by
  have hb := bufferedBytes_length hpos
  have hp := padAbsorbOp_eq (bufferedBytes s) s h0
  rw [hb] at hp
  obtain ⟨dout, h1, h2, h3⟩ := squeezeOut_eq s.act.digest.toNat (padAbsorbOp (bufferedBytes s) s)
    (by rw [hp]; exact h0) hd
  refine ⟨dout, ?_, ?_, ?_⟩
  · simp only [finalizeEffect]
    rw [h1, hp]
    simp only [count_add]
  · intro k hk
    rw [h2 k hk, hp]
  · intro k hk
    rw [h3 k hk, hp]

end Sys2Proof.Machine
end

