-- ==== Sys2Proof/Tests/Slice0.lean ====
section
/-! SUPPORT. Small tests. Expected values come from spec/: the tables of 30_encoding.md, the vectors of 95_test_vectors.md
(named in each comment) and hand calculation from the rules named. The second half holds a witness for the hypotheses of
each obligation. -/

namespace Sys2Proof.Tests

-- The tests below are kernel evaluations; one after the other they need half the memory they need side by side.
set_option Elab.async false

open Sys2Proof Sys2Proof.Machine

/-! ### States the tests start from -/

/-- The state a step leaves (the state after reset, where it stops). -/
def after : Result → State
  | .next t => t
  | .fault _ => State.reset
  | .refused _ => State.reset

/-- Descriptors of 30_encoding.md R103 and two custom ones. -/
def sha3_256 : SessionConfig := { capacity := 512, rounds := 24, rate := 136, digest := 32, sb := 0b10, sl := 2 }
def sha3_512 : SessionConfig := { capacity := 1024, rounds := 24, rate := 72, digest := 64, sb := 0b10, sl := 2 }
def shake128 : SessionConfig := { capacity := 256, rounds := 24, rate := 168, digest := 32, sb := 0b1111, sl := 4 }
def noRounds : SessionConfig := { capacity := 512, rounds := 0, rate := 136, digest := 32, sb := 0b10, sl := 2 }
def padOnly (sb : Byte) (sl : BitVec 4) : SessionConfig :=
  { capacity := 0, rounds := 0, rate := 200, digest := 0, sb := sb, sl := sl }

/-- A session with `pos` bytes buffered. -/
def accum (c : SessionConfig) (pos : BitVec 8) : State := { State.reset with act := c, phase := .accum, pos := pos }

/-- A session with a command word in flight. -/
def inFlight (w : Word) : State := { accum sha3_256 0 with busy := true, pending := w, cmdLast := w }

/-- A session in FAULT. -/
def faulted : State := { accum sha3_256 0 with phase := .fault, err := .sequence }

/-- The state after one bus access. -/
def access (a : BusAccess) (s : State) : State := after (hostTurn a s)

/-- The state after the completion of the command in flight. -/
def finish (s : State) : State := after (complete s)

/-- A command written to CMD, and its completion. -/
def issued (w : Word) (s : State) : State := finish (access (.write .bits32 0x00C w) s)

/-- What a read answers. -/
def readback (off : Offset) (s : State) : Response := (busAccess (.read .bits32 off) s).2

/-! ### Well-formedness smoke: each check refuses its ill-formed term -/

theorem test_wellFormed_refuses_variant_6 : (Instr.init 6).wellFormed = false := by decide

theorem test_wellFormed_refuses_variant_15 : (Instr.init 15).wellFormed = false := by decide

theorem test_wellFormed_accepts_variant_5_and_len_255 :
    (Instr.init 5).wellFormed = true ∧ (Instr.update 255).wellFormed = true := by decide

/-! ### Decoding: words written out bit by bit from 30_encoding.md R101 to R104 -/

theorem test_decode_finalize : decode 0b00000000000000000000000000000011 = .ok .finalize := by rfl
theorem test_decode_permute : decode 0b00000000000000000000000000010000 = .ok .permute := by rfl
theorem test_decode_update : decode 0b00000000000000001100100000000010 = .ok (.update 200) := by rfl
theorem test_decode_absorb : decode 0b00000000000000001000100000010001 = .ok (.absorb 136) := by rfl
theorem test_decode_squeeze : decode 0b00000000000000000010000000010010 = .ok (.squeeze 32) := by rfl
theorem test_decode_duplex : decode 0b00000000000000001000100000010011 = .ok (.duplex 136) := by rfl
theorem test_decode_padAbsorb : decode 0b00000000000000000000001100010100 = .ok (.padAbsorb 3) := by rfl
theorem test_decode_init : decode 0b00000000000000000000010100000001 = .ok (.init 5) := by rfl

/-- A LEN over 200 decodes (R102). -/
theorem test_decode_len_255 : decode 0x0000FF02 = .ok (.update 255) := by rfl

/-- R105: an unknown opcode, the lowest reserved bit of each format, and a reserved VARIANT. -/
theorem test_decode_rejects_by_name :
    decode 0x00000000 = .error (.unknownOpcode 0x00) ∧ decode 0x00000015 = .error (.unknownOpcode 0x15) ∧
    decode 0x00000103 = .error (.reservedBits .N) ∧ decode 0x00010002 = .error (.reservedBits .L) ∧
    decode 0x00001101 = .error (.reservedBits .V) ∧ decode 0x00000601 = .error (.reservedVariant 6) := by
  refine ⟨rfl, rfl, rfl, rfl, rfl, rfl⟩

theorem test_encode_words :
    encode (.init 4) = 0x00000401 ∧ encode (.update 3) = 0x00000302 ∧ encode .finalize = 0x00000003 ∧
    encode .permute = 0x00000010 ∧ encode (.absorb 168) = 0x0000A811 ∧ encode (.squeeze 200) = 0x0000C812 ∧
    encode (.duplex 136) = 0x00008813 ∧ encode (.padAbsorb 0) = 0x00000014 := by decide

/-- The first instruction after reset, as the host places it. -/
theorem test_placed_word_runs_first :
    (after (step (State.reset.withFetchWord 32 0x00000301))).act = sha3_512 := by decide +kernel

/-- R108: mnemonics in any case, decimal and hexadecimal counts, a variant by name and by number. -/
theorem test_assemble :
    assemble "INIT SHA3_512".toList = some (.init 3) ∧ assemble "init 4".toList = some (.init 4) ∧
    assemble "PAD_ABSORB 0x20".toList = some (.padAbsorb 32) ∧ assemble "finalize".toList = some .finalize ∧
    assemble "UPDATE".toList = none := by decide +kernel

/-- A host program about to start on a machine. -/
def host (s : State) (schedule : List Bool) : HostRun := { machine := s, schedule := schedule, words := [], bytes := [] }

/-- B3: `LOADDIN "abc"` is one write of 0x00636261 to offset 0x100. -/
theorem test_loadText_abc :
    (asciiBytes "abc".toList).map loadDinTurns = some [wr 0x100 0x00636261] ∧
    asciiBytes [Char.ofNat 233] = none := by decide +kernel

/-- R109: `READOUT 6` reads two words, unpacks them by R61 and keeps six bytes. -/
theorem test_readOut_unpacks :
    (readOut 6 (host { State.reset with dout := Vector.ofFn fun k : Fin 200 => BitVec.ofNat 8 (k.val + 1) } [])).toOption.map
      HostRun.bytes = some [1, 2, 3, 4, 5, 6] := by decide +kernel

/-- R109: `CHECK` ends a program in FAULT, and no other. -/
theorem test_check_ends_a_faulted_program :
    (runLine .check (host faulted [])).toOption = none ∧
    ((runLine .check (host State.reset [])).toOption).isSome = true := by decide +kernel

/-- R109: `WAIT` with two reads before the completion of UPDATE 0 reaches BUSY = 0 (STATUS as B4 says, IRQ masked). -/
theorem test_wait_until_idle :
    (runLine .wait (host (inFlight 0x00000002) [false, false])).toOption.map (fun r => (r.machine.busy, r.machine.response)) =
      some (false, .data 0x00000012) := by decide +kernel

/-- R320: a DIN write after a command with no `WAIT` finds it in flight or completed, as the schedule says; R313's fault in
the first case only. -/
theorem test_completion_between_lines :
    (runLine (.loadDin [1]) (host (inFlight 0x00000002) [false])).toOption.map (fun r => r.machine.err) = some .busyWrite ∧
    (runLine (.loadDin [1]) (host (inFlight 0x00000002) [true])).toOption.map (fun r => (r.machine.err, byteAt r.machine.din 0)) =
      some (.none, 1) := by decide +kernel

/-- R316 with R268 and R270: waiting for DONE in FAULT after clearing it, and for `irq` with `irq_en = 0`, is endless. -/
theorem test_endless_waits :
    (match runByDone waitDone .permute (host faulted [false]) with | .error e => e = .endlessWait | .ok _ => False) ∧
    (match waitIrq (host (inFlight 0x00000002) []) with | .error e => e = .endlessWait | .ok _ => False) := by
  refine ⟨rfl, rfl⟩

/-! ### The permutation -/

/-- P3: the nonzero lanes of two rounds on the zero state. -/
theorem test_two_rounds_of_zero :
    (keccakP Lanes.zero 2).toList =
      [0x8000000000008009, 0x0000100000000800, 0x0000400000008000, 0x0000000080000001, 0x0000500000008800,
       0, 0x0010200000201000, 0, 0x0000200000001000, 0x0010000000200000,
       0x0000000100000002, 0x0000010000000200, 0, 0x0000010100000202, 0,
       0x0800020010000400, 0, 0x0000020000000400, 0x0800000010000000, 0,
       0x0000010000000080, 0, 0x0000010200000084, 0, 0x0000000200000004] := by decide +kernel

/-- P2: one round, through the command. -/
theorem test_permute_one_round :
    let t := after (exec .permute (accum { sha3_256 with rounds := 1 } 0))
    laneAt t.lanes 0 = 0x8000000080008008 ∧ laneAt t.lanes 1 = 0 ∧ t.permCount = 1 := by decide +kernel

/-- F7: a raw command with `pos = 1`. -/
theorem test_permute_mid_block :
    let t := issued 0x00000010 (accum sha3_256 1)
    readback 0x008 t = .data 0x00000236 ∧ t.pos = 1 := by decide +kernel

/-! ### Padding -/

/-- R164: the first padding byte, and both pad bits in one byte. -/
theorem test_first_padding_byte :
    (pad 8 [] 0b10 2).getD 0 0 = 0x06 ∧ (pad 8 [1, 2, 3, 4, 5, 6, 7] 0b10 2).getD 7 0 = 0x86 ∧
    (pad 8 [] 0b1111 4).getD 0 0 = 0x1F ∧ (pad 8 [1, 2, 3, 4, 5, 6, 7] 0b1111 4).getD 7 0 = 0x9F ∧
    (pad 8 [] 0 0).getD 0 0 = 0x01 ∧ (pad 8 [1, 2, 3, 4, 5, 6, 7] 0 0).getD 7 0 = 0x81 := by decide +kernel

/-- R163: suffix length 7 spills into a second block. -/
theorem test_padding_spills : pad 8 [1, 2, 3, 4, 5, 6, 7] 0 7 =
    [1, 2, 3, 4, 5, 6, 7, 0x80, 0, 0, 0, 0, 0, 0, 0, 0x80] := by decide +kernel

/-! ### Commands -/

/-- H9: the mirrors and STATUS after INIT SHA3_512. -/
theorem test_init_sha3_512 :
    let t := issued 0x00000301 State.reset
    readback 0x020 t = .data 0x00180400 ∧ readback 0x024 t = .data 0x02024048 ∧
    readback 0x008 t = .data 0x00000012 := by decide +kernel

/-- F17: two violations, the first check names the fault; F10: ACFG0 still reads 0. -/
theorem test_init_first_violation_wins :
    let t := issued 0x00000001 { State.reset with cfg0 := cfg0OfWord 0x001901F4 }
    readback 0x008 t = .data 0x00000536 ∧ readback 0x020 t = .data 0 := by decide +kernel

/-- H12: 200 bytes at rate 72. -/
theorem test_update_200_at_rate_72 :
    let t := after (exec (.update 200) (accum sha3_512 0))
    t.pos = 56 ∧ t.permCount = 2 := by decide +kernel

/-- F5: LEN 201. -/
theorem test_update_201_faults : readback 0x008 (issued 0x0000C902 (accum sha3_256 0)) = .data 0x00000336 := by
  decide +kernel

/-- H14: digest 0 writes nothing, pads one block and ends the session. -/
theorem test_finalize_digest_0 :
    let t := after (exec .finalize (accum { sha3_256 with digest := 0 } 0))
    t.phase = .final ∧ t.permCount = 1 ∧ byteAt t.dout 0 = 0 := by decide +kernel

/-- F6 and F19: LEN one below the rate, and BAD_LEN before BLOCK_LEN. -/
theorem test_absorb_faults :
    readback 0x008 (issued 0x00008711 (accum sha3_256 0)) = .data 0x00000436 ∧
    readback 0x008 (issued 0x0000FF11 (accum sha3_256 0)) = .data 0x00000336 := by decide +kernel

/-- SP4's counts: a full block of 168 bytes is followed by a permutation, the 32-byte tail is not. -/
theorem test_squeeze_200_at_rate_168 :
    (after (exec (.squeeze 200) (accum shake128 0))).permCount = 1 ∧
    (after (exec (.squeeze 167) (accum shake128 0))).permCount = 0 := by decide +kernel

/-- PD3, with a three-byte message 0xAA: 0x1F after it and 0x80 in byte 199. -/
theorem test_padAbsorb_shake_padding :
    let t := after (exec (.padAbsorb 3) { accum (padOnly 0b1111 4) 0 with din := Vector.replicate 200 0xAA })
    stateByte t.lanes 2 = 0xAA ∧ stateByte t.lanes 3 = 0x1F ∧ stateByte t.lanes 4 = 0 ∧ stateByte t.lanes 199 = 0x80 ∧
    t.permCount = 1 := by decide +kernel

/-- PD6: 199 bytes and suffix length 7 give two blocks, whose last bytes cancel. -/
theorem test_padAbsorb_two_blocks :
    let t := after (exec (.padAbsorb 199) { accum (padOnly 0 7) 0 with din := Vector.replicate 200 0xAA })
    stateByte t.lanes 198 = 0xAA ∧ stateByte t.lanes 199 = 0 ∧ t.permCount = 2 := by decide +kernel

/-! ### Registers, bus, faults and reset -/

/-- B2: reserved bits are dropped; a write to ID is ignored. -/
theorem test_reserved_bits_are_dropped :
    readback 0x018 (access (.write .bits32 0x018 0xFFFFFFFF) State.reset) = .data 0x001F07FF ∧
    readback 0x01C (access (.write .bits32 0x01C 0xFFFFFFFF) State.reset) = .data 0x0FFFFFFF ∧
    readback 0x000 (access (.write .bits32 0x000 0) State.reset) = .data 0x4B454343 := by decide +kernel

/-- B5: a DONE clear in FAULT leaves the interrupt level high. -/
theorem test_fault_holds_irq :
    readback 0x008 (issued 0x00000002 (access (.write .bits32 0x004 0x2) State.reset)) = .data 0x00010236 ∧
    readback 0x008 (access (.write .bits32 0x008 0x2)
      (issued 0x00000002 (access (.write .bits32 0x004 0x2) State.reset))) = .data 0x00010234 := by decide +kernel

/-- B6: STATUS and CMD while PERMUTE is in flight. -/
theorem test_busy_window :
    let s := access (.write .bits32 0x00C 0x00000010) (issued 0x00000101 State.reset)
    readback 0x008 s = .data 0x00000013 ∧ readback 0x00C s = .data 0x00000010 := by decide +kernel

/-- B7: a soft reset while busy. -/
theorem test_soft_reset_while_busy :
    let s := access (.write .bits32 0x004 0x1) (inFlight 0x00000010)
    readback 0x008 s = .data 0 ∧ readback 0x00C s = .data 0 ∧ s.busy = false := by decide +kernel

/-- F20: CMD writes in FAULT are discarded. -/
theorem test_cmd_in_fault_is_discarded :
    let s := access (.write .bits32 0x00C 0x00000101) (issued 0x00000002 State.reset)
    readback 0x008 s = .data 0x00000236 ∧ readback 0x00C s = .data 0x00000002 := by decide +kernel

/-- F21: an overrun; the in-flight FINALIZE is abandoned. -/
theorem test_overrun :
    let s := finish (access (.write .bits32 0x00C 0x00000102) (inFlight 0x00000003))
    readback 0x008 s = .data 0x00000A36 ∧ readback 0x00C s = .data 0x00000003 ∧ s.permCount = 0 := by decide +kernel

/-- F22: a DIN write while busy. -/
theorem test_busy_write :
    let s := finish (access (.write .bits32 0x100 0x11111111) (inFlight 0x00000302))
    readback 0x008 s = .data 0x00000B36 ∧ readback 0x100 s = .data 0 ∧ s.pos = 0 := by decide +kernel

/-- F2, F3 and F4: unknown opcode, reserved VARIANT, reserved bits. -/
theorem test_illegal_words :
    readback 0x008 (issued 0x00000000 State.reset) = .data 0x00000136 ∧
    readback 0x008 (issued 0x00000601 State.reset) = .data 0x00000136 ∧
    readback 0x008 (issued 0x00010003 (accum sha3_256 0)) = .data 0x00000136 := by decide +kernel

/-! ### Witnesses: for each obligation with hypotheses, states and operands that meet them, at the ends of each range -/

theorem valid_sha3_256 : ValidConfig sha3_256 := by constructor <;> decide
theorem valid_sha3_512 : ValidConfig sha3_512 := by constructor <;> decide
theorem valid_noRounds : ValidConfig noRounds := by constructor <;> decide

/-- The largest capacity, digest and suffix. -/
def largest : SessionConfig :=
  { capacity := 1536, rounds := 24, rate := 8, digest := 200, sb := 0x7F, sl := 7 }

theorem valid_largest : ValidConfig largest := by constructor <;> decide
theorem valid_padOnly : ValidConfig (padOnly 0 0) := by constructor <;> decide

theorem rawReady_sha3_256 : RawReady (accum sha3_256 0) := ⟨rfl, valid_sha3_256, rfl⟩
theorem rawReady_largest : RawReady (accum largest 0) := ⟨rfl, valid_largest, rfl⟩
theorem rawReady_padOnly : RawReady (accum (padOnly 0 0) 0) := ⟨rfl, valid_padOnly, rfl⟩

/-- An empty buffer, and a buffer one byte short of a block. -/
theorem accumulating_empty : Accumulating (accum sha3_256 0) := ⟨rfl, valid_sha3_256, by decide⟩
theorem accumulating_one_short : Accumulating (accum sha3_256 135) := ⟨rfl, valid_sha3_256, by decide⟩
theorem accumulating_largest : Accumulating (accum largest 7) := ⟨rfl, valid_largest, by decide⟩

theorem witness_ReservedWordsRaiseIllegalCmd :
    (accum sha3_256 0).phase ≠ .fault ∧
    (BitVec.extractLsb' 0 8 (0x00000000 : Word)) ∉ ([0x01, 0x02, 0x03, 0x10, 0x11, 0x12, 0x13, 0x14] : List Byte) ∧
    (BitVec.extractLsb' 0 8 (0x000000FF : Word)) ∉ ([0x01, 0x02, 0x03, 0x10, 0x11, 0x12, 0x13, 0x14] : List Byte) ∧
    (BitVec.extractLsb' 0 8 (0x00000103 : Word) ∈ ([0x03, 0x10] : List Byte) ∧ BitVec.extractLsb' 8 24 (0x00000103 : Word) ≠ 0) ∧
    (BitVec.extractLsb' 0 8 (0x80000010 : Word) ∈ ([0x03, 0x10] : List Byte) ∧ BitVec.extractLsb' 8 24 (0x80000010 : Word) ≠ 0) ∧
    (BitVec.extractLsb' 0 8 (0x00010002 : Word) ∈ ([0x02, 0x11, 0x12, 0x13, 0x14] : List Byte) ∧
      BitVec.extractLsb' 16 16 (0x00010002 : Word) ≠ 0) ∧
    (BitVec.extractLsb' 0 8 (0x00001101 : Word) = 0x01 ∧ BitVec.extractLsb' 12 20 (0x00001101 : Word) ≠ 0) ∧
    (BitVec.extractLsb' 0 8 (0x00000601 : Word) = 0x01 ∧ 6 ≤ (BitVec.extractLsb' 8 4 (0x00000601 : Word)).toNat) := by decide

theorem witness_StepRunsTheDecodedCommand :
    (inFlight 0x00000010).rstN = true ∧ (inFlight 0x00000010).busy = true ∧
    decode (inFlight 0x00000010).pending = .ok .permute ∧ (inFlight 0x00000010).inputs = [] ∧
    ({ inFlight 0x00000010 with inputs := [.engine] } : State).inputs = .engine :: [] := by
  refine ⟨rfl, rfl, rfl, rfl, rfl⟩

theorem witness_FetchedWordIsCompletedNext :
    decode 0x00000502 = .ok (.update 5) ∧ State.reset.rstN = true ∧ State.reset.busy = false ∧
    State.reset.phase ≠ .fault ∧ (Instr.init 5).wellFormed = true ∧
    ({ State.reset with inputs := [issue (.init 5), .engine] } : State).inputs =
      .access (.write .bits32 0x00C (encode (.init 5))) :: .engine :: [] := by
  refine ⟨rfl, rfl, rfl, by decide, rfl, rfl⟩

theorem witness_CommandInFaultIsAbandoned : faulted.phase = .fault := by decide

theorem witness_FaultIsPrecise :
    State.reset.phase ≠ .fault ∧ exec (.update 0) State.reset = .next (after (exec (.update 0) State.reset)) ∧
    (after (exec (.update 0) State.reset)).phase = .fault := by
  refine ⟨by decide, rfl, by decide +kernel⟩

/-- Each of the eight commands completes without a fault from a state the table allows. -/
theorem witness_PhaseFollowsTheTable :
    (∀ i ∈ [Instr.init 1, .update 200, .finalize, .permute, .absorb 136, .squeeze 200, .duplex 136, .padAbsorb 200],
      (after (exec i (accum sha3_256 0))).phase ≠ .fault) ∧
    ∀ i, exec i (accum sha3_256 0) = .next (after (exec i (accum sha3_256 0))) := by
  refine ⟨by decide +kernel, ?_⟩
  intro i
  cases i <;> rfl

/-- IDLE and FINAL; a raw command with `pos` 1 and 135; LEN 201 with and without bytes buffered; LEN just off the rate
and at the window's size. -/
theorem witness_FirstFailedCheckNamesTheFault :
    (∀ v, Instr.update 0 ≠ .init v) ∧ State.reset.phase = .idle ∧
    ({ accum sha3_256 0 with phase := .final } : State).phase = .final ∧
    (accum sha3_256 1).phase = .accum ∧ Instr.permute.isRaw = true ∧ (accum sha3_256 1).pos ≠ 0 ∧
    (accum sha3_256 135).pos ≠ 0 ∧
    (Instr.update 201).format = .L ∧ 200 < (Instr.update 201).operand.toNat ∧ (Instr.update 201).isRaw = false ∧
    (Instr.squeeze 201).format = .L ∧ 200 < (Instr.squeeze 201).operand.toNat ∧ (accum sha3_256 0).pos = 0 ∧
    (135 : BitVec 8).toNat ≤ 200 ∧ 135 ≠ (accum sha3_256 0).act.rate ∧
    (200 : BitVec 8).toNat ≤ 200 ∧ 200 ≠ (accum sha3_256 0).act.rate := by
  refine ⟨by simp, ?_⟩
  decide

/-- Each clause's first failing value (F10 to F16), each passing the clauses before it. -/
theorem witness_InitChecksConfigurationInOrder :
    let rounds25 : State := { State.reset with cfg0 := { capacity := 512, rounds := 25 } }
    let capacity500 : State := { State.reset with cfg0 := { capacity := 500, rounds := 24 } }
    let capacity1600 : State := { State.reset with cfg0 := { capacity := 1600, rounds := 24 } }
    let rate135 : State := { State.reset with cfg1 := { rate := 135, digest := 32, sb := 2, sl := 2 } }
    let digest201 : State := { State.reset with cfg1 := { rate := 136, digest := 201, sb := 2, sl := 2 } }
    let length8 : State := { State.reset with cfg1 := { rate := 136, digest := 200, sb := 2, sl := 8 } }
    let suffix4 : State := { State.reset with cfg1 := { rate := 136, digest := 200, sb := 4, sl := 2 } }
    rounds25.phase ≠ .fault ∧ rounds25.cfg0.rounds.toNat > 24 ∧
    capacity500.cfg0.rounds.toNat ≤ 24 ∧ capacity500.cfg0.capacity.toNat % 64 ≠ 0 ∧
    capacity1600.cfg0.rounds.toNat ≤ 24 ∧ capacity1600.cfg0.capacity.toNat ≥ 1600 ∧
    rate135.cfg0.capacity.toNat % 64 = 0 ∧ rate135.cfg0.capacity.toNat < 1600 ∧
    rate135.cfg1.rate.toNat ≠ (1600 - rate135.cfg0.capacity.toNat) / 8 ∧
    digest201.cfg1.rate.toNat = (1600 - digest201.cfg0.capacity.toNat) / 8 ∧ digest201.cfg1.digest.toNat > 200 ∧
    length8.cfg1.digest.toNat ≤ 200 ∧ length8.cfg1.sl.toNat > 7 ∧
    suffix4.cfg1.sl.toNat ≤ 7 ∧ suffix4.cfg1.sb.toNat ≥ 2 ^ suffix4.cfg1.sl.toNat := by decide

/-- FAULT kept by the engine's turn, left by the pin and left by SRST. -/
theorem witness_OnlyResetLeavesFault :
    faulted.phase = .fault ∧ step faulted = .next faulted ∧
    step { faulted with inputs := [.assertReset] } = .next (assertResetPin faulted) ∧
    step { faulted with inputs := [wr 0x004 1] } = .next { resetEngine faulted with response := .written } := by
  refine ⟨by decide, rfl, rfl, rfl⟩

theorem witness_IdleEngineKeepsItsState :
    State.reset.busy = false ∧ State.reset.inputs = [] ∧
    ({ State.reset with inputs := [.engine] } : State).inputs = .engine :: [] := by
  refine ⟨rfl, rfl, rfl⟩

theorem witness_OnlyACmdWriteSetsBusy :
    let s : State := { State.reset with inputs := [wr 0x00C 0x00000101] }
    s.busy = false ∧ step s = .next (after (step s)) ∧ (after (step s)).busy = true := by
  refine ⟨rfl, rfl, rfl⟩

theorem witness_InterruptLevelFollowsDoneAndFault :
    exec (.update 0) State.reset = .next (after (exec (.update 0) State.reset)) ∧ State.reset.rstN = true ∧
    (0x2 : Word).getLsbD 1 = true ∧ (0x0 : Word).getLsbD 1 = false := by
  refine ⟨rfl, rfl, by decide, by decide⟩

/-- The first and the last preset of the statement's list. -/
theorem witness_InitPresetStartsSession :
    let presets : List (BitVec 4 × SessionConfig) :=
      [((1 : BitVec 4), ({ capacity := 512, rounds := 24, rate := 136, digest := 32, sb := 0b10, sl := 2 } : SessionConfig)),
       (2, { capacity := 768, rounds := 24, rate := 104, digest := 48, sb := 0b10, sl := 2 }),
       (3, { capacity := 1024, rounds := 24, rate := 72, digest := 64, sb := 0b10, sl := 2 }),
       (4, { capacity := 256, rounds := 24, rate := 168, digest := 32, sb := 0b1111, sl := 4 }),
       (5, { capacity := 512, rounds := 24, rate := 136, digest := 64, sb := 0b1111, sl := 4 })]
    State.reset.phase ≠ .fault ∧ (1, sha3_256) ∈ presets ∧
    (5, { capacity := 512, rounds := 24, rate := 136, digest := 64, sb := 0b1111, sl := 4 }) ∈ presets := by decide

/-- The reset configuration, the smallest and the largest. -/
theorem witness_InitCustomStartsSession :
    State.reset.phase ≠ .fault ∧ ValidConfig (customConfig State.reset) ∧
    ValidConfig (customConfig { State.reset with
      cfg0 := { capacity := 0, rounds := 0 }, cfg1 := { rate := 200, digest := 0, sb := 0, sl := 0 } }) ∧
    ValidConfig (customConfig { State.reset with
      cfg0 := { capacity := 1536, rounds := 24 }, cfg1 := { rate := 8, digest := 200, sb := 0x7F, sl := 7 } }) := by
  refine ⟨by decide, ?_, ?_, ?_⟩ <;> constructor <;> decide

theorem witness_ShortUpdateOnlyBuffers :
    (accum sha3_256 0).phase = .accum ∧ (135 : BitVec 8).toNat ≤ 200 ∧
    (accum sha3_256 0).pos.toNat + (135 : BitVec 8).toNat < (accum sha3_256 0).act.rate.toNat ∧
    (accum sha3_256 135).pos.toNat + (0 : BitVec 8).toNat < (accum sha3_256 135).act.rate.toNat := by decide

/-- UPDATE of 0, 1 and 200 bytes, from an empty buffer and one byte short of a block; FINALIZE from both. -/
theorem witness_UpdateAbsorbsEveryFullBlock :
    Accumulating (accum sha3_256 0) ∧ Accumulating (accum sha3_256 135) ∧ Accumulating (accum largest 7) ∧
    (0 : BitVec 8).toNat ≤ 200 ∧ (1 : BitVec 8).toNat ≤ 200 ∧ (200 : BitVec 8).toNat ≤ 200 :=
  ⟨accumulating_empty, accumulating_one_short, accumulating_largest, by decide, by decide, by decide⟩

theorem witness_FinalizeWritesTheDigest : Accumulating (accum sha3_256 135) ∧ Accumulating (accum largest 7) :=
  ⟨accumulating_one_short, accumulating_largest⟩

/-- L1-3: "a", "b", "c" against "", "abc", "". -/
theorem witness_DigestDoesNotDependOnChunking :
    Accumulating (accum sha3_256 0) ∧ (∀ x ∈ [[0x61], [0x62], [(0x63 : Byte)]], x.length ≤ 200) ∧
    (∀ y ∈ [[], [0x61, 0x62, (0x63 : Byte)], []], y.length ≤ 200) ∧
    [[0x61], [0x62], [(0x63 : Byte)]].flatten = [[], [0x61, 0x62, 0x63], []].flatten :=
  ⟨accumulating_empty, by decide, by decide, by decide⟩

theorem witness_SessionComputesTheHash :
    (accum sha3_256 0).phase = .accum ∧ ValidConfig (accum sha3_256 0).act ∧ (accum sha3_256 0).lanes = Lanes.zero ∧
    (accum sha3_256 0).pos = 0 ∧ (accum sha3_256 0).permCount = 0 ∧
    (∀ x ∈ [List.replicate 200 (0 : Byte), []], x.length ≤ 200) :=
  ⟨rfl, valid_sha3_256, rfl, rfl, rfl, by decide +kernel⟩

theorem witness_PermuteAppliesThePermutationOnce :
    (accum noRounds 0).phase = .accum ∧ (accum noRounds 0).pos = 0 ∧ (accum noRounds 0).act.rounds = 0 := by decide

theorem witness_RoundsComeFromTheHighEnd : 0 < 24 ∧ 23 < 24 := by decide

/-- For RhoPiMovesEveryLane and ThetaChiIotaByCoordinates: the coordinates of lanes 0 and 24. -/
theorem witness_coordinates : (0 < 5 ∧ 0 * 5 + 0 = 0) ∧ (4 < 5 ∧ 4 * 5 + 4 = 24) := by decide

/-- For PadLengthIsTheSmallestMultiple and PadIsMessageSuffixAndTenStarOne: the smallest block with the longest suffix, the
message empty and a whole block. -/
theorem witness_padding_operands :
    8 ≤ 8 ∧ 7 ≤ 7 ∧ (0x7F : Byte).toNat < 2 ^ 7 ∧ ([] : List Byte).length % 8 = 0 ∧
    (List.replicate 8 (0xAA : Byte)).length % 8 = 0 := by decide

theorem witness_PadBlockCount :
    (List.replicate 6 (0xAA : Byte)).length % 8 ≤ 8 - 2 ∧
    ((List.replicate 7 (0xAA : Byte)).length % 8 = 8 - 1 ∧ 6 ≤ 6) ∧
    ((List.replicate 7 (0xAA : Byte)).length % 8 = 8 - 1 ∧ 7 = 7) ∧
    ((List.replicate 7 (0xAA : Byte)).length < 8 ∧ (2 = 2 ∨ 2 = 4)) := by decide

/-- 198 bytes, 199 bytes with suffix length 6, and 199 bytes with suffix length 7. -/
theorem witness_PadIsVisibleThroughTheStateWindow :
    RawReady (accum (padOnly 0x3F 6) 0) ∧ RawReady (accum (padOnly 0x7F 7) 0) ∧
    (accum (padOnly 0x3F 6) 0).act.rounds = 0 ∧ (accum (padOnly 0x3F 6) 0).act.capacity = 0 ∧
    (accum (padOnly 0x3F 6) 0).lanes = Lanes.zero ∧ (198 : BitVec 8).toNat ≤ 198 ∧
    ((199 : BitVec 8).toNat = 199 ∧ (accum (padOnly 0x3F 6) 0).act.sl.toNat ≤ 6) ∧
    (accum (padOnly 0x7F 7) 0).act.sl = 7 := by
  refine ⟨⟨rfl, by constructor <;> decide, rfl⟩, ⟨rfl, by constructor <;> decide, rfl⟩, ?_⟩
  refine ⟨rfl, rfl, rfl, by decide, by decide, rfl⟩

/-- For AbsorbXorsTheBlockAndPermutes, SqueezePermutesAfterEveryFullBlock, DuplexOutputsTheStateBeforeTheInput,
PadAbsorbAbsorbsThePaddedMessage, AbsorbAndUpdateOfOneBlockAgree and RawAndIncrementalDigestsAgree: a preset, the smallest
and the largest rate, and LEN at both ends. -/
theorem witness_raw_commands :
    RawReady (accum sha3_256 0) ∧ RawReady (accum largest 0) ∧ RawReady (accum (padOnly 0 0) 0) ∧
    (0 : BitVec 8).toNat ≤ 200 ∧ (200 : BitVec 8).toNat ≤ 200 :=
  ⟨rawReady_sha3_256, rawReady_largest, rawReady_padOnly, by decide, by decide⟩

/-- A whole block then a part of the next, and an empty first part. -/
theorem witness_SqueezeContinuesOnBlockBoundaries :
    RawReady (accum sha3_256 0) ∧
    ((136 : BitVec 8).toNat % (accum sha3_256 0).act.rate.toNat = 0 ∧
      (200 : BitVec 8).toNat = (136 : BitVec 8).toNat + (64 : BitVec 8).toNat ∧ (200 : BitVec 8).toNat ≤ 200) ∧
    (0 : BitVec 8).toNat % (accum sha3_256 0).act.rate.toNat = 0 :=
  ⟨rawReady_sha3_256, by decide, by decide⟩

theorem witness_ConfigRegistersMatterOnlyToCustomInit : Instr.init 1 ≠ .init 0 ∧ Instr.finalize ≠ .init 0 := by decide

theorem witness_UnservedAccessHasNoEffect :
    AccessSize.bits8 ≠ .bits32 ∧ AccessSize.bits64 ≠ .bits32 ∧ (0x001 : Offset).toNat % 4 ≠ 0 ∧
    (0xFFF : Offset).toNat % 4 ≠ 0 ∧ State.reset.rstN = true := by decide

theorem witness_ReadsHaveNoSideEffect :
    State.reset.rstN = true ∧ (0x000 : Offset).toNat % 4 = 0 ∧ (0xFFC : Offset).toNat % 4 = 0 := by decide

/-- The ends of the four reserved ranges and of the read-only ones. -/
theorem witness_ReservedAndReadOnlyWritesAreIgnored :
    State.reset.rstN = true ∧
    (∀ o ∈ [0x028, 0x0FC, 0x1C8, 0x1FC, 0x2C8, 0x2FC, 0x3C8, (0xFFC : Nat)], (BitVec.ofNat 12 o).toNat % 4 = 0 ∧
      ((0x028 ≤ o ∧ o ≤ 0x0FC) ∨ (0x1C8 ≤ o ∧ o ≤ 0x1FC) ∨ (0x2C8 ≤ o ∧ o ≤ 0x2FC) ∨ 0x3C8 ≤ o)) ∧
    (∀ o ∈ [0x000, 0x010, 0x014, 0x020, 0x024, 0x200, 0x2C4, 0x300, (0x3C4 : Nat)],
      (BitVec.ofNat 12 o).toNat % 4 = 0) := by decide

/-- For DinWriteStoresFourBytes, WindowReadsPackFourBytes and StateWindowReadsTheLanes: the first and the last word. -/
theorem witness_window_words :
    State.reset.rstN = true ∧ State.reset.busy = false ∧ 0 < 50 ∧ 49 < 50 ∧ 3 < 4 ∧ 24 < 25 := by decide

/-- For ConfigWriteDropsReservedBits, StatusReadsItsFields and MirrorRegistersReadTheSession. -/
theorem witness_registers_idle : State.reset.rstN = true ∧ State.reset.busy = false := by decide

/-- In FAULT, busy, and neither. -/
theorem witness_CmdWriteIsAcceptedDiscardedOrOverrun :
    faulted.rstN = true ∧ faulted.phase = .fault ∧
    (inFlight 3).rstN = true ∧ (inFlight 3).phase ≠ .fault ∧ (inFlight 3).busy = true ∧
    State.reset.phase ≠ .fault ∧ State.reset.busy = false := by decide

theorem witness_OverrunLosesTheCommandInFlight :
    let s : State := { inFlight 3 with inputs := [wr 0x00C 0x00000102, .engine] }
    s.rstN = true ∧ s.phase ≠ .fault ∧ s.busy = true ∧
    s.inputs = .access (.write .bits32 0x00C 0x00000102) :: .engine :: [] := by
  refine ⟨rfl, by decide, rfl, rfl⟩

/-- Both ends of DIN, CFG0 and CFG1; before and after the fault. -/
theorem witness_BusyInputWriteIsDiscardedAndFaults :
    (inFlight 3).rstN = true ∧ (inFlight 3).busy = true ∧ (inFlight 3).phase ≠ .fault ∧
    ({ inFlight 3 with phase := .fault, err := .busyWrite } : State).phase = .fault ∧
    ∀ o ∈ [0x018, 0x01C, 0x100, (0x1C4 : Nat)], (BitVec.ofNat 12 o).toNat = o ∧ o % 4 = 0 := by decide

theorem witness_BusyReadsAreOpenOrExact :
    (inFlight 3).busy = true ∧
    ∀ o ∈ [0x010, 0x014, 0x020, 0x024, 0x200, 0x2C4, 0x300, 0x3C4, 0x000, 0x004, 0x008, 0x00C, 0x018, 0x01C, 0x100,
        (0x1C4 : Nat)],
      (BitVec.ofNat 12 o).toNat = o ∧ o % 4 = 0 := by decide

/-- For ControlWritesChangeOneFlag and SoftResetEqualsReset: SRST = 0 with IRQ_EN both ways, SRST = 1, and SRST = 1 with every
other bit. -/
theorem witness_control_words :
    State.reset.rstN = true ∧ (0x0 : Word).getLsbD 0 = false ∧ (0x2 : Word).getLsbD 0 = false ∧
    (0x1 : Word).getLsbD 0 = true ∧ (0xFFFFFFFF : Word).getLsbD 0 = true := by decide

theorem witness_HardwareResetAbandonsTheCommand :
    ({ inFlight 3 with inputs := [.assertReset, .engine, .releaseReset, .engine] } : State).inputs =
      .assertReset :: .engine :: .releaseReset :: .engine :: [] ∧
    ({ State.reset with rstN := false, inputs := [rd 0x000] } : State).rstN = false ∧
    ({ State.reset with rstN := false, inputs := [rd 0x000] } : State).inputs =
      .access (.read .bits32 0x000) :: [] := by
  refine ⟨rfl, rfl, rfl⟩

/-- The invariant holds mid-block, with a command in flight and in FAULT, not only after reset. -/
theorem inv_mid_block : (accum sha3_256 135).Inv where
  err_none_iff := by decide
  pending_busy := by decide
  pending_idle := by decide
  idle_zero := fun h => by cases h
  accum_ok := fun _ => ⟨valid_sha3_256, by decide⟩
  final_ok := fun h => by cases h
  fault_ok := fun h => by cases h
  held_in_reset := fun h => by cases h

theorem inv_in_flight : (inFlight 3).Inv where
  err_none_iff := by decide
  pending_busy := by decide
  pending_idle := by decide
  idle_zero := fun h => by cases h
  accum_ok := fun _ => ⟨valid_sha3_256, by decide⟩
  final_ok := fun h => by cases h
  fault_ok := fun h => by cases h
  held_in_reset := fun h => by cases h

theorem inv_faulted : faulted.Inv where
  err_none_iff := by decide
  pending_busy := by decide
  pending_idle := by decide
  idle_zero := fun h => by cases h
  accum_ok := fun h => by cases h
  final_ok := fun h => by cases h
  fault_ok := fun _ => .inr ⟨valid_sha3_256, by decide⟩
  held_in_reset := fun h => by cases h

theorem witness_EveryStepKeepsTheInvariant :
    (inFlight 3).Inv ∧ step (inFlight 3) = .next (after (step (inFlight 3))) ∧
    (after (step (inFlight 3))).phase = .final :=
  ⟨inv_in_flight, rfl, by decide +kernel⟩

/-- Two buffers that differ only from `pos` on. -/
theorem witness_StaleBufferBytesAreNeverRead :
    (accum sha3_256 135).Inv ∧
    (∀ k < (accum sha3_256 135).pos.toNat,
      byteAt (windowSplice Window.zero 135 [0xFF]) k = byteAt (accum sha3_256 135).buf k) ∧
    byteAt (windowSplice Window.zero 135 [0xFF]) 135 ≠ byteAt (accum sha3_256 135).buf 135 := by
  refine ⟨inv_mid_block, ?_, by decide +kernel⟩
  intro k hk
  have hk : k < 135 := hk
  rw [byteAt_windowSplice _ _ _ _ (by omega), if_neg (by omega)]
  rfl

/-! ### The slower tests, last -/

/-- One step of the generator of R135: the polynomial x^8 + x^6 + x^5 + x^4 + 1. -/
def lfsrStep (r : BitVec 9) : BitVec 9 := if r.getLsbD 7 then (r <<< 1) ^^^ 0x171 else r <<< 1

/-- Its output bits `rc(0)`, `rc(1)`, ... -/
def lfsrBits : Nat → BitVec 9 → List Bool
  | 0, _ => []
  | n + 1, r => r.getLsbD 0 :: lfsrBits n (lfsrStep r)

/-- R135: bit `2^j - 1` of `RC[t]` is `rc(j + 7t)`, and every other bit is 0. -/
theorem test_round_constants_by_lfsr :
    ∀ t < 24, ∀ k < 64, (roundConstant t).getLsbD k =
      ([0, 1, 3, 7, 15, 31, 63].idxOf k < 7 &&
        (lfsrBits 168 1).getD ([0, 1, 3, 7, 15, 31, 63].idxOf k + 7 * t) false) := by decide +kernel

/-- B3: byte packing of DIN, at the first word and at the last. -/
theorem test_din_packing :
    let s := access (.write .bits32 0x1C4 0x04030201) (access (.write .bits32 0x100 0x00636261) State.reset)
    byteAt s.din 0 = 0x61 ∧ byteAt s.din 2 = 0x63 ∧ byteAt s.din 199 = 0x04 ∧ readback 0x1C8 s = .data 0 := by
  decide +kernel

/-- P6, shortened: with no rounds the state after ABSORB is DIN XORed into the first 136 bytes. -/
theorem test_absorb_without_rounds :
    let t := after (exec (.absorb 136)
      { accum noRounds 0 with din := Vector.ofFn fun k : Fin 200 => BitVec.ofNat 8 (3 * k.val) })
    (∀ k < 136, stateByte t.lanes k = BitVec.ofNat 8 (3 * k)) ∧ stateByte t.lanes 136 = 0 ∧ t.permCount = 1 := by
  decide +kernel

/-- R186 by hand, with no rounds: the output is the state before the input. -/
theorem test_duplex_outputs_before_input :
    let t := after (exec (.duplex 136)
      { accum noRounds 0 with lanes := Vector.replicate 25 0x11, din := Vector.replicate 200 0x0F })
    byteAt t.dout 0 = 0x11 ∧ stateByte t.lanes 0 = 0x1E ∧ byteAt t.dout 136 = 0 ∧ stateByte t.lanes 136 = 0x11 := by
  decide +kernel

/-- R182 by hand, with no rounds and rate 136: byte 136 of the output is byte 0 of the state again. -/
theorem test_squeeze_wraps_to_the_next_block :
    let t := after (exec (.squeeze 137) { accum noRounds 0 with lanes := Vector.replicate 25 0x0807060504030201 })
    byteAt t.dout 135 = 8 ∧ byteAt t.dout 136 = 1 ∧ byteAt t.dout 137 = 0 := by decide +kernel

/-- L1-1 and PROG1: SHA3-256("abc"), the source's own vector. -/
theorem test_finalize_sha3_256_abc :
    (after (exec .finalize { accum sha3_256 3 with buf := windowSplice Window.zero 0 [0x61, 0x62, 0x63] })).dout.toList.take 32 =
      [0x3a, 0x98, 0x5d, 0xa7, 0x4f, 0xe2, 0x25, 0xb2, 0x04, 0x5c, 0x17, 0x2d, 0x6b, 0xd3, 0x90, 0xbd,
       0x85, 0x5f, 0x08, 0x6e, 0x3e, 0x9d, 0x52, 0x5b, 0x46, 0xbf, 0xe2, 0x45, 0x11, 0x43, 0x15, 0x32] := by
  decide +kernel

end Sys2Proof.Tests
end

section
/-! SUPPORT. What a passed check says, command by command (60_exceptions.md R261). -/

namespace Sys2Proof.Machine

/-- The raw commands' check passes only in ACCUM with an empty buffer (60_exceptions.md R261). -/
theorem checkRaw_eq_none {s : State} (h : s.phase ≠ .fault) (hc : checkRaw s = none) :
    s.phase = .accum ∧ s.pos = 0 := by
  have hp := checkPhase_eq_none h ((Option.orElse_eq_none _ _).mp hc).1
  refine ⟨hp, ?_⟩
  by_contra hpos
  rw [checkRaw_of_accum hp, if_pos hpos] at hc
  cases hc

/-- A raw command passes its checks only in ACCUM with an empty buffer (10_state.md R24). -/
theorem ready_of_check_raw {i : Instr} {s : State} (hi : i.isRaw = true) (h : s.phase ≠ .fault)
    (hc : check i s = none) : s.phase = .accum ∧ s.pos = 0 := by
  cases i with
  | init v => cases hi
  | update len => cases hi
  | finalize => cases hi
  | permute => exact checkRaw_eq_none h hc
  | absorb len => exact checkRaw_eq_none h ((Option.orElse_eq_none _ _).mp hc).1
  | squeeze len => exact checkRaw_eq_none h ((Option.orElse_eq_none _ _).mp hc).1
  | duplex len => exact checkRaw_eq_none h ((Option.orElse_eq_none _ _).mp hc).1
  | padAbsorb len => exact checkRaw_eq_none h ((Option.orElse_eq_none _ _).mp hc).1

/-- Every command but INIT passes its checks only in ACCUM (10_state.md R24). -/
theorem accum_of_check {i : Instr} {s : State} (hi : ∀ v, i ≠ .init v) (h : s.phase ≠ .fault)
    (hc : check i s = none) : s.phase = .accum := by
  cases i with
  | init v => exact absurd rfl (hi v)
  | update len => exact checkPhase_eq_none h ((Option.orElse_eq_none _ _).mp hc).1
  | finalize => exact checkPhase_eq_none h hc
  | permute => exact (ready_of_check_raw rfl h hc).1
  | absorb len => exact (ready_of_check_raw rfl h hc).1
  | squeeze len => exact (ready_of_check_raw rfl h hc).1
  | duplex len => exact (ready_of_check_raw rfl h hc).1
  | padAbsorb len => exact (ready_of_check_raw rfl h hc).1

/-- INIT passes its checks exactly when its VARIANT selects a valid configuration (60_exceptions.md R263). -/
theorem check_init_eq_none_iff (v : BitVec 4) (s : State) :
    check (.init v) s = none ↔ ∃ c, variantConfig v s = some c ∧ ValidConfig c := by
  cases hv : variantConfig v s with
  | none => simp [check, hv]
  | some c => simp [check, hv, checkConfig_eq_none_iff]

theorem initEffect_of_some {v : BitVec 4} {s : State} {c : SessionConfig} (h : variantConfig v s = some c) :
    initEffect v s = startSession c s := by
  simp [initEffect, h]

/-! ### What the raw commands keep -/

/-- The block loop keeps `pos` (42_sponge.md R180). -/
theorem absorbBlocks_pos (fuel : Nat) (bs : List Byte) (s : State) : (absorbBlocks fuel bs s).1.pos = s.pos := by
  induction fuel generalizing bs s with
  | zero => rfl
  | succ fuel ih =>
    rw [absorbBlocks]
    split
    · exact ih _ _
    · rfl

/-- The squeeze loop keeps `pos` (42_sponge.md R182). -/
theorem squeezeFrom_pos (n fuel off : Nat) (s : State) : (squeezeFrom n fuel off s).pos = s.pos := by
  induction fuel generalizing off s with
  | zero => simp only [squeezeFrom]
  | succ fuel ih =>
    rw [squeezeFrom]
    split
    · exact ih _ _
    · rfl

/-- The raw commands keep the phase, the configuration and `pos` (10_state.md R24, R26, R27). -/
theorem effectOf_session_of_raw {i : Instr} (hi : i.isRaw = true) (s : State) :
    (effectOf i s).phase = s.phase ∧ (effectOf i s).act = s.act ∧ (effectOf i s).pos = s.pos := by
  cases i with
  | init v => cases hi
  | update len => cases hi
  | finalize => cases hi
  | permute => exact ⟨rfl, rfl, rfl⟩
  | absorb len => exact ⟨rfl, rfl, rfl⟩
  | squeeze len =>
    obtain ⟨-, hphase, hact⟩ := kept_squeezeOut (lenBytes len) s
    exact ⟨hphase, hact, squeezeFrom_pos _ _ _ s⟩
  | duplex len => exact ⟨rfl, rfl, rfl⟩
  | padAbsorb len =>
    obtain ⟨-, hphase, hact⟩ := kept_padAbsorbOp (dinBytes (lenBytes len) s) s
    exact ⟨hphase, hact, absorbBlocks_pos _ _ s⟩

end Sys2Proof.Machine
end

section
/-! SUPPORT. The invariant, operation by operation. -/

namespace Sys2Proof.Machine

/-- The fields the invariant speaks of while `rst_n` is released. -/
def State.invView (s : State) : Phase × Cause × Bool × Word × Word × SessionConfig × BitVec 8 × Lanes × Word :=
  (s.phase, s.err, s.busy, s.pending, s.cmdLast, s.act, s.pos, s.lanes, s.permCount)

/-- A state inherits the invariant from one with the same view, apart from what holds during reset. -/
theorem State.Inv.of_view_eq {s t : State} (hs : s.Inv) (hv : t.invView = s.invView)
    (hr : t.rstN = false → t = resetEngine t) : t.Inv := by
  simp only [State.invView, Prod.mk.injEq] at hv
  obtain ⟨hphase, herr, hbusy, hpending, hlast, hact, hpos, hlanes, hcount⟩ := hv
  constructor
  · rw [herr, hphase]; exact hs.err_none_iff
  · rw [hbusy, hpending, hlast]; exact hs.pending_busy
  · rw [hbusy, hpending]; exact hs.pending_idle
  · rw [hphase, hact, hpos, hlanes, hcount]; exact hs.idle_zero
  · rw [hphase, hact, hpos]; exact hs.accum_ok
  · rw [hphase, hact, hpos]; exact hs.final_ok
  · rw [hphase, hact, hpos]; exact hs.fault_ok
  · exact hr

/-- The reset values meet the invariant, whatever the interface fields hold (10_state.md R44). -/
theorem inv_resetEngine (s : State) : (resetEngine s).Inv where
  err_none_iff := by simp
  pending_busy := by simp
  pending_idle := by simp
  idle_zero := by simp
  accum_ok := by simp
  final_ok := by simp
  fault_ok := by simp
  held_in_reset _ := rfl

/-- A valid configuration, its buffer not full, or the zero session: what a fault may find. -/
theorem State.Inv.session_or_zero {s : State} (hs : s.Inv) :
    (s.act = SessionConfig.zero ∧ s.pos = 0) ∨ (ValidConfig s.act ∧ s.pos.toNat < s.act.rate.toNat) := by
  cases hp : s.phase with
  | idle => exact .inl ⟨(hs.idle_zero hp).1, (hs.idle_zero hp).2.1⟩
  | accum => exact .inr (hs.accum_ok hp)
  | final =>
    obtain ⟨hv, hpos⟩ := hs.final_ok hp
    have := hv.rate_bounds
    exact .inr ⟨hv, by rw [hpos]; simp; omega⟩
  | fault => exact hs.fault_ok hp

/-- Entering FAULT keeps the invariant (60_exceptions.md R266). -/
theorem State.Inv.enter_fault {s : State} (hs : s.Inv) (hr : s.rstN = true) {code : Cause} (hc : code ≠ .none) :
    State.Inv { s with phase := .fault, err := code } where
  err_none_iff := by simp [hc]
  pending_busy := hs.pending_busy
  pending_idle := hs.pending_idle
  idle_zero := by simp
  accum_ok := by simp
  final_ok := by simp
  fault_ok _ := hs.session_or_zero
  held_in_reset h := by simp [hr] at h

/-- The common end of a completion keeps the invariant (60_exceptions.md R265). -/
theorem State.Inv.retire {s : State} (hs : s.Inv) (hr : s.rstN = true) : (retire s).Inv where
  err_none_iff := hs.err_none_iff
  pending_busy := by simp
  pending_idle := by simp
  idle_zero := hs.idle_zero
  accum_ok := hs.accum_ok
  final_ok := hs.final_ok
  fault_ok := hs.fault_ok
  held_in_reset h := by simp [hr] at h

/-- Accepting a command word keeps the invariant (60_exceptions.md R264). -/
theorem State.Inv.accept {s : State} (hs : s.Inv) (hr : s.rstN = true) (w : Word) : (accept w s).Inv where
  err_none_iff := hs.err_none_iff
  pending_busy := by simp
  pending_idle := by simp
  idle_zero := hs.idle_zero
  accum_ok := hs.accum_ok
  final_ok := hs.final_ok
  fault_ok := hs.fault_ok
  held_in_reset h := by simp [hr] at h

theorem State.Inv.accumulating {s : State} (hs : s.Inv) (hp : s.phase = .accum) : Accumulating s :=
  ⟨hp, (hs.accum_ok hp).1, (hs.accum_ok hp).2⟩

/-- A running session meets the invariant once its command has retired. -/
theorem inv_retire_of_accumulating {s : State} (hs : Accumulating s) (he : s.err = .none) (hr : s.rstN = true) :
    (retire s).Inv where
  err_none_iff := by simp [he, hs.phase_eq]
  pending_busy := by simp
  pending_idle := by simp
  idle_zero := by simp [hs.phase_eq]
  accum_ok _ := ⟨hs.valid, hs.pos_lt⟩
  final_ok := by simp [hs.phase_eq]
  fault_ok := by simp [hs.phase_eq]
  held_in_reset h := by simp [hr] at h

/-- A finished session meets the invariant once its command has retired. -/
theorem inv_retire_of_final {s : State} (hp : s.phase = .final) (hv : ValidConfig s.act) (hpos : s.pos = 0)
    (he : s.err = .none) (hr : s.rstN = true) : (retire s).Inv where
  err_none_iff := by simp [he, hp]
  pending_busy := by simp
  pending_idle := by simp
  idle_zero := by simp [hp]
  accum_ok := by simp [hp]
  final_ok _ := ⟨hv, hpos⟩
  fault_ok := by simp [hp]
  held_in_reset h := by simp [hr] at h

/-! ### The effects of the commands -/

theorem Accumulating.rate_pos {s : State} (h : Accumulating s) : 0 < s.rate :=
  Nat.lt_of_lt_of_le (by decide) h.valid.rate_bounds.1

theorem Accumulating.rate_le {s : State} (h : Accumulating s) : s.rate ≤ 200 := h.valid.rate_bounds.2.1

/-- A session stays a running one when its phase, configuration and fill offset stay. -/
theorem Accumulating.of_eq {s t : State} (h : Accumulating s) (hphase : t.phase = s.phase) (hact : t.act = s.act)
    (hpos : t.pos = s.pos) : Accumulating t :=
  ⟨hphase.trans h.phase_eq, hact ▸ h.valid, by rw [hact, hpos]; exact h.pos_lt⟩

theorem accumulating_startSession {c : SessionConfig} (hc : ValidConfig c) (s : State) :
    Accumulating (startSession c s) := by
  have := hc.rate_bounds
  exact ⟨rfl, hc, by simp; omega⟩

/-- UPDATE leaves less than one block buffered (43_incremental.md R225). -/
theorem accumulating_updateEffect {s : State} (h : Accumulating s) (d : List Byte) :
    Accumulating (updateEffect d s) := by
  obtain ⟨buf, he, -⟩ := updateEffect_eq d s h.pos_lt h.rate_le
  rw [he]
  exact ⟨h.phase_eq, h.valid, (Nat.mod_le _ _).trans_lt (Nat.mod_lt _ h.rate_pos)⟩

/-- What a command other than INIT and FINALIZE leaves of a running session is one again. -/
theorem accumulating_effectOf {i : Instr} {s : State} (h : Accumulating s) (hi : ∀ v, i ≠ .init v)
    (hf : i ≠ .finalize) : Accumulating (effectOf i s) := by
  have raw (hr : i.isRaw = true) : Accumulating (effectOf i s) := by
    obtain ⟨hphase, hact, hpos⟩ := effectOf_session_of_raw hr s
    exact h.of_eq hphase hact hpos
  cases i with
  | init v => exact absurd rfl (hi v)
  | update len => exact accumulating_updateEffect h _
  | finalize => exact absurd rfl hf
  | permute => exact raw rfl
  | absorb len => exact raw rfl
  | squeeze len => exact raw rfl
  | duplex len => exact raw rfl
  | padAbsorb len => exact raw rfl

/-- A command that passes its checks leaves the invariant when it retires. -/
theorem inv_retire_effectOf {i : Instr} {s : State} (hs : s.Inv) (hr : s.rstN = true) (hp : s.phase ≠ .fault)
    (hc : check i s = none) : (retire (effectOf i s)).Inv := by
  have hk := kept_effectOf i s
  have he : (effectOf i s).err = .none := hk.err.trans (hs.err_none_iff.mpr hp)
  have hr : (effectOf i s).rstN = true := hk.rstN.trans hr
  by_cases hi : ∃ v, i = .init v
  · obtain ⟨v, rfl⟩ := hi
    obtain ⟨c, hv, hvalid⟩ := (check_init_eq_none_iff v s).mp hc
    have heff : effectOf (.init v) s = startSession c s := initEffect_of_some hv
    exact inv_retire_of_accumulating (heff ▸ accumulating_startSession hvalid s) he hr
  · have hi : ∀ v, i ≠ .init v := fun v hv => hi ⟨v, hv⟩
    have ha := hs.accumulating (accum_of_check hi hp hc)
    by_cases hf : i = .finalize
    · subst hf
      obtain ⟨-, hphase, hact, hpos⟩ := kept_finalizeEffect s
      exact inv_retire_of_final hphase (hact ▸ ha.valid) hpos he hr
    · exact inv_retire_of_accumulating (accumulating_effectOf ha hi hf) he hr

/-- A completion keeps the invariant if its effect, once the checks have passed, does. -/
theorem State.Inv.completion {s : State} (hs : s.Inv) (hr : s.rstN = true) {f : Option Cause} {e : State → State}
    (hf : f ≠ some .none) (he : s.phase ≠ .fault → f = none → (Machine.retire (e s)).Inv) :
    (completion f e s).Inv := by
  rcases completion_cases f e s with ⟨-, h⟩ | ⟨-, c, hc, h⟩ | ⟨hp, hn, h⟩
  · rw [h]; exact hs.retire hr
  · have hne : c ≠ .none := fun hcn => hf (hcn ▸ hc)
    rw [h]
    exact (hs.enter_fault hr hne).retire hr
  · rw [h]; exact he hp hn

/-- The completion of the pending word keeps the invariant, whether or not it spells a command (60_exceptions.md R265). -/
theorem State.Inv.complete {s t : State} (hs : s.Inv) (hr : s.rstN = true) (h : complete s = .next t) : t.Inv := by
  unfold Machine.complete at h
  split at h
  · rename_i i _
    rw [exec_eq_completion] at h
    cases h
    exact hs.completion hr (check_ne_none_cause i s) (inv_retire_effectOf hs hr)
  · cases h
    exact hs.completion hr (by simp) (by simp)

/-! ### The steps -/

/-- A served write keeps the invariant (20_memory.md R65, R66). -/
theorem State.Inv.writeReg {s : State} (hs : s.Inv) (hr : s.rstN = true) (r : Reg) (v : Word) :
    (writeReg r v s).Inv := by
  have held : ∀ {t : State}, t.rstN = s.rstN → t.rstN = false → t = resetEngine t := by
    intro t ht hf
    simp [ht, hr] at hf
  rcases writeReg_cases r v s with h | ⟨-, -, h⟩ | ⟨-, -, h⟩ | ⟨-, -, h⟩ | ⟨-, -, -, h⟩ | ⟨-, -, -, h⟩ |
    ⟨-, -, h⟩ | ⟨-, c0, c1, din, h⟩ <;> rw [h]
  · exact hs
  · exact inv_resetEngine s
  · exact hs.of_view_eq rfl (held rfl)
  · exact hs.of_view_eq rfl (held rfl)
  · exact hs.enter_fault hr (by simp)
  · exact hs.accept hr v
  · exact hs.enter_fault hr (by simp)
  · exact hs.of_view_eq rfl (held rfl)

/-- Taking a turn off the list keeps the invariant. -/
theorem State.Inv.with_inputs {s : State} (hs : s.Inv) (turns : List Turn) : State.Inv { s with inputs := turns } := by
  refine hs.of_view_eq rfl fun hr => ?_
  exact congrArg (fun u : State => { u with inputs := turns }) (hs.held_in_reset hr)

/-- While `rst_n` is released the bus's answer does not enter the invariant. -/
theorem State.Inv.with_response {s : State} (hs : s.Inv) (hr : s.rstN = true) (a : Response) :
    State.Inv { s with response := a } :=
  hs.of_view_eq rfl fun hf => by simp [hr] at hf

/-- A read keeps the invariant (20_memory.md R66). -/
theorem State.Inv.readReg {s : State} (hs : s.Inv) (hr : s.rstN = true) (r : Reg) : (readReg r s).1.Inv := by
  rcases readReg_state r s with h | h <;> rw [h]
  · exact hs
  · exact hs.of_view_eq rfl fun hf => by simp [hr] at hf

/-- No read moves the reset pin. -/
theorem readReg_rstN (r : Reg) (s : State) : (readReg r s).1.rstN = s.rstN := by
  rcases readReg_state r s with h | h <;> rw [h]

/-- No write moves the reset pin, the soft reset included (70_reset_and_hazards.md R302). -/
theorem writeReg_rstN (r : Reg) (v : Word) (s : State) : (writeReg r v s).rstN = s.rstN := by
  rcases writeReg_cases r v s with h | ⟨-, -, h⟩ | ⟨-, -, h⟩ | ⟨-, -, h⟩ | ⟨-, -, -, h⟩ | ⟨-, -, -, h⟩ |
    ⟨-, -, h⟩ | ⟨-, c0, c1, din, h⟩ <;> rw [h] <;> rfl

/-- Releasing `rst_n` keeps the invariant (70_reset_and_hazards.md R300). -/
theorem State.Inv.releaseResetPin {s : State} (hs : s.Inv) : (releaseResetPin s).Inv :=
  hs.of_view_eq rfl fun hf => by cases hf

/-- Settles O60: the invariant turn by turn, along everything a step can be. -/
theorem everyStepKeepsTheInvariant : Obligations.EveryStepKeepsTheInvariant := by
  intro s t hs h
  obtain ⟨r, rfl, hcase⟩ := step_cases h
  have hi := hs.with_inputs s.inputs.tail
  rcases hcase with ⟨hr, -, -, hc⟩ | ⟨-, -, rfl⟩ | ⟨hr, off, -, -, -, rfl⟩ | ⟨hr, off, v, -, -, -, rfl⟩ |
    ⟨-, -, rfl⟩ | ⟨-, -, rfl⟩
  · exact hi.complete hr hc
  · exact hi
  · exact (hi.readReg hr _).with_response ((readReg_rstN _ _).trans hr) _
  · exact (hi.writeReg hr _ v).with_response ((writeReg_rstN _ v _).trans hr) _
  · exact inv_resetEngine _
  · exact hi.releaseResetPin

end Sys2Proof.Machine
end

section
/-! SUPPORT. How a completion moves the phase (10_state.md R24). -/

namespace Sys2Proof.Machine

/-- A completion that neither starts nor ends in FAULT has passed its checks and had its effect. -/
theorem passed_of_no_fault {i : Instr} {s t : State} (hs : s.phase ≠ .fault) (h : exec i s = .next t)
    (ht : t.phase ≠ .fault) : check i s = none ∧ t = retire (effectOf i s) := by
  rw [exec_eq_completion] at h
  cases h
  rcases completion_cases (check i s) (effectOf i) s with ⟨hf, -⟩ | ⟨-, c, -, he⟩ | ⟨-, hc, he⟩
  · exact absurd hf hs
  · exact absurd (by rw [he]; rfl) ht
  · exact ⟨hc, he⟩

/-- Settles O10: the checks give the phase before, the effect the phase after. -/
theorem phaseFollowsTheTable : Obligations.PhaseFollowsTheTable := by
  intro i s t hs h ht
  obtain ⟨hc, rfl⟩ := passed_of_no_fault hs h ht
  have raw (hi : i.isRaw = true) :
      s.phase = .accum ∧ s.pos = 0 ∧ (retire (effectOf i s)).phase = .accum := by
    obtain ⟨ha, hpos⟩ := ready_of_check_raw hi hs hc
    exact ⟨ha, hpos, (effectOf_session_of_raw hi s).1.trans ha⟩
  cases i with
  | init v =>
    obtain ⟨c, hv, -⟩ := (check_init_eq_none_iff v s).mp hc
    exact congrArg State.phase (initEffect_of_some hv)
  | update len =>
    have ha := accum_of_check (by simp) hs hc
    exact ⟨ha, (kept_updateEffect _ s).2.1.trans ha⟩
  | finalize => exact ⟨accum_of_check (by simp) hs hc, rfl⟩
  | permute => exact raw rfl
  | absorb len => exact raw rfl
  | squeeze len => exact raw rfl
  | duplex len => exact raw rfl
  | padAbsorb len => exact raw rfl

end Sys2Proof.Machine
end

section
/-! SUPPORT. What the commands do not read: CFG0 and CFG1 (10_state.md R27), and BUF apart from the buffered bytes
(R26). Each operation commutes with a change of fields it neither reads nor writes. -/

namespace Sys2Proof.Machine

/-- A change of CFG0, CFG1 and BUF, the fields that no sponge operation reads or writes. -/
def mapUnread (f0 : Cfg0 → Cfg0) (f1 : Cfg1 → Cfg1) (fb : Window → Window) (s : State) : State :=
  { s with cfg0 := f0 s.cfg0, cfg1 := f1 s.cfg1, buf := fb s.buf }

section
variable (f0 : Cfg0 → Cfg0) (f1 : Cfg1 → Cfg1) (fb : Window → Window)

theorem mapUnread_rate (s : State) : (mapUnread f0 f1 fb s).rate = s.rate := rfl

theorem mapUnread_pos (s : State) : (mapUnread f0 f1 fb s).pos = s.pos := rfl

/-- The block loop (42_sponge.md R180). -/
theorem absorbBlocks_mapUnread (fuel : Nat) (bs : List Byte) (s : State) :
    absorbBlocks fuel bs (mapUnread f0 f1 fb s) =
      (mapUnread f0 f1 fb (absorbBlocks fuel bs s).1, (absorbBlocks fuel bs s).2) := by
  induction fuel generalizing bs s with
  | zero => rfl
  | succ fuel ih =>
    rw [absorbBlocks, absorbBlocks, mapUnread_rate]
    split
    · exact ih _ (absorbBlock (bs.take s.rate) s)
    · rfl

/-- Padded absorption (42_sponge.md R188). -/
theorem padAbsorbOp_mapUnread (m : List Byte) (s : State) :
    padAbsorbOp m (mapUnread f0 f1 fb s) = mapUnread f0 f1 fb (padAbsorbOp m s) := by
  rw [padAbsorbOp, padAbsorbOp, absorbBlocks_mapUnread]
  rfl

/-- The squeeze loop (42_sponge.md R182). -/
theorem squeezeFrom_mapUnread (n fuel off : Nat) (s : State) :
    squeezeFrom n fuel off (mapUnread f0 f1 fb s) = mapUnread f0 f1 fb (squeezeFrom n fuel off s) := by
  induction fuel generalizing off s with
  | zero =>
    rw [squeezeFrom, squeezeFrom]
    rfl
  | succ fuel ih =>
    rw [squeezeFrom, squeezeFrom, mapUnread_rate]
    split
    · exact ih _ (permuteOp { s with dout := windowSplice s.dout off (stateBytes s.lanes 0 s.rate) })
    · rfl

theorem squeezeOut_mapUnread (n : Nat) (s : State) :
    squeezeOut n (mapUnread f0 f1 fb s) = mapUnread f0 f1 fb (squeezeOut n s) :=
  squeezeFrom_mapUnread f0 f1 fb n n 0 s

/-- FINALIZE's effect, as long as the buffered bytes stay (43_incremental.md R224). -/
theorem finalizeEffect_mapUnread {s : State} (hb : bufferedBytes (mapUnread f0 f1 fb s) = bufferedBytes s) :
    finalizeEffect (mapUnread f0 f1 fb s) = mapUnread f0 f1 fb (finalizeEffect s) := by
  simp only [finalizeEffect, hb, padAbsorbOp_mapUnread, squeezeOut_mapUnread]
  rfl

/-- The effects of the raw commands (42_sponge.md R181 to R189). -/
theorem effectOf_mapUnread_of_raw {i : Instr} (hi : i.isRaw = true) (s : State) :
    effectOf i (mapUnread f0 f1 fb s) = mapUnread f0 f1 fb (effectOf i s) := by
  cases i with
  | init v => cases hi
  | update len => cases hi
  | finalize => cases hi
  | permute => rfl
  | absorb len => rfl
  | squeeze len => exact squeezeOut_mapUnread f0 f1 fb _ s
  | duplex len => rfl
  | padAbsorb len => exact padAbsorbOp_mapUnread f0 f1 fb _ s

/-- UPDATE's effect, when BUF stays (43_incremental.md R223). -/
theorem updateEffect_mapUnread_id (d : List Byte) (s : State) :
    updateEffect d (mapUnread f0 f1 id s) = mapUnread f0 f1 id (updateEffect d s) := by
  have htop : topOff d (mapUnread f0 f1 id s) = (mapUnread f0 f1 id (topOff d s).1, (topOff d s).2) := by
    rw [topOff, topOff, mapUnread_pos]
    split <;> rfl
  rw [updateEffect, updateEffect, mapUnread_rate, mapUnread_pos]
  split
  · rfl
  · simp only [flushBlocks, htop, absorbBlocks_mapUnread]
    rfl

/-- A completion commutes with the change when its effect does. -/
theorem completion_mapUnread (f : Option Cause) {e : State → State} {s : State}
    (he : e (mapUnread f0 f1 fb s) = mapUnread f0 f1 fb (e s)) :
    completion f e (mapUnread f0 f1 fb s) = mapUnread f0 f1 fb (completion f e s) := by
  by_cases hp : s.phase = .fault
  · rw [completion_of_fault _ _ s hp, completion_of_fault _ _ (mapUnread f0 f1 fb s) hp]
    rfl
  · cases f with
    | none =>
      rw [completion_of_passed _ s hp, completion_of_passed _ (mapUnread f0 f1 fb s) hp, he]
      rfl
    | some c =>
      rw [completion_of_failed _ _ s hp, completion_of_failed _ _ (mapUnread f0 f1 fb s) hp,
        faultEntry_of_ne _ s hp, faultEntry_of_ne _ (mapUnread f0 f1 fb s) hp]
      rfl

end

/-! ### CFG0 and CFG1 -/

/-- The descriptor of a named variant does not depend on CFG0 and CFG1 (30_encoding.md R103). -/
theorem variantConfig_of_named {v : BitVec 4} (hv : v ≠ 0) (s t : State) : variantConfig v s = variantConfig v t := by
  have h0 : v.toNat ≠ 0 := fun h => hv (BitVec.eq_of_toNat_eq h)
  unfold variantConfig
  split <;> first | contradiction | rfl

/-- No check but INIT CUSTOM's reads CFG0 and CFG1 (10_state.md R27). -/
theorem check_mapUnread_id {i : Instr} (hi : i ≠ .init 0) (f0 : Cfg0 → Cfg0) (f1 : Cfg1 → Cfg1) (s : State) :
    check i (mapUnread f0 f1 id s) = check i s := by
  cases i with
  | init v =>
    have hv : v ≠ 0 := fun h => hi (h ▸ rfl)
    rw [check, check, variantConfig_of_named hv _ s]
  | update len => rfl
  | finalize => rfl
  | permute => rfl
  | absorb len => rfl
  | squeeze len => rfl
  | duplex len => rfl
  | padAbsorb len => rfl

/-- No effect but INIT CUSTOM's reads CFG0 and CFG1 (10_state.md R27). -/
theorem effectOf_mapUnread_id {i : Instr} (hi : i ≠ .init 0) (f0 : Cfg0 → Cfg0) (f1 : Cfg1 → Cfg1) (s : State) :
    effectOf i (mapUnread f0 f1 id s) = mapUnread f0 f1 id (effectOf i s) := by
  have raw (h : i.isRaw = true) := effectOf_mapUnread_of_raw f0 f1 id h s
  cases i with
  | init v =>
    have hv : v ≠ 0 := fun h => hi (h ▸ rfl)
    simp only [effectOf, initEffect]
    rw [variantConfig_of_named hv _ s]
    split <;> rfl
  | update len => exact updateEffect_mapUnread_id f0 f1 _ s
  | finalize => exact finalizeEffect_mapUnread f0 f1 id rfl
  | permute => exact raw rfl
  | absorb len => exact raw rfl
  | squeeze len => exact raw rfl
  | duplex len => exact raw rfl
  | padAbsorb len => exact raw rfl

/-- Settles O37: checks and effect commute with the replacement of CFG0 and CFG1, and so does the completion. -/
theorem configRegistersMatterOnlyToCustomInit : Obligations.ConfigRegistersMatterOnlyToCustomInit := by
  intro i s c0 c1 hi
  have hc := check_mapUnread_id hi (fun _ => c0) (fun _ => c1) s
  have he := effectOf_mapUnread_id hi (fun _ => c0) (fun _ => c1) s
  have hcomp := completion_mapUnread _ _ _ (check i s) he
  have hexec := exec_eq_completion i (mapUnread (fun _ => c0) (fun _ => c1) id s)
  rw [hc, hcomp] at hexec
  exact ⟨_, exec_eq_completion i s, hexec⟩

/-! ### BUF from `pos` on -/

/-- Two buffers that agree up to `pos` hold the same buffered bytes (10_state.md R26). -/
theorem bufferedBytes_of_agree {s : State} {buf : Window} (h : ∀ k < s.pos.toNat, byteAt buf k = byteAt s.buf k) :
    bufferedBytes { s with buf := buf } = bufferedBytes s :=
  windowSlice_congr fun k hk => by rw [Nat.zero_add, h k hk]

/-- Equal slices from the start hold the same bytes. -/
theorem byteAt_of_windowSlice_eq {v w : Window} {n : Nat} (h : windowSlice v 0 n = windowSlice w 0 n) :
    ∀ k < n, byteAt v k = byteAt w k := by
  intro k hk
  rw [← Nat.zero_add k, ← windowSlice_getD v 0 n k hk, ← windowSlice_getD w 0 n k hk, h]

/-- Two states that differ at most in BUF from `pos` on (10_state.md R26). -/
def SameButStale (s t : State) : Prop :=
  ∃ buf, t = { s with buf := buf } ∧ ∀ k < s.pos.toNat, byteAt buf k = byteAt s.buf k

/-- Updates that name none of the fields in question keep two states the same but for stale bytes. -/
theorem SameButStale.map {s t : State} (h : SameButStale s t) {e : State → State}
    (he : ∀ (u : State) (buf : Window), e { u with buf := buf } = { e u with buf := buf })
    (hpos : (e s).pos = s.pos) : SameButStale (e s) (e t) := by
  obtain ⟨buf, rfl, hb⟩ := h
  have hbuf : (e s).buf = s.buf := by
    have hs := congrArg State.buf (he s s.buf)
    exact hs
  exact ⟨buf, he s buf, by rwa [hpos, hbuf]⟩

/-- INIT clears BUF (43_incremental.md R222). -/
theorem initEffect_sameButStale {s t : State} (h : SameButStale s t) (v : BitVec 4) :
    SameButStale (initEffect v s) (initEffect v t) := by
  obtain ⟨buf, rfl, hb⟩ := h
  have hv : variantConfig v { s with buf := buf } = variantConfig v s := rfl
  cases hc : variantConfig v s with
  | none =>
    simp only [initEffect, hv, hc]
    exact ⟨buf, rfl, hb⟩
  | some c =>
    rw [initEffect_of_some hc, initEffect_of_some (hv.trans hc)]
    exact ⟨Window.zero, rfl, fun _ _ => rfl⟩

/-- UPDATE reads the buffered bytes only (43_incremental.md R223). -/
theorem updateEffect_sameButStale {s t : State} (h : SameButStale s t) (hs : Accumulating s) (d : List Byte) :
    SameButStale (updateEffect d s) (updateEffect d t) := by
  obtain ⟨buf, rfl, hb⟩ := h
  obtain ⟨b1, he1, hs1⟩ := updateEffect_eq d s hs.pos_lt hs.rate_le
  obtain ⟨b2, he2, hs2⟩ := updateEffect_eq d { s with buf := buf } hs.pos_lt hs.rate_le
  rw [bufferedBytes_of_agree hb] at he2 hs2
  refine ⟨b2, by rw [he1, he2], ?_⟩
  rw [he1]
  intro k hk
  exact byteAt_of_windowSlice_eq (hs2.trans hs1.symm) k (hk.trans_le (Nat.mod_le _ _))

/-- FINALIZE reads the buffered bytes only and empties the buffer (43_incremental.md R224). -/
theorem finalizeEffect_sameButStale {s t : State} (h : SameButStale s t) :
    SameButStale (finalizeEffect s) (finalizeEffect t) := by
  obtain ⟨buf, rfl, hb⟩ := h
  exact ⟨buf, finalizeEffect_mapUnread id id (fun _ => buf) (bufferedBytes_of_agree hb),
    fun k hk => absurd hk (Nat.not_lt_zero k)⟩

/-- A raw command does not read BUF. -/
theorem effectOf_sameButStale_of_raw {i : Instr} (hi : i.isRaw = true) {s t : State} (h : SameButStale s t) :
    SameButStale (effectOf i s) (effectOf i t) :=
  h.map (fun u buf => effectOf_mapUnread_of_raw id id (fun _ => buf) hi u) (effectOf_session_of_raw hi s).2.2

/-- The effect of a command that passed its checks does not read the stale bytes. -/
theorem effectOf_sameButStale {i : Instr} {s t : State} (h : SameButStale s t) (hs : s.Inv)
    (hp : s.phase ≠ .fault) (hc : check i s = none) : SameButStale (effectOf i s) (effectOf i t) := by
  cases i with
  | init v => exact initEffect_sameButStale h v
  | update len =>
    have hd : dinBytes (lenBytes len) t = dinBytes (lenBytes len) s := by obtain ⟨buf, rfl, -⟩ := h; rfl
    simp only [effectOf, hd]
    exact updateEffect_sameButStale h (hs.accumulating (accum_of_check (by simp) hp hc)) _
  | finalize => exact finalizeEffect_sameButStale h
  | permute => exact effectOf_sameButStale_of_raw rfl h
  | absorb len => exact effectOf_sameButStale_of_raw rfl h
  | squeeze len => exact effectOf_sameButStale_of_raw rfl h
  | duplex len => exact effectOf_sameButStale_of_raw rfl h
  | padAbsorb len => exact effectOf_sameButStale_of_raw rfl h

/-- No check reads BUF (60_exceptions.md R261). -/
theorem check_with_buf (i : Instr) (s : State) (buf : Window) : check i { s with buf := buf } = check i s := by
  cases i <;> rfl

/-- No completion reads the stale bytes. -/
theorem exec_sameButStale {s t : State} (h : SameButStale s t) (hs : s.Inv) (i : Instr) :
    ∃ s' t', exec i s = .next s' ∧ exec i t = .next t' ∧ SameButStale s' t' := by
  have hphase : t.phase = s.phase := by obtain ⟨buf, rfl, -⟩ := h; rfl
  have hcheck : check i t = check i s := by obtain ⟨buf, rfl, -⟩ := h; exact check_with_buf i s buf
  by_cases hp : s.phase = .fault
  · exact ⟨_, _, exec_of_fault i s hp, exec_of_fault i t (hphase.trans hp), h.map (fun _ _ => rfl) rfl⟩
  · cases hc : check i s with
    | some c =>
      exact ⟨_, _, exec_of_failed i s c hp hc, exec_of_failed i t c (hphase ▸ hp) (hcheck.trans hc),
        h.map (fun _ _ => rfl) rfl⟩
    | none =>
      exact ⟨_, _, exec_of_passed i s hp hc, exec_of_passed i t (hphase ▸ hp) (hcheck.trans hc),
        (effectOf_sameButStale h hs hp hc).map (fun _ _ => rfl) rfl⟩

/-- Settles O58: the two states differ only in stale bytes, and so do the next ones. -/
theorem staleBufferBytesAreNeverRead : Obligations.StaleBufferBytesAreNeverRead := by
  intro i s buf hs hb
  obtain ⟨s', t', h1, h2, buf', rfl, hb'⟩ := exec_sameButStale ⟨buf, rfl, hb⟩ hs i
  exact ⟨s', buf', h1, h2, hb'⟩

end Sys2Proof.Machine
end

section
/-! SUPPORT. The registers, field by field (10_state.md R28 to R39). -/

namespace Sys2Proof.Machine

/-! ### Accesses to the registers -/

/-- A word offset of a window is served: it is a multiple of 4 (20_memory.md R63, R64). -/
theorem wordOffset_aligned {base j : Nat} (hb : base % 4 = 0) : (BitVec.ofNat 12 (base + 4 * j)).toNat % 4 = 0 := by
  rw [BitVec.toNat_ofNat]
  omega

/-- A read that R314 does not leave open answers the register's value and changes nothing (20_memory.md R66). -/
theorem busAccess_read_exact {off : Offset} {r : Reg} {s : State} (ha : off.toNat % 4 = 0) (hr : regAt off = r)
    (h : s.busy = false ∨ r.openWhileBusy = false) :
    busAccess (.read .bits32 off) s = (s, .data (regValue r s)) := by
  rw [busAccess_read off s ha, hr, readReg_of_exact r s h]

/-- A write to DIN, CFG0 or CFG1 while `busy = 0` is stored (70_reset_and_hazards.md R313). -/
theorem writeInput_of_idle {store : State → State} {s : State} (h : s.busy = false) : writeInput store s = store s := by
  simp [writeInput, h]

/-! ### Bytes of a window -/

theorem wordByte_windowWord (w : Window) (j : Nat) {i : Nat} (h : i < 4) :
    wordByte (windowWord w j) i = byteAt w (4 * j + i) := by
  rw [windowWord, wordByte_wordOfBytes _ _ _ _ i h]
  interval_cases i <;> rfl

/-- A byte of the word just written (20_memory.md R61). -/
theorem byteAt_setWindowWord_same (w : Window) {j : Nat} (v : Word) {i : Nat} (hj : j < 50) (h : i < 4) :
    byteAt (setWindowWord w j v) (4 * j + i) = wordByte v i := by
  rw [← wordByte_windowWord _ _ h, windowWord_setWindowWord w j v hj]

/-- A byte of another word keeps its value (10_state.md R37). -/
theorem byteAt_setWindowWord_other (w : Window) (j : Nat) (v : Word) {k : Nat} (h : k < 4 * j ∨ 4 * j + 4 ≤ k) :
    byteAt (setWindowWord w j v) k = byteAt w k := by
  rcases Nat.lt_or_ge k 200 with hk | hk
  · rw [setWindowWord, byteAt_windowSplice _ _ _ _ hk, if_neg (by simp; omega)]
  · rw [byteAt_of_ge _ _ hk, byteAt_of_ge _ _ hk]

/-- Settles O44: the write stores the word in DIN, and its bytes are read back one by one. -/
theorem dinWriteStoresFourBytes : Obligations.DinWriteStoresFourBytes := by
  intro s j v hr hb hj off
  have ha : off.toNat % 4 = 0 := wordOffset_aligned (by decide)
  have hreg : regAt off = .din j := regAt_din j hj
  refine ⟨setWindowWord s.din j v, ?_, ?_, ?_, ?_⟩
  · rw [hostTurn_write off v s hr ha, hreg, writeReg, writeInput_of_idle hb]
  · intro i hi
    exact byteAt_setWindowWord_same s.din v hj hi
  · intro k hk
    exact byteAt_setWindowWord_other s.din j v hk
  · have hread := busAccess_read_exact (s := { s with din := setWindowWord s.din j v }) ha hreg (.inl hb)
    rwa [regValue, windowWord_setWindowWord _ _ _ hj] at hread

/-- Settles O45: both windows read a packed word, DIN busy or not. -/
theorem windowReadsPackFourBytes : Obligations.WindowReadsPackFourBytes := by
  intro s j i hj hi
  constructor
  · intro hb
    exact ⟨_, busAccess_read_exact (wordOffset_aligned (by decide)) (regAt_dout j hj) (.inl hb),
      wordByte_windowWord s.dout j hi⟩
  · exact ⟨_, busAccess_read_exact (wordOffset_aligned (by decide)) (regAt_din j hj) (.inr rfl),
      wordByte_windowWord s.din j hi⟩

/-- Settles O46: the even words are the low halves of the lanes and the odd words the high halves. -/
theorem stateWindowReadsTheLanes : Obligations.StateWindowReadsTheLanes := by
  intro s i hb hi
  have read (j : Nat) (hj : j < 50) : busAccess (.read .bits32 (BitVec.ofNat 12 (0x300 + 4 * j))) s =
      (s, .data (stateWord s.lanes j)) :=
    busAccess_read_exact (wordOffset_aligned (by decide)) (regAt_state j hj) (.inl hb)
  constructor
  · rw [show 0x300 + 8 * i = 0x300 + 4 * (2 * i) by omega, read _ (by omega), stateWord_even]
  · rw [show 0x304 + 8 * i = 0x300 + 4 * (2 * i + 1) by omega, read _ (by omega), stateWord_odd]

/-! ### Fields of the configuration words -/

/-- A field of a word as a number. -/
theorem extractLsb'_eq_iff (w : Word) (k : Nat) {n : Nat} (x : BitVec n) :
    w.extractLsb' k n = x ↔ w.toNat / 2 ^ k % 2 ^ n = x.toNat := by
  rw [← BitVec.toNat_inj, BitVec.extractLsb'_toNat, Nat.shiftRight_eq_div_pow]

/-- CFG0 and ACFG0 as a number (10_state.md R28). -/
theorem cfg0Word_toNat (c : Cfg0) : (cfg0Word c).toNat = c.rounds.toNat * 2 ^ 16 + c.capacity.toNat := by
  have h0 := c.capacity.isLt
  have h1 := c.rounds.isLt
  rw [cfg0Word, BitVec.toNat_setWidth, append_toNat, append_toNat]
  simp only [BitVec.ofNat_eq_ofNat, BitVec.toNat_ofNat]
  omega

/-- CFG1 and ACFG1 as a number (10_state.md R28). -/
theorem cfg1Word_toNat (c : Cfg1) :
    (cfg1Word c).toNat =
      c.sl.toNat * 2 ^ 24 + c.sb.toNat * 2 ^ 16 + c.digest.toNat * 2 ^ 8 + c.rate.toNat := by
  have h0 := c.rate.isLt
  have h1 := c.digest.isLt
  have h2 := c.sb.isLt
  have h3 := c.sl.isLt
  rw [cfg1Word, BitVec.toNat_setWidth, append_toNat, append_toNat, append_toNat]
  omega

/-- The fields CFG0 and ACFG0 read, and their reserved bits (10_state.md R28, R36). -/
theorem cfg0Word_fields (c : Cfg0) :
    (cfg0Word c).extractLsb' 0 11 = c.capacity ∧ (cfg0Word c).extractLsb' 11 5 = 0 ∧
      (cfg0Word c).extractLsb' 16 5 = c.rounds ∧ (cfg0Word c).extractLsb' 21 11 = 0 := by
  have h0 := c.capacity.isLt
  have h1 := c.rounds.isLt
  simp only [extractLsb'_eq_iff, cfg0Word_toNat, BitVec.ofNat_eq_ofNat, BitVec.toNat_ofNat]
  omega

/-- The fields CFG1 and ACFG1 read, and their reserved bits (10_state.md R28, R36). -/
theorem cfg1Word_fields (c : Cfg1) :
    (cfg1Word c).extractLsb' 0 8 = c.rate ∧ (cfg1Word c).extractLsb' 8 8 = c.digest ∧
      (cfg1Word c).extractLsb' 16 8 = c.sb ∧ (cfg1Word c).extractLsb' 24 4 = c.sl ∧
      (cfg1Word c).extractLsb' 28 4 = 0 := by
  have h0 := c.rate.isLt
  have h1 := c.digest.isLt
  have h2 := c.sb.isLt
  have h3 := c.sl.isLt
  simp only [extractLsb'_eq_iff, cfg1Word_toNat, BitVec.ofNat_eq_ofNat, BitVec.toNat_ofNat]
  omega

/-- A word stored in CFG0 reads back with its reserved bits 0 (10_state.md R28). -/
theorem cfg0Word_cfg0OfWord (v : Word) : cfg0Word (cfg0OfWord v) = v &&& 0x001F07FF := by
  apply BitVec.eq_of_getLsbD_eq
  intro i hi
  simp only [cfg0Word, cfg0OfWord, BitVec.getLsbD_setWidth, BitVec.getLsbD_append, BitVec.getLsbD_extractLsb',
    BitVec.getLsbD_and]
  interval_cases i <;> simp

/-- A word stored in CFG1 reads back with its reserved bits 0 (10_state.md R28). -/
theorem cfg1Word_cfg1OfWord (v : Word) : cfg1Word (cfg1OfWord v) = v &&& 0x0FFFFFFF := by
  apply BitVec.eq_of_getLsbD_eq
  intro i hi
  simp only [cfg1Word, cfg1OfWord, BitVec.getLsbD_setWidth, BitVec.getLsbD_append, BitVec.getLsbD_extractLsb',
    BitVec.getLsbD_and]
  interval_cases i <;> simp

/-- Settles O47: each register stores its fields, and what it reads back is the word masked. -/
theorem configWriteDropsReservedBits : Obligations.ConfigWriteDropsReservedBits := by
  intro s v hr hb
  refine ⟨⟨cfg0OfWord v, ?_, rfl, rfl, ?_⟩, ⟨cfg1OfWord v, ?_, rfl, rfl, rfl, rfl, ?_⟩⟩
  · rw [hostTurn_write _ v s hr (by decide), show regAt 0x018 = .cfg0 from rfl, writeReg, writeInput_of_idle hb]
  · rw [← cfg0Word_cfg0OfWord]
    exact busAccess_read_exact (r := .cfg0) (by decide) rfl (.inr rfl)
  · rw [hostTurn_write _ v s hr (by decide), show regAt 0x01C = .cfg1 from rfl, writeReg, writeInput_of_idle hb]
  · rw [← cfg1Word_cfg1OfWord]
    exact busAccess_read_exact (r := .cfg1) (by decide) rfl (.inr rfl)

/-- Settles O49: each mirror register answers its value, and the words have their fields. -/
theorem mirrorRegistersReadTheSession : Obligations.MirrorRegistersReadTheSession := by
  intro s hb
  obtain ⟨hcap, hmid, hrounds, htop⟩ := cfg0Word_fields s.act.toCfg0
  obtain ⟨hrate, hdigest, hsb, hsl, hres⟩ := cfg1Word_fields s.act.toCfg1
  have read {off : Offset} (r : Reg) (ha : off.toNat % 4 = 0) (hr : regAt off = r) :
      busAccess (.read .bits32 off) s = (s, .data (regValue r s)) := busAccess_read_exact ha hr (.inl hb)
  refine ⟨cfg0Word s.act.toCfg0, cfg1Word s.act.toCfg1, s.pos.setWidth 32, read .acfg0 (by decide) rfl,
    hcap, hmid, hrounds, htop, read .acfg1 (by decide) rfl, hrate, hdigest, hsb, hsl, hres,
    read .pos (by decide) rfl, ?_, read .permCount (by decide) rfl⟩
  rw [BitVec.toNat_setWidth]
  omega

/-! ### STATUS and CTRL -/

/-- STATUS as a number (10_state.md R31). -/
theorem statusWord_toNat (s : State) :
    (statusWord s).toNat = s.irq.toNat * 2 ^ 16 + s.err.code.toNat * 2 ^ 8 + s.phase.code.toNat * 2 ^ 4 +
      s.faultFlag.toNat * 2 ^ 2 + s.done.toNat * 2 + s.busy.toNat := by
  have h0 := s.busy.toNat_le
  have h1 := s.done.toNat_le
  have h2 := s.faultFlag.toNat_le
  have h3 := s.phase.code.isLt
  have h4 := s.err.code.isLt
  have h5 := s.irq.toNat_le
  rw [statusWord, BitVec.toNat_setWidth]
  simp only [append_toNat, BitVec.toNat_ofBool, BitVec.ofNat_eq_ofNat, BitVec.toNat_ofNat]
  omega

/-- The bits of STATUS (10_state.md R31). -/
theorem statusWord_bits (s : State) :
    (statusWord s).getLsbD 0 = s.busy ∧ (statusWord s).getLsbD 1 = s.done ∧
      (statusWord s).getLsbD 2 = s.faultFlag ∧ (statusWord s).getLsbD 3 = false ∧
      (statusWord s).getLsbD 16 = s.irq := by
  simp only [statusWord, BitVec.getLsbD_setWidth, BitVec.getLsbD_append]
  simp

/-- The wider fields of STATUS (10_state.md R31). -/
theorem statusWord_fields (s : State) :
    (statusWord s).extractLsb' 4 2 = s.phase.code ∧ (statusWord s).extractLsb' 6 2 = 0 ∧
      (statusWord s).extractLsb' 8 8 = s.err.code ∧ (statusWord s).extractLsb' 17 15 = 0 := by
  have h0 := s.busy.toNat_le
  have h1 := s.done.toNat_le
  have h2 := s.faultFlag.toNat_le
  have h3 := s.phase.code.isLt
  have h4 := s.err.code.isLt
  have h5 := s.irq.toNat_le
  simp only [extractLsb'_eq_iff, statusWord_toNat, BitVec.ofNat_eq_ofNat, BitVec.toNat_ofNat]
  omega

/-- The bits of CTRL (10_state.md R30). -/
theorem ctrlWord_fields (s : State) :
    (ctrlWord s).getLsbD 0 = false ∧ (ctrlWord s).getLsbD 1 = s.irqEn ∧ (ctrlWord s).extractLsb' 2 30 = 0 := by
  cases h : s.irqEn <;> simp only [ctrlWord, h] <;> decide

/-- Settles O48: STATUS answers its word, whose fields are the state's; a write touches DONE alone. -/
theorem statusReadsItsFields : Obligations.StatusReadsItsFields := by
  intro s
  obtain ⟨hbusy, hdone, hfault, hres, hirq⟩ := statusWord_bits s
  obtain ⟨hphase, hmid, herr, htop⟩ := statusWord_fields s
  refine ⟨⟨statusWord s, busAccess_read_exact (r := .status) (by decide) rfl (.inr rfl), hbusy, hdone, hfault,
    ?_, ?_, hirq, hres, hmid, htop⟩, ?_⟩
  · rw [hphase]
    cases s.phase <;> rfl
  · rw [herr]
    cases s.err <;> rfl
  · intro hr v
    rw [hostTurn_write _ v s hr (by decide), show regAt 0x008 = .status from rfl, writeReg, writeStatus]
    split <;> rfl

/-- Settles O54: the two kinds of CTRL write by the SRST bit, and the read. -/
theorem controlWritesChangeOneFlag : Obligations.ControlWritesChangeOneFlag := by
  intro s v hr
  have hw : hostTurn (.write .bits32 0x004 v) s = .next { writeCtrl v s with response := .written } :=
    hostTurn_write _ v s hr (by decide)
  obtain ⟨hsrst, hirq, hres⟩ := ctrlWord_fields s
  refine ⟨?_, ?_, ctrlWord s, busAccess_read_exact (r := .ctrl) (by decide) rfl (.inr rfl), hirq, hsrst, hres⟩
  · intro hv
    rw [hw, writeCtrl, hv]
    rfl
  · intro hv
    rw [hw, writeCtrl, if_pos hv]
    exact ⟨_, rfl, rfl, rfl, rfl⟩

end Sys2Proof.Machine
end

section
/-! SUPPORT. The state after reset (10_state.md R44). -/

namespace Sys2Proof.Machine

/-- Every word of a zero window is 0 (20_memory.md R61). -/
theorem windowWord_zero (j : Nat) : windowWord Window.zero j = 0 := by
  simp only [windowWord, byteAt_zero]
  rfl

/-- Every word of the STATE window is 0 while the state is zero (10_state.md R39). -/
theorem stateWord_zero (j : Nat) : stateWord Lanes.zero j = 0 := by
  simp only [stateWord, stateByte_zero]
  rfl

/-- Settles O55: the fields and the single registers by their values, the arrays index by index. -/
theorem resetGivesTheStatedValues : Obligations.ResetGivesTheStatedValues := by
  refine ⟨fun i _ => laneAt_zero i, rfl, rfl, rfl, rfl, rfl, rfl, rfl, rfl, rfl, rfl, rfl, rfl,
    fun k _ => ⟨byteAt_zero k, byteAt_zero k, byteAt_zero k⟩,
    rfl, rfl, rfl, rfl, rfl, rfl, rfl, rfl, rfl, rfl,
    fun j _ => ⟨windowWord_zero j, windowWord_zero j, stateWord_zero j⟩⟩

/-- Settles O59: the reset state is its own reset. -/
theorem resetMeetsTheInvariant : Obligations.ResetMeetsTheInvariant := inv_resetEngine State.reset

end Sys2Proof.Machine
end

section
/-! SUPPORT. Accesses that change nothing of the engine: unserved ones, reads, and writes that are ignored
(20_memory.md R64 to R66). -/

namespace Sys2Proof.Machine

/-! ### Accesses that are not served -/

/-- On the host's turn an error response is a fault of the host program (20_memory.md R64). -/
theorem hostTurn_of_error {a : BusAccess} {s : State} (hr : s.rstN = true) (h : busAccess a s = (s, .error)) :
    hostTurn a s = .fault (.busError a) := by
  simp [hostTurn, hr, h]

/-- Settles O41: neither access is served, and the host's turn stops at the error response. -/
theorem unservedAccessHasNoEffect : Obligations.UnservedAccessHasNoEffect := by
  intro s size off v h
  have hs : ¬served size off := not_and_or.mpr h
  have hread := busAccess_read_unserved size off s hs
  have hwrite := busAccess_write_unserved size off v s hs
  exact ⟨hread, hwrite, fun hr => ⟨hostTurn_of_error hr hread, hostTurn_of_error hr hwrite⟩⟩

/-! ### Reads -/

/-- Settles O42: a read leaves the state or moves the counter of free values, and the turn records the answer. -/
theorem readsHaveNoSideEffect : Obligations.ReadsHaveNoSideEffect := by
  intro s off hr ha
  rw [hostTurn_read off s hr ha]
  rcases readReg_state (regAt off) s with h | h
  · exact ⟨(readReg (regAt off) s).2, s.freeCount, by rw [h]⟩
  · exact ⟨(readReg (regAt off) s).2, s.freeCount + 1, by rw [h]⟩

/-! ### Writes that are ignored -/

/-- The registers whose writes are ignored: the read-only ones and the reserved offsets (20_memory.md R63, R65). -/
def Reg.ignoresWrites : Reg → Bool
  | .id | .pos | .permCount | .acfg0 | .acfg1 | .dout _ | .state _ | .reserved => true
  | .ctrl | .status | .cmd | .cfg0 | .cfg1 | .din _ => false

/-- A write there changes nothing, whatever the phase and whether or not the engine is busy (20_memory.md R65). -/
theorem writeReg_of_ignoresWrites {r : Reg} (h : r.ignoresWrites = true) (v : Word) (s : State) :
    writeReg r v s = s := by
  cases r
  case ctrl | status | cmd | cfg0 | cfg1 | din => cases h
  all_goals rfl

/-- The read-only offsets of the register map (20_memory.md R63). -/
theorem regAt_ignoresWrites_of_readOnly {off : Offset}
    (h : off.toNat = 0x000 ∨ off.toNat = 0x010 ∨ off.toNat = 0x014 ∨ off.toNat = 0x020 ∨ off.toNat = 0x024 ∨
      (0x200 ≤ off.toNat ∧ off.toNat ≤ 0x2C4) ∨ (0x300 ≤ off.toNat ∧ off.toNat ≤ 0x3C4)) :
    (regAt off).ignoresWrites = true := by
  rcases h with h | h | h | h | h | h | h
  iterate 5
    · rw [regAt, h]; rfl
  · rw [regAt_of_dout_range off h]; rfl
  · rw [regAt_of_state_range off h]; rfl

/-- Settles O43: a reserved offset reads exactly even while busy, and `writeReg` ignores both kinds of offset. -/
theorem reservedAndReadOnlyWritesAreIgnored : Obligations.ReservedAndReadOnlyWritesAreIgnored := by
  intro s off v hr ha o reserved readOnly
  constructor
  · intro h
    rw [hostTurn_read off s hr ha, regAt_reserved off ha h, readReg_of_exact .reserved s (.inr rfl)]
    rfl
  · intro h
    have hreg : (regAt off).ignoresWrites = true := by
      rcases h with h | h
      · rw [regAt_reserved off ha h]; rfl
      · exact regAt_ignoresWrites_of_readOnly h
    rw [hostTurn_write off v s hr ha, writeReg_of_ignoresWrites hreg]

end Sys2Proof.Machine
end

section
/-! SUPPORT. What a word that decodes looks like: its opcode, its reserved bits and its operand field, and that this is
the encoding of the command it decodes to (30_encoding.md R100 to R106). -/

namespace Sys2Proof

/-! ### The decoder -/

theorem decodeN_eq_ok_iff {w : Word} {i j : Instr} : decodeN w i = .ok j ↔ w.extractLsb' 8 24 = 0 ∧ i = j := by
  rw [decodeN]
  split <;> simp_all

theorem decodeL_eq_ok_iff {w : Word} {mk : BitVec 8 → Instr} {j : Instr} :
    decodeL w mk = .ok j ↔ w.extractLsb' 16 16 = 0 ∧ mk (lenField w) = j := by
  rw [decodeL]
  split <;> simp_all

theorem decodeV_eq_ok_iff {w : Word} {j : Instr} :
    decodeV w = .ok j ↔
      w.extractLsb' 12 20 = 0 ∧ variantField w ≤ lastVariant ∧ .init (variantField w) = j := by
  rw [decodeV]
  split
  · split <;> simp_all
  · simp_all

/-- What the format of a command says of the bits above the opcode: the reserved ones are 0, and the operand is the value
of its field (30_encoding.md R101 to R103). -/
def Instr.FieldsIn (w : Word) : Instr → Prop
  | .init v => w.extractLsb' 12 20 = 0 ∧ v = variantField w ∧ variantField w ≤ lastVariant
  | .update n => w.extractLsb' 16 16 = 0 ∧ n = lenField w
  | .finalize => w.extractLsb' 8 24 = 0
  | .permute => w.extractLsb' 8 24 = 0
  | .absorb n => w.extractLsb' 16 16 = 0 ∧ n = lenField w
  | .squeeze n => w.extractLsb' 16 16 = 0 ∧ n = lenField w
  | .duplex n => w.extractLsb' 16 16 = 0 ∧ n = lenField w
  | .padAbsorb n => w.extractLsb' 16 16 = 0 ∧ n = lenField w

/-- A decoded word has the opcode and the fields of its command. -/
theorem spells_of_decode {w : Word} {i : Instr} (h : decode w = .ok i) : opcField w = i.opcode ∧ i.FieldsIn w := by
  rw [decode] at h
  split_ifs at h with hop hop hop hop hop hop hop hop
  · obtain ⟨hres, hv, rfl⟩ := decodeV_eq_ok_iff.mp h
    exact ⟨hop, hres, rfl, hv⟩
  · obtain ⟨hres, rfl⟩ := decodeL_eq_ok_iff.mp h
    exact ⟨hop, hres, rfl⟩
  iterate 2
    · obtain ⟨hres, rfl⟩ := decodeN_eq_ok_iff.mp h
      exact ⟨hop, hres⟩
  iterate 4
    · obtain ⟨hres, rfl⟩ := decodeL_eq_ok_iff.mp h
      exact ⟨hop, hres, rfl⟩

/-- A word decodes to a command exactly when it has the command's opcode and fields (30_encoding.md R106). -/
theorem decode_eq_ok_iff {w : Word} {i : Instr} : decode w = .ok i ↔ opcField w = i.opcode ∧ i.FieldsIn w := by
  refine ⟨spells_of_decode, fun ⟨hop, hf⟩ => ?_⟩
  cases i <;> rw [Instr.opcode] at hop <;> simp only [decode, hop]
  case init v =>
    obtain ⟨hres, rfl, hv⟩ := hf
    exact decodeV_eq_ok_iff.mpr ⟨hres, hv, rfl⟩
  case finalize | permute => exact decodeN_eq_ok_iff.mpr ⟨hf, rfl⟩
  all_goals
    obtain ⟨hres, rfl⟩ := hf
    exact decodeL_eq_ok_iff.mpr ⟨hres, rfl⟩

/-! ### The encoder -/

/-- A word is an encoding exactly when its opcode and the bits above it are the command's (30_encoding.md R104). -/
theorem encode_eq_iff {w : Word} {i : Instr} :
    encode i = w ↔ opcField w = i.opcode ∧ w.toNat / 2 ^ 8 = i.operand.toNat := by
  have hop := i.opcode.isLt
  rw [← BitVec.toNat_inj, ← BitVec.toNat_inj (x := opcField w), encode_toNat, opcField_toNat]
  omega

/-- An operand field of `k` bits with only reserved bits, all 0, above it: the bits above the opcode are the operand. -/
theorem operandField_iff {w : Word} {k m : Nat} (hm : 8 + k + m = 32) {x : BitVec k} :
    w.extractLsb' (8 + k) m = 0 ∧ x = w.extractLsb' 8 k ↔ w.toNat / 2 ^ 8 = x.toNat := by
  have hlt : w.extractLsb' (8 + k) m = 0 ↔ w.toNat / 2 ^ 8 < 2 ^ k := by
    rw [reserved_eq_zero_iff w _ m hm, Nat.div_lt_iff_lt_mul (by decide), ← pow_add, Nat.add_comm k 8]
  rw [hlt, ← BitVec.toNat_inj, BitVec.extractLsb'_toNat, Nat.shiftRight_eq_div_pow]
  constructor
  · rintro ⟨h, hxw⟩
    rw [hxw, Nat.mod_eq_of_lt h]
  · intro h
    rw [h, Nat.mod_eq_of_lt x.isLt]
    exact ⟨x.isLt, rfl⟩

/-- The fields of a command are those of a word exactly when a word can spell it and the bits above the opcode are its
operand (30_encoding.md R104, R105). -/
theorem Instr.fieldsIn_iff {w : Word} {i : Instr} :
    i.FieldsIn w ↔ i.wellFormed = true ∧ w.toNat / 2 ^ 8 = i.operand.toNat := by
  cases i with
  | init v =>
    have hf : w.extractLsb' 12 20 = 0 ∧ v = variantField w ↔ w.toNat / 2 ^ 8 = v.toNat :=
      operandField_iff (k := 4) (m := 20) rfl
    rw [FieldsIn, wellFormed, operand, BitVec.toNat_setWidth_of_le (by decide), ← hf, decide_eq_true_iff]
    exact ⟨fun ⟨hres, hv, hle⟩ => ⟨hv ▸ hle, hres, hv⟩, fun ⟨hle, hres, hv⟩ => ⟨hres, hv, hv ▸ hle⟩⟩
  | finalize | permute =>
    rw [FieldsIn, wellFormed, operand, reserved_eq_zero_iff w 8 24 rfl]
    simp
  | update n | absorb n | squeeze n | duplex n | padAbsorb n =>
    rw [FieldsIn, wellFormed, operand, BitVec.toNat_setWidth_of_le (by decide), and_iff_right rfl]
    exact operandField_iff (k := 8) (m := 16) rfl

/-- A word decodes to a command exactly when the command is well formed and encodes to it (30_encoding.md R104 to
R106). -/
theorem decode_eq_ok_iff_encode {w : Word} {i : Instr} :
    decode w = .ok i ↔ i.wellFormed = true ∧ encode i = w := by
  rw [decode_eq_ok_iff, Instr.fieldsIn_iff, encode_eq_iff]
  exact and_left_comm

/-- Settles O2: both say the opcode, the operand and the well-formedness of the command. -/
theorem decodeInvertsEncode : Obligations.DecodeInvertsEncode := fun _ _ => decode_eq_ok_iff_encode

/-- Settles O1: each word is the encoding of the command beside it. -/
theorem decodeReadsSpecWords : Obligations.DecodeReadsSpecWords := by
  and_intros <;> exact decode_eq_ok_iff_encode.mpr ⟨rfl, rfl⟩

/-! ### Match and mask -/

/-- The opcode and the fields of a format L row by its match and mask (30_encoding.md R104). -/
theorem lenRow_iff {w : Word} {op : Byte} {n : BitVec 8} :
    (opcField w = op ∧ w.extractLsb' 16 16 = 0 ∧ n = lenField w) ↔
      w &&& 0xFFFF00FF = op.setWidth 32 ∧ n = lenField w := by
  rw [and_lenMask_eq_iff, and_assoc, and_left_comm]

/-- The opcode and the fields of the format V row by its match and mask (30_encoding.md R104, R105). -/
theorem variantRow_iff {w : Word} {op : Byte} {v : BitVec 4} :
    (opcField w = op ∧ w.extractLsb' 12 20 = 0 ∧ v = variantField w ∧ variantField w ≤ lastVariant) ↔
      w &&& 0xFFFFF0FF = op.setWidth 32 ∧ v = variantField w ∧ (variantField w).toNat ≤ 5 := by
  rw [and_variantMask_eq_iff, and_assoc, and_left_comm, BitVec.le_def]
  rfl

/-- A format N row keeps every bit under its mask, so only its match spells it (30_encoding.md R104). -/
theorem decode_eq_ok_iff_word {w : Word} {i : Instr} (h : i.wellFormed = true) :
    decode w = .ok i ↔ w &&& 0xFFFFFFFF = encode i := by
  rw [decode_eq_ok_iff_encode, show w &&& 0xFFFFFFFF = w from BitVec.and_allOnes, and_iff_right h, eq_comm]

/-- Settles O3: each row by the lemma of its format. -/
theorem wordSpellsRowByMatchAndMask : Obligations.WordSpellsRowByMatchAndMask := by
  intro w
  refine ⟨fun v => ?init, fun n => ?update, ?finalize, ?permute, fun n => ?absorb, fun n => ?squeeze,
    fun n => ?duplex, fun n => ?padAbsorb⟩
  case init => exact decode_eq_ok_iff.trans variantRow_iff
  case finalize | permute => exact decode_eq_ok_iff_word rfl
  case update | absorb | squeeze | duplex | padAbsorb => exact decode_eq_ok_iff.trans lenRow_iff

end Sys2Proof
end

section
/-! SUPPORT. Words that spell no command, and the completion of one (30_encoding.md R105). -/

namespace Sys2Proof

theorem Instr.opcode_mem (i : Instr) :
    i.opcode ∈ ([0x01, 0x02, 0x03, 0x10, 0x11, 0x12, 0x13, 0x14] : List Byte) := by
  cases i <;> simp [opcode]

/-- The reserved bits under a format N opcode (30_encoding.md R101). -/
theorem Instr.FieldsIn.reservedN_eq_zero {w : Word} {i : Instr} (hf : i.FieldsIn w)
    (hop : i.opcode ∈ ([0x03, 0x10] : List Byte)) : w.extractLsb' 8 24 = 0 := by
  cases i
  case finalize | permute => exact hf
  all_goals simp [opcode] at hop

/-- The reserved bits under a format L opcode (30_encoding.md R102). -/
theorem Instr.FieldsIn.reservedL_eq_zero {w : Word} {i : Instr} (hf : i.FieldsIn w)
    (hop : i.opcode ∈ ([0x02, 0x11, 0x12, 0x13, 0x14] : List Byte)) : w.extractLsb' 16 16 = 0 := by
  cases i
  case update | absorb | squeeze | duplex | padAbsorb => exact hf.1
  all_goals simp [opcode] at hop

/-- The reserved bits and the VARIANT under INIT's opcode (30_encoding.md R103, R105). -/
theorem Instr.FieldsIn.reservedV_eq_zero_and_variant_le {w : Word} {i : Instr} (hf : i.FieldsIn w)
    (hop : i.opcode = 0x01) : w.extractLsb' 12 20 = 0 ∧ (variantField w).toNat ≤ 5 := by
  cases i
  case init =>
    obtain ⟨hres, -, hv⟩ := hf
    exact ⟨hres, hv⟩
  all_goals simp [opcode] at hop

end Sys2Proof

namespace Sys2Proof.Machine

/-- A word that decodes to no command raises ILLEGAL_CMD when it completes (60_exceptions.md R261, R265). -/
theorem complete_of_not_decoded {s : State} (hp : s.phase ≠ .fault) (h : ∀ i, decode s.pending ≠ .ok i) :
    complete s = .next (faultedWith .illegalCmd s) := by
  cases hd : decode s.pending with
  | ok i => exact absurd hd (h i)
  | error r =>
    simp only [complete, hd]
    rw [completion_of_failed _ _ _ hp, faultEntry_of_ne _ _ hp]
    rfl

/-- Settles O4: in each of the five cases the word contradicts what a decoded word's opcode and fields are. -/
theorem reservedWordsRaiseIllegalCmd : Obligations.ReservedWordsRaiseIllegalCmd := by
  intro s hp h
  refine complete_of_not_decoded hp fun i hi => ?_
  obtain ⟨hop, hf⟩ := spells_of_decode hi
  simp only [hop] at h
  rcases h with hmem | ⟨hN, hres⟩ | ⟨hL, hres⟩ | ⟨hV, hres⟩ | ⟨hV, hvar⟩
  · exact hmem i.opcode_mem
  · exact hres (hf.reservedN_eq_zero hN)
  · exact hres (hf.reservedL_eq_zero hL)
  · exact hres (hf.reservedV_eq_zero_and_variant_le hV).1
  · exact absurd (hf.reservedV_eq_zero_and_variant_le hV).2 (Nat.not_le.mpr hvar)

end Sys2Proof.Machine
end

section
/-! SUPPORT. The steps of a round by coordinates, the rounds from the front, the zero state, and PERMUTE
(40_permutation.md R130 to R140). -/

namespace Sys2Proof.Machine

/-! ### Coordinates -/

/-- The table of destinations is the map of coordinates (40_permutation.md R132, R134). -/
theorem piLane_coord {x y : Nat} (hx : x < 5) (hy : y < 5) : piLane (y * 5 + x) = (2 * x + 3 * y) % 5 * 5 + y := by
  have table : ∀ x < 5, ∀ y < 5, piLane (y * 5 + x) = (2 * x + 3 * y) % 5 * 5 + y := by decide
  exact table x hx y hy

/-- Settles O26: `laneAt_rhoPi` with the destination of the table read by coordinates; the tables are compared entry by
entry. -/
theorem rhoPiMovesEveryLane : Obligations.RhoPiMovesEveryLane := by
  refine ⟨fun A x y hx hy => ⟨?_, piLane_coord hx hy⟩, by decide, by decide⟩
  rw [← piLane_coord hx hy]
  exact laneAt_rhoPi A (y * 5 + x) (by omega)

/-- Settles O27: the lane-by-lane laws at lane `y*5+x`, whose column is `x` and whose row is `y`. -/
theorem thetaChiIotaByCoordinates : Obligations.ThetaChiIotaByCoordinates := by
  intro A rc x y hx hy
  have hlane : y * 5 + x < 25 := by omega
  have hcol : (y * 5 + x) % 5 = x := by omega
  have hrow : (y * 5 + x) / 5 = y := by omega
  refine ⟨?theta, ?chi, laneAt_iota A rc (y * 5 + x)⟩
  case theta => rw [laneAt_theta A _ hlane, hcol, thetaMask, columnParity, columnParity, rotl]
  case chi => rw [laneAt_chi A _ hlane, hcol, hrow]

/-! ### The rounds -/

/-- Settles O25: `keccakP_succ`, with the index of the first constant written from the last one down. -/
theorem roundsComeFromTheHighEnd : Obligations.RoundsComeFromTheHighEnd := by
  intro A n hn
  refine ⟨?_, keccakP_zero_rounds A⟩
  rw [keccakP_succ A n hn, show 24 - (n + 1) = 23 - n by omega, keccakRound]

/-! ### The zero state -/

/-- Every column of the zero state is even (40_permutation.md R131). -/
@[simp] theorem columnParity_zero (x : Nat) : columnParity Lanes.zero x = 0 := by simp [columnParity]

/-- A rotated zero lane is zero (00_scope.md R12). -/
@[simp] theorem rotl_zero (n : Nat) : rotl 0#64 n = 0#64 := by
  simp [rotl, BitVec.rotateLeft, BitVec.rotateLeftAux]

theorem theta_zero : theta Lanes.zero = Lanes.zero :=
  lanes_ext fun i hi => by simp [laneAt_theta _ i hi, thetaMask]

/-- Every lane is the destination of one (40_permutation.md R134). -/
theorem exists_piLane_eq {j : Nat} (hj : j < 25) : ∃ i < 25, piLane i = j := by
  have onto : ∀ j < 25, ∃ i < 25, piLane i = j := by decide
  exact onto j hj

theorem rhoPi_zero : rhoPi Lanes.zero = Lanes.zero :=
  lanes_ext fun j hj => by
    obtain ⟨i, hi, rfl⟩ := exists_piLane_eq hj
    simp [laneAt_rhoPi _ i hi]

theorem chi_zero : chi Lanes.zero = Lanes.zero :=
  lanes_ext fun i hi => by simp [laneAt_chi _ i hi]

/-- A round of the zero state leaves the round constant alone in lane 0 (40_permutation.md R137). -/
theorem keccakRound_zero (rc : Lane) : keccakRound Lanes.zero rc = iota Lanes.zero rc := by
  rw [keccakRound, theta_zero, rhoPi_zero, chi_zero]

/-- One round of the zero state, with the last round constant (40_permutation.md R130, R140). -/
theorem laneAt_keccakP_zero_one (i : Nat) :
    laneAt (keccakP Lanes.zero 1) i = if i = 0 then roundConstant 23 else 0 := by
  rw [keccakP_succ _ 0 (by decide), keccakP_zero_rounds, keccakRound_zero, laneAt_iota]
  simp

/-- Settles O28: one round of zero by `laneAt_keccakP_zero_one`; the 24 rounds are vector P1, evaluated. -/
theorem permutationOfTheZeroState : Obligations.PermutationOfTheZeroState := by
  refine ⟨laneAt_keccakP_zero_one 0, fun i _ hne => ?_, by decide +kernel⟩
  rw [laneAt_keccakP_zero_one, if_neg hne]

/-! ### PERMUTE -/

/-- Settles O24: the check of a raw command passes, and the effect retires. -/
theorem permuteAppliesThePermutationOnce : Obligations.PermuteAppliesThePermutationOnce := by
  intro s hp hpos
  refine ⟨?_, fun h0 => ?_⟩
  · rw [exec_of_passed .permute s (by simp [hp]) (checkRaw_of_ready hp hpos)]
    rfl
  · rw [h0]
    exact keccakP_zero_rounds s.lanes

end Sys2Proof.Machine
end

section
/-! SUPPORT. The length and the bits of a padded message, and PAD_ABSORB with no rounds from the zero state
(41_padding.md R160 to R166). -/

namespace Sys2Proof.Machine

/-! ### The number of blocks -/

/-- So many blocks are enough exactly when they have room for the message, the suffix and two more bits (41_padding.md
R161). -/
theorem padBlocks_le_iff {R : Nat} (L sl n : Nat) (h0 : 0 < R) :
    padBlocks R L sl ≤ n ↔ 8 * L + sl + 2 ≤ 8 * (R * n) := by
  have hceil : padBlocks R L sl = (8 * L + sl + 2) ⌈/⌉ (8 * R) := by
    rw [Nat.ceilDiv_eq_add_pred_div, padBlocks, Nat.add_sub_assoc (by omega)]
  rw [hceil, ceilDiv_le_iff_le_mul (by omega), Nat.mul_assoc]

/-- A tail that leaves room for its padding takes one block (41_padding.md R163). -/
theorem padBlocks_eq_one {R L sl : Nat} (h : 8 * L + sl + 2 ≤ 8 * R) : padBlocks R L sl = 1 :=
  have h0 : 0 < R := by omega
  Nat.le_antisymm ((padBlocks_le_iff L sl 1 h0).mpr (by omega)) (one_le_padBlocks L sl h0)

/-- A tail that leaves too little room spills into one more block (41_padding.md R163). -/
theorem padBlocks_eq_two {R L sl : Nat} (h : 8 * R < 8 * L + sl + 2) (h' : 8 * L + sl + 2 ≤ 8 * R + 8 * R) :
    padBlocks R L sl = 2 := by
  have h0 : 0 < R := by omega
  have hle : padBlocks R L sl ≤ 2 := (padBlocks_le_iff L sl 2 h0).mpr (by omega)
  have hgt : ¬padBlocks R L sl ≤ 1 := fun hle1 => by
    have := (padBlocks_le_iff L sl 1 h0).mp hle1
    omega
  omega

/-- The full blocks of a message, and the blocks of its tail (41_padding.md R163). -/
theorem padBlocks_eq_div_add {R : Nat} (L sl : Nat) (h0 : 0 < R) :
    padBlocks R L sl = L / R + padBlocks R (L % R) sl := by
  rw [← padBlocks_add (L / R) (L % R) sl h0, Nat.div_add_mod]

/-- Settles O29: a length of whole blocks is enough when its number of blocks is (`padBlocks_le_iff`); a message of whole
blocks has an empty tail, which takes a block of its own. -/
theorem padLengthIsTheSmallestMultiple : Obligations.PadLengthIsTheSmallestMultiple := by
  intro R m sb sl hR hsl
  have h0 : 0 < R := by omega
  simp only [pad_length m sb sl h0]
  refine ⟨Nat.mul_mod_right _ _, padBlocks_room _ sl h0, fun T' hmul hroom => ?least, fun hmul => ?boundary⟩
  case least =>
    obtain ⟨n, rfl⟩ := Nat.dvd_of_mod_eq_zero hmul
    exact Nat.mul_le_mul_left R ((padBlocks_le_iff _ sl n h0).mpr hroom)
  case boundary =>
    have htail : padBlocks R 0 sl = 1 := padBlocks_eq_one (by omega)
    rw [padBlocks_eq_div_add _ sl h0, hmul, htail, Nat.mul_add, Nat.mul_div_cancel' (Nat.dvd_of_mod_eq_zero hmul),
      Nat.mul_one]

/-- Past the message and its first padding byte there are zeros and the final 1 (41_padding.md R161). -/
theorem pad_getD_of_gt {R : Nat} {m : List Byte} (sb : Byte) {sl k : Nat} (h0 : 0 < R) (hm : m.length < k)
    (hk : k < R * padBlocks R m.length sl) :
    (pad R m sb sl).getD k 0 = if k = R * padBlocks R m.length sl - 1 then 0x80 else 0 := by
  rw [pad_getD m sb sl k h0 hk, if_neg (by omega), if_neg (by omega)]
  exact BitVec.zero_or

/-- Settles O31: the number of blocks is that of the full ones and of the tail; the block spilled into lies past the first
padding byte. -/
theorem padBlockCount : Obligations.PadBlockCount := by
  intro R m sb sl hR hsl L P
  have h0 : 0 < R := by omega
  have hlen : P.length = R * padBlocks R L sl := pad_length m sb sl h0
  have hsplit : padBlocks R L sl = L / R + padBlocks R (L % R) sl := padBlocks_eq_div_add L sl h0
  refine ⟨fun h => ?fits, fun htail hsl7 => ?spills, fun hlt h => ?tailOnly⟩
  case fits =>
    rw [hlen, hsplit, padBlocks_eq_one (by omega)]
  case tailOnly =>
    rw [hlen, padBlocks_eq_one (by omega), Nat.mul_one]
  case spills =>
    have hblocks : padBlocks R L sl = L / R + 2 := by
      rw [hsplit, padBlocks_eq_two (by omega) (by omega)]
    have hL := Nat.div_add_mod L R
    have htwo : R * (L / R + 2) = R * (L / R + 1) + R := Nat.mul_succ R (L / R + 1)
    have hone : R * (L / R + 1) = R * (L / R) + R := Nat.mul_succ R (L / R)
    refine ⟨by rw [hlen, hblocks], fun k hk => ?_⟩
    rw [pad_getD_of_gt sb h0 (show L < R * (L / R + 1) + k by omega) (by rw [hblocks]; omega), hblocks]
    exact if_congr (by omega) rfl rfl

/-! ### The bits -/

/-- The suffix and the leading 1 in the first padding byte (41_padding.md R161): a suffix below `2^sl` has no bit from `sl`
on. -/
theorem getLsbD_firstPaddingByte {sb : Byte} {sl j : Nat} (hsb : sb.toNat < 2 ^ sl) (hj : j < 8) :
    (sb ||| (1 : Byte) <<< sl).getLsbD j = if j < sl then sb.getLsbD j else decide (j = sl) := by
  have hone : ((1 : Byte) <<< sl).getLsbD j = decide (sl = j) := by
    change (BitVec.twoPow 8 sl).getLsbD j = _
    rw [BitVec.getLsbD_twoPow, ← Bool.decide_and]
    exact decide_eq_decide.mpr (by omega)
  rw [BitVec.getLsbD_or, hone]
  split
  · rw [decide_eq_false (by omega), Bool.or_false]
  · have hzero : sb.getLsbD j = false :=
      Nat.testBit_lt_two_pow (hsb.trans_le (Nat.pow_le_pow_right (by decide) (by omega)))
    rw [hzero, Bool.false_or]
    exact decide_eq_decide.mpr eq_comm

/-- The final 1 is bit `8T-1` (41_padding.md R161). -/
theorem getLsbD_finalPaddingBit (T k : Nat) (hT : 0 < T) :
    (if k / 8 = T - 1 then (0x80 : Byte) else 0).getLsbD (k % 8) = decide (k = 8 * T - 1) := by
  have topBit : ∀ j < 8, (0x80 : Byte).getLsbD j = decide (j = 7) := by decide
  split
  · rw [topBit _ (Nat.mod_lt _ (by decide))]
    exact decide_eq_decide.mpr (by omega)
  · rw [decide_eq_false (by omega)]
    exact BitVec.getLsbD_zero

/-- Settles O30: bit `k` lies in the message, in the first padding byte or past it, and the final 1 is ORed in. -/
theorem padIsMessageSuffixAndTenStarOne : Obligations.PadIsMessageSuffixAndTenStarOne := by
  intro R m sb sl hR hsl hsb P L T
  have h0 : 0 < R := by omega
  have hT : T = R * padBlocks R L sl := pad_length m sb sl h0
  have hroom : 8 * L + sl + 2 ≤ 8 * T := hT ▸ padBlocks_room L sl h0
  refine ⟨by rw [hT, padBlocks, Nat.add_sub_assoc (by omega)], by omega, fun k hk => ?_⟩
  rw [pad_getD m sb sl (k / 8) h0 (by rw [← hT]; omega), ← hT, BitVec.getLsbD_or,
    getLsbD_finalPaddingBit T k (by omega)]
  rcases Nat.lt_trichotomy (k / 8) L with hmsg | hfirst | hzeros
  · have hlast : decide (k = 8 * T - 1) = false := decide_eq_false (by omega)
    rw [if_pos hmsg, if_pos (show k < 8 * L by omega), hlast, Bool.or_false]
  · have hj : k - 8 * L = k % 8 := by omega
    have hsuffix : k < 8 * L + sl ↔ k % 8 < sl := by omega
    have hlead : k = 8 * L + sl ↔ k % 8 = sl := by omega
    rw [if_neg (show ¬k / 8 < m.length by omega), if_pos hfirst, getLsbD_firstPaddingByte hsb (by omega),
      if_neg (show ¬k < 8 * L by omega), hj]
    simp only [hsuffix, hlead]
    split
    · rw [decide_eq_false (by omega), Bool.or_false]
    · by_cases h : k % 8 = sl <;> simp [h]
  · rw [if_neg (show ¬k / 8 < m.length by omega), if_neg (show ¬k / 8 = m.length by omega),
      if_neg (show ¬k < 8 * L by omega), if_neg (show ¬k < 8 * L + sl by omega),
      if_neg (show ¬k = 8 * L + sl by omega)]
    simp

/-! ### PAD_ABSORB -/

/-- PAD_ABSORB where the raw commands are legal passes its checks (42_sponge.md R189). -/
theorem exec_padAbsorb_of_ready {s : State} {len : BitVec 8} (h : RawReady s) (hlen : len.toNat ≤ 200) :
    exec (.padAbsorb len) s = .next (retire (padAbsorbOp (windowSlice s.din 0 len.toNat) s)) := by
  have hcheck : check (.padAbsorb len) s = none :=
    (Option.orElse_eq_none _ _).mpr ⟨checkRaw_of_ready h.phase_eq h.pos_zero, checkLen_of_le hlen⟩
  rw [exec_of_passed _ s (by simp [h.phase_eq]) hcheck]
  rfl

/-- With no rounds and capacity 0, PAD_ABSORB leaves the XOR of the padded blocks (41_padding.md R166). -/
theorem exec_padAbsorb_no_rounds {s : State} {len : BitVec 8} (h : RawReady s) (hlen : len.toNat ≤ 200)
    (hrounds : s.act.rounds = 0) (hcap : s.act.capacity = 0) :
    ∃ t, exec (.padAbsorb len) s = .next t ∧
      t.lanes = spongeAbsorb 200 0 (padBlocks 200 len.toNat s.act.sl.toNat)
        (pad 200 (windowSlice s.din 0 len.toNat) s.act.sb s.act.sl.toNat) s.lanes := by
  have hrate : s.rate = 200 := by rw [State.rate, h.valid.rate_eq, hcap]; rfl
  refine ⟨_, exec_padAbsorb_of_ready h hlen, ?_⟩
  rw [padAbsorbOp_eq _ _ (by omega), hrate, hrounds, windowSlice_length_of_le _ _ hlen]
  rfl

/-- A block of the whole state is XORed into every byte (42_sponge.md R180). -/
theorem stateByte_xorBlock_take (A : Lanes) (bs : List Byte) {k : Nat} (hk : k < 200) :
    stateByte (xorBlock A 200 (bs.take 200)) k = stateByte A k ^^^ bs.getD k 0 := by
  rw [stateByte_xorBlock _ _ _ _ hk, if_pos hk, List.getD, List.getElem?_take_of_lt hk]
  rfl

/-- Settles O32: with no rounds the blocks are XORed into the zero state; one block is the padded message itself. -/
theorem padIsVisibleThroughTheStateWindow : Obligations.PadIsVisibleThroughTheStateWindow := by
  intro s len h hrounds hcap hlanes P
  have hP (hlen : len.toNat ≤ 200) : P.length = 200 * padBlocks 200 len.toNat s.act.sl.toNat := by
    rw [pad_length _ _ _ (by decide), windowSlice_length_of_le _ _ hlen]
  refine ⟨fun hfits => ?one, fun hlen hsl => ?two⟩
  case one =>
    have hlen : len.toNat ≤ 200 := by omega
    have hsl := h.valid.suffix_len_le
    obtain ⟨t, hexec, ht⟩ := exec_padAbsorb_no_rounds h hlen hrounds hcap
    have hone : padBlocks 200 len.toNat s.act.sl.toNat = 1 := padBlocks_eq_one (by omega)
    rw [hone, hlanes, spongeAbsorb_one, keccakP_zero_rounds] at ht
    refine ⟨t, hexec, list_ext_getD 0 (by rw [stateBytes_length, hP hlen, hone]) fun k hk => ?_⟩
    rw [stateBytes_length] at hk
    rw [stateBytes_getD _ _ _ _ hk, Nat.zero_add, ht, stateByte_xorBlock_take _ _ hk, stateByte_zero]
    exact BitVec.zero_xor
  case two =>
    have hle : len.toNat ≤ 200 := by omega
    obtain ⟨t, hexec, ht⟩ := exec_padAbsorb_no_rounds h hle hrounds hcap
    have htwo : padBlocks 200 len.toNat s.act.sl.toNat = 1 + 1 := by
      rw [hlen, hsl]; exact padBlocks_eq_two (by decide) (by decide)
    rw [htwo, hlanes, spongeAbsorb_add, spongeAbsorb_one, spongeAbsorb_one, keccakP_zero_rounds,
      keccakP_zero_rounds] at ht
    refine ⟨t, hexec, by rw [hP hle, htwo], fun k hk => ?_⟩
    have hsecond : (P.drop (200 * 1)).getD k 0 = P.getD (200 + k) 0 := by
      rw [List.getD, List.getElem?_drop]
      rfl
    rw [ht, stateByte_xorBlock_take _ _ hk, stateByte_xorBlock_take _ _ hk, stateByte_zero, hsecond]
    exact congrArg (· ^^^ _) BitVec.zero_xor

end Sys2Proof.Machine
end

section
/-! SUPPORT. The sponge commands where they are legal (42_sponge.md), and their agreement with UPDATE and FINALIZE in a
running session (42_sponge.md R190, R191). -/

namespace Sys2Proof.Machine

/-! ### The commands where they are legal -/

theorem RawReady.accumulating {s : State} (h : RawReady s) : Accumulating s where
  phase_eq := h.phase_eq
  valid := h.valid
  pos_lt := by
    have hrate := h.valid.rate_bounds
    have hpos : s.pos.toNat = 0 := congrArg BitVec.toNat h.pos_zero
    omega

theorem RawReady.bufferedBytes_eq_nil {s : State} (h : RawReady s) : bufferedBytes s = [] := by
  rw [bufferedBytes, h.pos_zero]
  exact windowSlice_zero_len s.buf 0

/-- A state that keeps the phase, the configuration and `pos` is ready for the next raw command (10_state.md R24). -/
theorem RawReady.of_eq {s t : State} (h : RawReady s) (hphase : t.phase = s.phase) (hact : t.act = s.act)
    (hpos : t.pos = s.pos) : RawReady t :=
  ⟨hphase.trans h.phase_eq, hact ▸ h.valid, hpos.trans h.pos_zero⟩

/-- A raw command leaves the state ready for the next one (10_state.md R24). -/
theorem RawReady.retire_effectOf {i : Instr} {s : State} (h : RawReady s) (hi : i.isRaw = true) :
    RawReady (retire (effectOf i s)) := by
  obtain ⟨hphase, hact, hpos⟩ := effectOf_session_of_raw hi s
  exact h.of_eq hphase hact hpos

theorem Accumulating.phase_ne_fault {s : State} (h : Accumulating s) : s.phase ≠ .fault := by
  simp [h.phase_eq]

/-- The checks of ABSORB and DUPLEX pass on LEN = R where the raw commands are legal (60_exceptions.md R261). -/
theorem RawReady.check_block {s : State} (h : RawReady s) :
    check (.absorb s.act.rate) s = none ∧ check (.duplex s.act.rate) s = none := by
  have hraw : checkRaw s = none := checkRaw_of_ready h.phase_eq h.pos_zero
  have hlen : checkLen s.rate = none := checkLen_of_le h.accumulating.rate_le
  have hblock : checkBlock s.rate s = none := if_neg (not_not.mpr rfl)
  simp only [check, hraw, hlen, hblock, Option.orElse_none, and_self]

theorem exec_absorb_of_ready {s : State} (h : RawReady s) :
    exec (.absorb s.act.rate) s = .next (retire (absorbBlock (dinBytes s.rate s) s)) :=
  exec_of_passed _ s h.accumulating.phase_ne_fault h.check_block.1

theorem exec_duplex_of_ready {s : State} (h : RawReady s) :
    exec (.duplex s.act.rate) s = .next (retire (duplexBlock (dinBytes s.rate s) s)) :=
  exec_of_passed _ s h.accumulating.phase_ne_fault h.check_block.2

theorem exec_squeeze_of_ready {s : State} {len : BitVec 8} (h : RawReady s) (hlen : len.toNat ≤ 200) :
    exec (.squeeze len) s = .next (retire (squeezeOut len.toNat s)) :=
  exec_of_passed _ s h.accumulating.phase_ne_fault
    ((Option.orElse_eq_none _ _).mpr ⟨checkRaw_of_ready h.phase_eq h.pos_zero, checkLen_of_le hlen⟩)

theorem exec_update_of_accumulating {s : State} {len : BitVec 8} (h : Accumulating s) (hlen : len.toNat ≤ 200) :
    exec (.update len) s = .next (retire (updateEffect (dinBytes len.toNat s) s)) :=
  exec_of_passed _ s h.phase_ne_fault
    ((Option.orElse_eq_none _ _).mpr ⟨checkPhase_of_accum h.phase_eq, checkLen_of_le hlen⟩)

theorem exec_finalize_of_accumulating {s : State} (h : Accumulating s) :
    exec .finalize s = .next (retire (finalizeEffect s)) :=
  exec_of_passed _ s h.phase_ne_fault (checkPhase_of_accum h.phase_eq)

theorem dinBytes_length {n : Nat} (s : State) (h : n ≤ 200) : (dinBytes n s).length = n :=
  windowSlice_length_of_le s.din n h

/-! ### ABSORB and DUPLEX -/

/-- The input block XORed in, byte by byte (42_sponge.md R180). -/
theorem stateByte_xorBlock_dinBytes (s : State) {k : Nat} (hk : k < 200) :
    stateByte (xorBlock s.lanes s.rate (dinBytes s.rate s)) k =
      if k < s.rate then stateByte s.lanes k ^^^ byteAt s.din k else stateByte s.lanes k := by
  rw [stateByte_xorBlock _ _ _ _ hk]
  split
  case isTrue hlt => rw [dinBytes, windowSlice_getD _ _ _ _ hlt, Nat.zero_add]
  case isFalse => rfl

/-- The first `n` bytes of the state written to the start of a window (42_sponge.md R186). -/
theorem byteAt_windowSplice_stateBytes (w : Window) (A : Lanes) (n : Nat) {k : Nat} (hk : k < 200) :
    byteAt (windowSplice w 0 (stateBytes A 0 n)) k = if k < n then stateByte A k else byteAt w k := by
  rw [byteAt_windowSplice _ _ _ _ hk, stateBytes_length, Nat.zero_add]
  by_cases hlt : k < n
  · rw [if_pos ⟨Nat.zero_le k, hlt⟩, if_pos hlt, stateBytes_getD _ _ _ _ (by omega), Nat.zero_add, Nat.sub_zero]
  · rw [if_neg (fun h => hlt h.2), if_neg hlt]

/-- Settles O33: the checks pass, and the block is XORed in byte by byte. -/
theorem absorbXorsTheBlockAndPermutes : Obligations.AbsorbXorsTheBlockAndPermutes := by
  intro s h
  exact ⟨xorBlock s.lanes s.rate (dinBytes s.rate s), exec_absorb_of_ready h,
    fun _ hk => stateByte_xorBlock_dinBytes s hk⟩

/-- Settles O36: DUPLEX writes the output from the state it finds, and then absorbs as ABSORB does. -/
theorem duplexOutputsTheStateBeforeTheInput : Obligations.DuplexOutputsTheStateBeforeTheInput := by
  intro s h
  exact ⟨xorBlock s.lanes s.rate (dinBytes s.rate s), windowSplice s.dout 0 (stateBytes s.lanes 0 s.rate),
    exec_duplex_of_ready h, fun _ hk => stateByte_xorBlock_dinBytes s hk,
    fun _ hk => byteAt_windowSplice_stateBytes s.dout s.lanes s.rate hk⟩

/-! ### SQUEEZE -/

/-- Settles O34: the loop of SQUEEZE from offset 0. -/
theorem squeezePermutesAfterEveryFullBlock : Obligations.SqueezePermutesAfterEveryFullBlock := by
  intro s len h hlen R rounds
  obtain ⟨dout, hsqueeze, hin, hout⟩ := squeezeOut_eq len.toNat s h.accumulating.rate_pos hlen
  exact ⟨dout, by rw [exec_squeeze_of_ready h hlen, hsqueeze]; rfl, hin, hout⟩

/-- Past `q` whole blocks the output stream is the stream of the state permuted `q` times (42_sponge.md R184). -/
theorem outputByte_after_blocks (R rounds q k : Nat) (A : Lanes) (h0 : 0 < R) :
    stateByte (permuteTimes rounds ((R * q + k) / R) A) ((R * q + k) % R) =
      stateByte (permuteTimes rounds (k / R) (permuteTimes rounds q A)) (k % R) := by
  rw [Nat.mul_add_div h0, Nat.mul_add_mod, permuteTimes_add]

/-- Two windows' starts together are a third one's start when they hold its bytes in order. -/
theorem windowSlice_append_windowSlice {u v w : Window} {a b : Nat} (hab : a + b ≤ 200)
    (hfirst : ∀ k < a, byteAt u k = byteAt w k) (hsecond : ∀ k < b, byteAt v k = byteAt w (a + k)) :
    windowSlice u 0 a ++ windowSlice v 0 b = windowSlice w 0 (a + b) := by
  have ha : (windowSlice u 0 a).length = a := windowSlice_length_of_le u a (by omega)
  have hb : (windowSlice v 0 b).length = b := windowSlice_length_of_le v b (by omega)
  have hw : (windowSlice w 0 (a + b)).length = a + b := windowSlice_length_of_le w (a + b) hab
  apply list_ext_getD 0 (by rw [List.length_append, ha, hb, hw])
  intro k hk
  rw [List.length_append, ha, hb] at hk
  rw [getD_append, ha, windowSlice_getD w 0 _ k hk, Nat.zero_add]
  split
  case isTrue hlt => rw [windowSlice_getD u 0 a k hlt, Nat.zero_add, hfirst k hlt]
  case isFalse hge =>
    rw [windowSlice_getD v 0 b (k - a) (by omega), Nat.zero_add, hsecond (k - a) (by omega),
      Nat.add_sub_cancel' (by omega)]

/-- What SQUEEZE leaves, with the state ready for the next raw command (42_sponge.md R184). -/
theorem exists_exec_squeeze_of_ready {s : State} {len : BitVec 8} (h : RawReady s) (hlen : len.toNat ≤ 200) :
    ∃ t, exec (.squeeze len) s = .next t ∧ RawReady t ∧ t.act = s.act ∧
      t.lanes = permuteTimes s.act.rounds.toNat (len.toNat / s.rate) s.lanes ∧
      t.permCount = s.permCount + BitVec.ofNat 32 (len.toNat / s.rate) ∧
      ∀ k < len.toNat,
        byteAt t.dout k = stateByte (permuteTimes s.act.rounds.toNat (k / s.rate) s.lanes) (k % s.rate) := by
  obtain ⟨dout, hexec, hin, -⟩ := squeezePermutesAfterEveryFullBlock s len h hlen
  exact ⟨_, hexec, h.of_eq rfl rfl rfl, rfl, rfl, rfl, hin⟩

/-- Settles O35: after whole blocks the second SQUEEZE starts from the state the one SQUEEZE has there. -/
theorem squeezeContinuesOnBlockBoundaries : Obligations.SqueezeContinuesOnBlockBoundaries := by
  intro s a b ab h hmul hsum hle
  have h0 := h.accumulating.rate_pos
  obtain ⟨q, hq⟩ := Nat.dvd_of_mod_eq_zero hmul
  have hqa : a.toNat / s.rate = q := by rw [hq]; exact Nat.mul_div_cancel_left q h0
  have hqab : ab.toNat / s.rate = q + b.toNat / s.rate := by rw [hsum, hq]; exact Nat.mul_add_div h0 q _
  obtain ⟨t, ht, hready, hact, htlanes, htcount, htout⟩ := exists_exec_squeeze_of_ready (len := a) h (by omega)
  obtain ⟨u, hu, -, -, hulanes, hucount, huout⟩ := exists_exec_squeeze_of_ready (len := b) hready (by omega)
  obtain ⟨w, hw, -, -, hwlanes, hwcount, hwout⟩ := exists_exec_squeeze_of_ready h hle
  have hrate : t.rate = s.rate := by rw [State.rate, hact]
  rw [hqa] at htlanes htcount
  rw [hrate, hact, htlanes] at hulanes huout
  refine ⟨t, u, w, ht, hu, hw, ?bytes, ?lanes, ?count⟩
  case bytes =>
    rw [hsum]
    refine windowSlice_append_windowSlice (by omega) (fun k hk => ?_) (fun k hk => ?_)
    · rw [htout k hk, hwout k (by omega)]
    · rw [huout k hk, hwout (a.toNat + k) (by omega), hq]
      exact (outputByte_after_blocks s.rate _ q k s.lanes h0).symm
  case lanes => rw [hulanes, hwlanes, hqab, permuteTimes_add]
  case count => rw [hucount, hwcount, htcount, hrate, hqab, count_add]

/-! ### PAD_ABSORB -/

/-- Settles O38: the block loop runs over the whole padded message, which has at least one block. -/
theorem padAbsorbAbsorbsThePaddedMessage : Obligations.PadAbsorbAbsorbsThePaddedMessage := by
  intro s len h hlen R P
  have h0 := h.accumulating.rate_pos
  have hblocks : P.length / R = padBlocks R (windowSlice s.din 0 len.toNat).length s.act.sl.toNat :=
    pad_length_div _ _ _ h0
  rw [hblocks]
  refine ⟨?_, one_le_padBlocks _ _ h0⟩
  rw [exec_padAbsorb_of_ready h hlen, padAbsorbOp_eq _ s h0]
  rfl

/-! ### Raw and incremental sessions -/

/-- UPDATE at `pos = 0` absorbs the full blocks of the data and buffers the rest (43_incremental.md R223). -/
theorem updateEffect_of_ready {s : State} (h : RawReady s) (m : List Byte) :
    ∃ buf : Window,
      updateEffect m s =
        { s with
          lanes := spongeAbsorb s.rate s.act.rounds.toNat (m.length / s.rate) m s.lanes,
          permCount := s.permCount + BitVec.ofNat 32 (m.length / s.rate),
          buf := buf,
          pos := BitVec.ofNat 8 (m.length % s.rate) } ∧
      windowSlice buf 0 (m.length % s.rate) = m.drop (s.rate * (m.length / s.rate)) := by
  have hpos : s.pos.toNat = 0 := congrArg BitVec.toNat h.pos_zero
  have hupdate := updateEffect_eq m s h.accumulating.pos_lt h.accumulating.rate_le
  rwa [h.bufferedBytes_eq_nil, hpos, Nat.zero_add, List.nil_append] at hupdate

/-- Settles O39: both commands absorb the one block, and UPDATE leaves nothing in the buffer. -/
theorem absorbAndUpdateOfOneBlockAgree : Obligations.AbsorbAndUpdateOfOneBlockAgree := by
  intro s h
  have ha := h.accumulating
  have hlen := dinBytes_length s ha.rate_le
  obtain ⟨buf, hupdate, -⟩ := updateEffect_of_ready h (dinBytes s.rate s)
  rw [hlen, Nat.div_self ha.rate_pos, Nat.mod_self, spongeAbsorb_one,
    List.take_of_length_le (Nat.le_of_eq hlen)] at hupdate
  refine ⟨_, _, exec_absorb_of_ready h, exec_update_of_accumulating ha ha.rate_le, ?_⟩
  rw [hupdate]
  exact ⟨rfl, h.pos_zero, rfl, rfl⟩

/-- Absorbing a padded message is absorbing its full blocks and then its padded tail (42_sponge.md R190). -/
theorem spongeAbsorb_pad {R : Nat} (rounds : Nat) (m : List Byte) (sb : Byte) (sl : Nat) (A : Lanes) (h0 : 0 < R) :
    spongeAbsorb R rounds (padBlocks R m.length sl) (pad R m sb sl) A =
      spongeAbsorb R rounds (padBlocks R (m.length % R) sl) (pad R (m.drop (R * (m.length / R))) sb sl)
        (spongeAbsorb R rounds (m.length / R) m A) := by
  have hfull : (m.take (R * (m.length / R))).length = R * (m.length / R) :=
    List.length_take_of_le (Nat.mul_div_le m.length R)
  have hpad : pad R m sb sl = m.take (R * (m.length / R)) ++ pad R (m.drop (R * (m.length / R))) sb sl := by
    rw [← pad_append _ _ sb sl _ h0 hfull, List.take_append_drop]
  have hm : spongeAbsorb R rounds (m.length / R) m A =
      spongeAbsorb R rounds (m.length / R) (m.take (R * (m.length / R))) A := by
    rw [← spongeAbsorb_append _ _ _ _ (m.drop (R * (m.length / R))) _ (Nat.le_of_eq hfull.symm),
      List.take_append_drop]
  rw [hpad, padBlocks_eq_div_add _ _ h0, spongeAbsorb_pieces _ _ _ _ _ _ _ hfull, hm]

/-- The two states have the same permutation state, configuration, count and DOUT: all that the squeeze reads and
writes. -/
structure SameSponge (s t : State) : Prop where
  lanes : t.lanes = s.lanes
  act : t.act = s.act
  permCount : t.permCount = s.permCount
  dout : t.dout = s.dout

/-- One block of output from such states. -/
theorem SameSponge.write_output {s t : State} (h : SameSponge s t) (off n : Nat) :
    SameSponge { s with dout := windowSplice s.dout off (stateBytes s.lanes 0 n) }
      { t with dout := windowSplice t.dout off (stateBytes t.lanes 0 n) } :=
  ⟨h.lanes, h.act, h.permCount, by simp only [h.lanes, h.dout]⟩

theorem SameSponge.permute {s t : State} (h : SameSponge s t) : SameSponge (permuteOp s) (permuteOp t) :=
  ⟨by simp only [permuteOp_lanes, h.lanes, h.act], h.act, by simp only [permuteOp_permCount, h.permCount], h.dout⟩

/-- The squeeze of such states is the same (42_sponge.md R182). -/
theorem SameSponge.squeeze {s t : State} (h : SameSponge s t) (n fuel off : Nat) :
    SameSponge (squeezeFrom n fuel off s) (squeezeFrom n fuel off t) := by
  induction fuel generalizing off s t with
  | zero =>
    rw [squeezeFrom, squeezeFrom]
    exact h.write_output off (n - off)
  | succ fuel ih =>
    have hrate : t.rate = s.rate := by rw [State.rate, h.act]
    rw [squeezeFrom, squeezeFrom, hrate]
    split
    case isTrue => exact ih (h.write_output off s.rate).permute (off + s.rate)
    case isFalse => exact h.write_output off (n - off)

/-- Padding and absorbing the rest that a completed UPDATE left in the buffer leaves what the padded absorption of the
whole data leaves (42_sponge.md R190). -/
theorem sameSponge_padAbsorbOp_updateEffect {s u : State} (h : RawReady s) (m : List Byte)
    (hu : u = retire (updateEffect m s)) :
    SameSponge (retire (padAbsorbOp m s)) (padAbsorbOp (bufferedBytes u) u) := by
  have ha := h.accumulating
  have hmod := Nat.mod_lt m.length ha.rate_pos
  have hrate := ha.rate_le
  obtain ⟨buf, hupdate, htail⟩ := updateEffect_of_ready h m
  rw [hupdate] at hu
  have hpos : u.pos.toNat = m.length % s.rate := by
    rw [hu, retire_pos, BitVec.toNat_ofNat, Nat.mod_eq_of_lt (by omega)]
  have hbuffered : bufferedBytes u = m.drop (s.rate * (m.length / s.rate)) := by
    rw [bufferedBytes, hpos, hu, retire_buf, htail]
  have hlen : (m.drop (s.rate * (m.length / s.rate))).length = m.length % s.rate := by
    rw [← hbuffered, bufferedBytes_length (by omega), hpos]
  rw [hbuffered, hu, padAbsorbOp_eq m s ha.rate_pos, padAbsorbOp_eq (m.drop _) _ ?rate, hlen]
  case rate => exact ha.rate_pos
  refine ⟨?lanes, rfl, ?count, rfl⟩
  case lanes => exact (spongeAbsorb_pad _ m _ _ s.lanes ha.rate_pos).symm
  case count =>
    simp only [retire_permCount, retire_act, retire_rate]
    rw [count_add, ← padBlocks_eq_div_add _ _ ha.rate_pos]

/-- Settles O40: after UPDATE, FINALIZE pads and absorbs to the same sponge as PAD_ABSORB, and both squeeze it. -/
theorem rawAndIncrementalDigestsAgree : Obligations.RawAndIncrementalDigestsAgree := by
  intro s len h hlen
  have ha := h.accumulating
  have hpadded : RawReady (retire (padAbsorbOp (dinBytes len.toNat s) s)) :=
    h.retire_effectOf (i := .padAbsorb len) rfl
  have hupdated : Accumulating (retire (updateEffect (dinBytes len.toNat s) s)) :=
    (accumulating_updateEffect ha _).of_eq rfl rfl rfl
  obtain ⟨-, -, hact⟩ := kept_updateEffect (dinBytes len.toNat s) s
  have hsqueezed := (sameSponge_padAbsorbOp_updateEffect h (dinBytes len.toNat s) rfl).squeeze s.act.digest.toNat
    s.act.digest.toNat 0
  refine ⟨_, _, _, _, exec_padAbsorb_of_ready h hlen, exec_squeeze_of_ready hpadded h.valid.digest_le,
    exec_update_of_accumulating ha hlen, exec_finalize_of_accumulating hupdated, ?_⟩
  rw [finalizeEffect, retire_act, hact]
  exact ⟨hsqueezed.dout.symm, hsqueezed.lanes.symm, hsqueezed.permCount.symm,
    (hpadded.retire_effectOf (i := .squeeze s.act.digest) rfl).phase_eq, rfl⟩

end Sys2Proof.Machine
end

section
/-! SUPPORT. INIT, UPDATE and FINALIZE where they are legal, the session they make, and the hash it computes
(43_incremental.md R221 to R226). -/

namespace Sys2Proof.Machine

/-! ### INIT -/

/-- INIT with a VARIANT that selects a valid configuration starts a session with it (43_incremental.md R222). -/
theorem exec_init_of_valid {v : BitVec 4} {s : State} {c : SessionConfig} (hp : s.phase ≠ .fault)
    (hv : variantConfig v s = some c) (hc : ValidConfig c) :
    exec (.init v) s = .next (retire (startSession c s)) := by
  have hcheck : check (.init v) s = none := (check_init_eq_none_iff v s).mpr ⟨c, hv, hc⟩
  rw [exec_of_passed _ s hp hcheck]
  exact congrArg (fun t => Host.Outcome.next (retire t)) (initEffect_of_some hv)

/-- Settles O17: each row of R103 is the configuration its VARIANT selects, and passes every check. -/
theorem initPresetStartsSession : Obligations.InitPresetStartsSession := by
  intro s v c hp hrow
  simp only [List.mem_cons, Prod.mk.injEq, List.not_mem_nil, or_false] at hrow
  rcases hrow with ⟨rfl, rfl⟩ | ⟨rfl, rfl⟩ | ⟨rfl, rfl⟩ | ⟨rfl, rfl⟩ | ⟨rfl, rfl⟩ <;>
    exact exec_init_of_valid hp rfl ((checkConfig_eq_none_iff _).mp (by decide))

/-- Settles O18: VARIANT 0 selects the configuration of CFG0 and CFG1. -/
theorem initCustomStartsSession : Obligations.InitCustomStartsSession := by
  intro s hp c hc
  exact exec_init_of_valid hp rfl hc

/-! ### UPDATE and FINALIZE -/

/-- UPDATE in ACCUM with LEN at most 200 has its effect, whatever the configuration (43_incremental.md R223). -/
theorem exec_update_of_accum {s : State} {len : BitVec 8} (hp : s.phase = .accum) (hlen : len.toNat ≤ 200) :
    exec (.update len) s = .next (retire (updateEffect (dinBytes len.toNat s) s)) :=
  exec_of_passed _ s (by simp [hp])
    ((Option.orElse_eq_none _ _).mpr ⟨checkPhase_of_accum hp, checkLen_of_le hlen⟩)

/-- The bytes of DIN put into a window, byte by byte. -/
theorem byteAt_windowSplice_dinBytes (w : Window) (a : Nat) {n : Nat} (s : State) (hn : n ≤ 200) {k : Nat}
    (hk : k < 200) :
    byteAt (windowSplice w a (dinBytes n s)) k = if a ≤ k ∧ k < a + n then byteAt s.din (k - a) else byteAt w k := by
  rw [byteAt_windowSplice _ _ _ _ hk, dinBytes_length s hn]
  split
  case isTrue hin => rw [dinBytes, windowSlice_getD _ _ _ _ (by omega), Nat.zero_add]
  case isFalse => rfl

/-- Settles O19: the first branch of UPDATE appends to the buffer. -/
theorem shortUpdateOnlyBuffers : Obligations.ShortUpdateOnlyBuffers := by
  intro s len hp hlen hshort
  have hl : (dinBytes len.toNat s).length = len.toNat := dinBytes_length s hlen
  have hpos : BitVec.ofNat 8 (s.pos.toNat + (dinBytes len.toNat s).length) = s.pos + len := by
    rw [hl, BitVec.ofNat_add, BitVec.ofNat_toNat, BitVec.ofNat_toNat, BitVec.setWidth_eq, BitVec.setWidth_eq]
  refine ⟨windowSplice s.buf s.pos.toNat (dinBytes len.toNat s), ?_,
    fun k hk => byteAt_windowSplice_dinBytes s.buf s.pos.toNat s hlen hk⟩
  rw [exec_update_of_accum hp hlen, updateEffect_of_short _ s (by rw [hl]; exact hshort), appendToBuffer, hpos]
  rfl

/-- A fill offset below the rate fits its 8 bits (10_state.md R26). -/
theorem Accumulating.toNat_ofNat_mod_rate {s : State} (h : Accumulating s) (n : Nat) :
    (BitVec.ofNat 8 (n % s.rate)).toNat = n % s.rate := by
  have hmod := Nat.mod_lt n h.rate_pos
  have hrate := h.rate_le
  rw [BitVec.toNat_ofNat, Nat.mod_eq_of_lt (by omega)]

/-- Settles O20: UPDATE's effect on DIN[0:LEN). -/
theorem updateAbsorbsEveryFullBlock : Obligations.UpdateAbsorbsEveryFullBlock := by
  intro s len h hlen R M blocks
  obtain ⟨buf, hupdate, htail⟩ := updateEffect_eq (dinBytes len.toNat s) s h.pos_lt h.rate_le
  rw [dinBytes_length s hlen] at hupdate htail
  have hpos := h.toNat_ofNat_mod_rate (s.pos.toNat + len.toNat)
  refine ⟨buf, BitVec.ofNat 8 ((s.pos.toNat + len.toNat) % s.rate), ?_, hpos, ?_⟩
  · rw [exec_update_of_accumulating h hlen, hupdate]
    rfl
  · rw [hpos]
    exact htail

/-- Settles O21: FINALIZE's effect, with the blocks of the padded rest counted by the length of the padded message. -/
theorem finalizeWritesTheDigest : Obligations.FinalizeWritesTheDigest := by
  intro s h R rounds digest P A
  have hpos : s.pos.toNat ≤ 200 := h.pos_lt.le.trans h.rate_le
  have hblocks : P.length / R = padBlocks s.rate s.pos.toNat s.act.sl.toNat := by
    rw [pad_length_div _ _ _ h.rate_pos, windowSlice_length_of_le _ _ hpos]
  obtain ⟨dout, hfinalize, hin, hout⟩ := finalizeEffect_eq s h.rate_pos hpos h.valid.digest_le
  rw [← hblocks] at hfinalize hin
  refine ⟨dout, ?_, hin, hout⟩
  rw [exec_finalize_of_accumulating h, hfinalize]
  rfl

/-! ### The UPDATEs of a session -/

/-- What is left of a message after its full blocks (43_incremental.md R225). -/
abbrev blockTail (R : Nat) (M : List Byte) : List Byte := M.drop (R * (M.length / R))

/-- What is left is `len mod R` bytes (43_incremental.md R223). -/
theorem blockTail_length (R : Nat) (M : List Byte) : (blockTail R M).length = M.length % R := by
  have := Nat.div_add_mod M.length R
  rw [List.length_drop]
  omega

/-- More bytes behind a message: its own full blocks stand first, then those of what was left and the new bytes. -/
theorem length_append_div (R : Nat) (M more : List Byte) (h0 : 0 < R) :
    (M ++ more).length / R = M.length / R + (blockTail R M ++ more).length / R := by
  have hM := Nat.div_add_mod M.length R
  rw [← Nat.mul_add_div h0, List.length_append, List.length_append, blockTail_length, ← Nat.add_assoc, hM]

theorem drop_blocks_append (R : Nat) (M more : List Byte) :
    (M ++ more).drop (R * (M.length / R)) = blockTail R M ++ more :=
  List.drop_append_of_le_length (Nat.mul_div_le M.length R)

theorem blockTail_append (R : Nat) (M more : List Byte) (h0 : 0 < R) :
    blockTail R (M ++ more) = blockTail R (blockTail R M ++ more) := by
  rw [blockTail, length_append_div R M more h0, Nat.mul_add, ← List.drop_drop, drop_blocks_append]

/-- Absorbing the full blocks of a message in two pieces (43_incremental.md R225). -/
theorem spongeAbsorb_append_blocks (R rounds : Nat) (M more : List Byte) (A : Lanes) (h0 : 0 < R) :
    spongeAbsorb R rounds ((M ++ more).length / R) (M ++ more) A =
      spongeAbsorb R rounds ((blockTail R M ++ more).length / R) (blockTail R M ++ more)
        (spongeAbsorb R rounds (M.length / R) M A) := by
  rw [length_append_div R M more h0, spongeAbsorb_add, drop_blocks_append,
    spongeAbsorb_append _ _ _ _ _ _ (Nat.mul_div_le M.length R)]

/-- `a` is the running session `s` after the bytes `m` have been fed to it: the full blocks of the input so far are
absorbed and counted, the rest is buffered, DOUT is as it was (43_incremental.md R225). -/
structure Fed (s : State) (m : List Byte) (a : State) : Prop where
  running : Accumulating a
  act : a.act = s.act
  dout : a.dout = s.dout
  lanes : a.lanes =
    spongeAbsorb s.rate s.act.rounds.toNat ((bufferedBytes s ++ m).length / s.rate) (bufferedBytes s ++ m) s.lanes
  permCount : a.permCount = s.permCount + BitVec.ofNat 32 ((bufferedBytes s ++ m).length / s.rate)
  buffered : bufferedBytes a = blockTail s.rate (bufferedBytes s ++ m)

theorem Accumulating.bufferedBytes_length {s : State} (h : Accumulating s) : (bufferedBytes s).length = s.pos.toNat :=
  Machine.bufferedBytes_length (h.pos_lt.le.trans h.rate_le)

theorem Fed.rate {s a : State} {m : List Byte} (h : Fed s m a) : a.rate = s.rate := by
  rw [State.rate, h.act]

/-- The fill offset is the length of the rest (43_incremental.md R225). -/
theorem Fed.pos {s a : State} {m : List Byte} (h : Fed s m a) :
    a.pos.toNat = (bufferedBytes s ++ m).length % s.rate := by
  rw [← h.running.bufferedBytes_length, h.buffered, blockTail_length]

theorem Fed.pos_lt {s a : State} {m : List Byte} (h : Fed s m a) : a.pos.toNat < s.rate := by
  rw [← h.rate]
  exact h.running.pos_lt

/-- Before any bytes are fed: less than one block is buffered and nothing has been absorbed. -/
theorem Accumulating.fed_nil {s : State} (h : Accumulating s) : Fed s [] s := by
  have hzero : (bufferedBytes s ++ []).length / s.rate = 0 := by
    rw [List.append_nil, h.bufferedBytes_length]
    exact Nat.div_eq_of_lt h.pos_lt
  refine ⟨h, rfl, rfl, ?lanes, ?count, ?buffered⟩
  case lanes => rw [hzero]; rfl
  case count => rw [hzero]; exact (BitVec.add_zero _).symm
  case buffered => rw [blockTail, hzero, Nat.mul_zero, List.drop_zero, List.append_nil]

/-- Feeding more bytes to a session that has been fed (43_incremental.md R225). -/
theorem Fed.trans {s a b : State} {m more : List Byte} (h : Fed s m a) (g : Fed a more b) : Fed s (m ++ more) b := by
  have h0 : 0 < s.rate := h.rate ▸ h.running.rate_pos
  have hlanes := g.lanes
  have hcount := g.permCount
  have hbuffered := g.buffered
  rw [h.buffered, h.rate] at hlanes hcount hbuffered
  refine ⟨g.running, g.act.trans h.act, g.dout.trans h.dout, ?lanes, ?count, ?buffered⟩ <;>
    rw [← List.append_assoc]
  case lanes => rw [hlanes, h.act, h.lanes, spongeAbsorb_append_blocks _ _ (bufferedBytes s ++ m) more _ h0]
  case count => rw [hcount, h.permCount, count_add, length_append_div _ (bufferedBytes s ++ m) more h0]
  case buffered => rw [hbuffered, blockTail_append _ (bufferedBytes s ++ m) more h0]

/-- UPDATE's effect feeds its data (43_incremental.md R223). -/
theorem fed_updateEffect {s : State} (h : Accumulating s) (d : List Byte) : Fed s d (updateEffect d s) := by
  obtain ⟨buf, hupdate, htail⟩ := updateEffect_eq d s h.pos_lt h.rate_le
  have hlen : (bufferedBytes s ++ d).length = s.pos.toNat + d.length := by
    rw [List.length_append, h.bufferedBytes_length]
  have hrunning := accumulating_updateEffect h d
  rw [hupdate] at hrunning ⊢
  refine ⟨hrunning, rfl, rfl, ?lanes, ?count, ?buffered⟩ <;> simp only [blockTail, hlen]
  case buffered => rw [bufferedBytes, h.toNat_ofNat_mod_rate, htail]

/-- Loading DIN leaves a running session one (10_state.md R37). -/
theorem Accumulating.with_din {s : State} (h : Accumulating s) (din : Window) :
    Accumulating { s with din := din } :=
  h.of_eq rfl rfl rfl

/-- What DIN held when the session started is not read again. -/
theorem Fed.of_with_din {s a : State} {din : Window} {m : List Byte} (h : Fed { s with din := din } m a) : Fed s m a :=
  ⟨h.running, h.act, h.dout, h.lanes, h.permCount, h.buffered⟩

/-- The common end of a completion leaves the session as it is (60_exceptions.md R265). -/
theorem Fed.retire {s a : State} {m : List Byte} (h : Fed s m a) : Fed s m (retire a) :=
  ⟨h.running.of_eq rfl rfl rfl, h.act, h.dout, h.lanes, h.permCount, h.buffered⟩

/-- One UPDATE of a session feeds its chunk (70_reset_and_hazards.md R306). -/
theorem exists_feedChunk {s : State} {chunk : List Byte} (h : Accumulating s) (hlen : chunk.length ≤ 200) :
    ∃ t, feedChunk chunk s = .next t ∧ Fed s chunk t := by
  have hloaded := h.with_din (windowSplice s.din 0 chunk)
  have hn : (BitVec.ofNat 8 chunk.length).toNat = chunk.length := by
    rw [BitVec.toNat_ofNat, Nat.mod_eq_of_lt (by omega)]
  refine ⟨_, ?_, (fed_updateEffect hloaded chunk).of_with_din.retire⟩
  rw [feedChunk, exec_update_of_accumulating hloaded (hn.trans_le hlen), hn, dinBytes,
    windowSlice_windowSplice_zero s.din chunk hlen]

/-- The UPDATEs of a session feed their chunks, in order (70_reset_and_hazards.md R306). -/
theorem exists_feedAll {s : State} {chunks : List (List Byte)} (h : Accumulating s)
    (hlen : ∀ x ∈ chunks, x.length ≤ 200) : ∃ a, feedAll chunks s = .next a ∧ Fed s chunks.flatten a := by
  induction chunks generalizing s with
  | nil => exact ⟨s, rfl, h.fed_nil⟩
  | cons chunk more ih =>
    obtain ⟨hchunk, hmore⟩ := List.forall_mem_cons.mp hlen
    obtain ⟨t, ht, hfirst⟩ := exists_feedChunk h hchunk
    obtain ⟨a, ha, hrest⟩ := ih hfirst.running hmore
    exact ⟨a, by rw [feedAll, ht]; exact ha, hfirst.trans hrest⟩

/-! ### Chunking -/

/-- Two sessions that have been fed the same bytes agree on what the sponge reads and writes. -/
theorem Fed.sameSponge {s a b : State} {m : List Byte} (h : Fed s m a) (g : Fed s m b) : SameSponge a b :=
  ⟨g.lanes.trans h.lanes.symm, g.act.trans h.act.symm, g.permCount.trans h.permCount.symm,
    g.dout.trans h.dout.symm⟩

/-- Padded absorption of the same message into such states is the same (42_sponge.md R188). -/
theorem SameSponge.padAbsorb {s t : State} (h : SameSponge s t) (m : List Byte) (h0 : 0 < s.rate) :
    SameSponge (padAbsorbOp m s) (padAbsorbOp m t) := by
  have hrate : t.rate = s.rate := by rw [State.rate, h.act]
  rw [padAbsorbOp_eq m s h0, padAbsorbOp_eq m t (hrate ▸ h0)]
  exact ⟨by simp only [hrate, h.act, h.lanes], h.act, by simp only [hrate, h.act, h.permCount], h.dout⟩

/-- FINALIZE of two sessions that have been fed the same bytes is the same (43_incremental.md R225). -/
theorem Fed.sameSponge_finalizeEffect {s a b : State} {m : List Byte} (h : Fed s m a) (g : Fed s m b) :
    SameSponge (finalizeEffect a) (finalizeEffect b) := by
  have hsame := h.sameSponge g
  have hbuffered : bufferedBytes b = bufferedBytes a := g.buffered.trans h.buffered.symm
  have hsqueezed := (hsame.padAbsorb (bufferedBytes a) h.running.rate_pos).squeeze a.act.digest.toNat
    a.act.digest.toNat 0
  rw [finalizeEffect, finalizeEffect, hbuffered, hsame.act]
  exact ⟨hsqueezed.lanes, hsqueezed.act, hsqueezed.permCount, hsqueezed.dout⟩

/-- After its UPDATEs a session can be finalized. -/
theorem feedAndFinalize_eq {s a : State} {chunks : List (List Byte)} (h : feedAll chunks s = .next a)
    (ha : Accumulating a) : feedAndFinalize chunks s = .next (retire (finalizeEffect a)) := by
  rw [feedAndFinalize, h]
  exact exec_finalize_of_accumulating ha

/-- Settles O22: both ways of cutting feed the same bytes, and FINALIZE reads nothing else. -/
theorem digestDoesNotDependOnChunking : Obligations.DigestDoesNotDependOnChunking := by
  intro s xs ys h hxs hys hflatten R M
  obtain ⟨a, ha, hfedA⟩ := exists_feedAll h hxs
  obtain ⟨b, hb, hfedB⟩ := exists_feedAll h hys
  rw [← hflatten] at hfedB
  have hsame := hfedA.sameSponge_finalizeEffect hfedB
  refine ⟨a, _, _, ha, feedAndFinalize_eq ha hfedA.running, feedAndFinalize_eq hb hfedB.running, hsame.dout.symm,
    hsame.lanes.symm, hsame.permCount.symm, rfl, rfl, hfedA.pos_lt, hfedA.buffered, hfedA.lanes⟩

/-! ### The hash -/

/-- The second loop of R221 gives as many bytes as it is asked for. -/
theorem spongeOutput_length (R rounds fuel d : Nat) (A : Lanes) (h0 : 0 < R) (hf : d ≤ fuel) :
    (spongeOutput R rounds fuel d A).length = d := by
  induction fuel generalizing d A with
  | zero => rw [spongeOutput, List.length_nil]; omega
  | succ fuel ih =>
    rw [spongeOutput]
    split
    case isTrue hd => rw [hd, List.length_nil]
    case isFalse hd => rw [List.length_append, stateBytes_length, ih _ _ (by omega)]; omega

/-- Byte `k` of that output is byte `k mod R` of the state after `k div R` permutations. -/
theorem spongeOutput_getD (R rounds fuel d k : Nat) (A : Lanes) (h0 : 0 < R) (hf : d ≤ fuel) (hk : k < d) :
    (spongeOutput R rounds fuel d A).getD k 0 = stateByte (permuteTimes rounds (k / R) A) (k % R) := by
  induction fuel generalizing d k A with
  | zero => omega
  | succ fuel ih =>
    rw [spongeOutput, if_neg (by omega), getD_append, stateBytes_length]
    rcases Nat.lt_or_ge k R with hfirst | hlater
    · rw [if_pos (by omega), stateBytes_getD _ _ _ _ (by omega), Nat.zero_add, Nat.div_eq_of_lt hfirst,
        Nat.mod_eq_of_lt hfirst, permuteTimes]
    · have hmin : min R d = R := by omega
      have hdiv : k / R = (k - R) / R + 1 := by rw [← Nat.add_div_right _ h0, Nat.sub_add_cancel hlater]
      rw [hmin, if_neg (by omega), ih _ _ _ (by omega) (by omega), ← Nat.mod_eq_sub_mod hlater, hdiv, permuteTimes]

/-- A window whose first bytes are the output of a state holds `SqueezeOut` of it. -/
theorem windowSlice_eq_spongeOutput {w : Window} {R rounds d : Nat} {A : Lanes} (h0 : 0 < R) (hd : d ≤ 200)
    (hw : ∀ k < d, byteAt w k = stateByte (permuteTimes rounds (k / R) A) (k % R)) :
    windowSlice w 0 d = spongeOutput R rounds d d A := by
  have hlen : (windowSlice w 0 d).length = d := windowSlice_length_of_le w d hd
  refine list_ext_getD 0 (by rw [hlen, spongeOutput_length _ _ _ _ _ h0 (Nat.le_refl d)]) fun k hk => ?_
  rw [hlen] at hk
  rw [windowSlice_getD _ _ _ _ hk, Nat.zero_add, hw k hk, spongeOutput_getD _ _ _ _ _ _ h0 (Nat.le_refl d) hk]

/-- The hash state, absorbed as a session absorbs it: the full blocks, then the padded rest (43_incremental.md R221). -/
theorem hashState_eq (c : SessionConfig) (M : List Byte) (h0 : 0 < c.rate.toNat) :
    hashState c M =
      spongeAbsorb c.rate.toNat c.rounds.toNat
        ((pad c.rate.toNat (blockTail c.rate.toNat M) c.sb c.sl.toNat).length / c.rate.toNat)
        (pad c.rate.toNat (blockTail c.rate.toNat M) c.sb c.sl.toNat)
        (spongeAbsorb c.rate.toNat c.rounds.toNat (M.length / c.rate.toNat) M Lanes.zero) := by
  rw [pad_length_div _ _ _ h0, blockTail_length, ← spongeAbsorb_pad _ _ _ _ _ h0, ← pad_length_div _ c.sb _ h0]
  rfl

/-- Settles O23: after the UPDATEs the session has absorbed the full blocks of the message and holds the rest, which
FINALIZE pads, absorbs and squeezes. -/
theorem sessionComputesTheHash : Obligations.SessionComputesTheHash := by
  intro s chunks hphase hvalid hlanes hpos hcount hlen M R tail
  have hready : RawReady s := ⟨hphase, hvalid, hpos⟩
  have h0 : 0 < R := hready.accumulating.rate_pos
  obtain ⟨t, ht, hfed⟩ := exists_feedAll hready.accumulating hlen
  have hbuffered := hfed.buffered
  have htlanes := hfed.lanes
  have htcount := hfed.permCount
  have htpos := hfed.pos
  rw [hready.bufferedBytes_eq_nil, List.nil_append] at hbuffered htlanes htcount htpos
  rw [bufferedBytes] at hbuffered
  rw [hlanes] at htlanes
  rw [hcount, BitVec.ofNat_eq_ofNat, BitVec.zero_add] at htcount
  obtain ⟨dout, hu, hin, -⟩ := finalizeWritesTheDigest t hfed.running
  rw [hbuffered, htlanes, hfed.act, ← hashState_eq _ _ h0] at hin
  rw [hbuffered, htlanes, htcount, hfed.act] at hu
  refine ⟨t, _, ht, hu, htcount, htpos, ?digest, rfl, ?count⟩
  case digest => exact windowSlice_eq_spongeOutput h0 hvalid.digest_le hin
  case count => rw [← BitVec.ofNat_add, ← Nat.add_assoc]

end Sys2Proof.Machine
end

section
/-! SUPPORT. Commands and completions: what each of them leaves, and the first failed check (60_exceptions.md R261 to
R266). -/

namespace Sys2Proof.Machine

/-! ### What a completion leaves -/

/-- Settles O7: in each of the three ways a completion can go, its common end is reached and the frame is kept. -/
theorem everyCommandCompletes : Obligations.EveryCommandCompletes := by
  intro i s
  refine ⟨_, exec_eq_completion i s, ?_⟩
  rcases completion_cases (check i s) (effectOf i) s with ⟨-, h⟩ | ⟨-, c, -, h⟩ | ⟨-, -, h⟩ <;> rw [h]
  · exact ⟨rfl, rfl, rfl, rfl, rfl, rfl, rfl, rfl, rfl, rfl, rfl, rfl⟩
  · exact ⟨rfl, rfl, rfl, rfl, rfl, rfl, rfl, rfl, rfl, rfl, rfl, rfl⟩
  · have hk := kept_effectOf i s
    exact ⟨rfl, rfl, rfl, hk.irqEn, hk.cmdLast, hk.cfg0, hk.cfg1, hk.din, hk.rstN, hk.inputs, hk.response,
      hk.freeCount⟩

/-- The completion of a word that spells a command is that command (60_exceptions.md R265). -/
theorem complete_of_decoded {s : State} {i : Instr} (h : decode s.pending = .ok i) : complete s = exec i s := by
  simp [complete, h]

/-- In FAULT the completion of any pending word abandons the command (60_exceptions.md R265). -/
theorem complete_of_fault {s : State} (h : s.phase = .fault) : complete s = .next (retire s) := by
  cases hd : decode s.pending with
  | ok i => rw [complete_of_decoded hd, exec_of_fault i s h]
  | error r => simp only [complete, hd, completion_of_fault _ _ _ h]

/-- Settles O8: whether or not the pending word spells a command, FAULT abandons it. -/
theorem commandInFaultIsAbandoned : Obligations.CommandInFaultIsAbandoned := by
  intro s h
  exact ⟨complete_of_fault h, fun i => exec_of_fault i s h⟩

/-- No effect of a command enters FAULT: only a failed check does (60_exceptions.md R266). -/
theorem effectOf_phase_ne_fault (i : Instr) {s : State} (h : s.phase ≠ .fault) : (effectOf i s).phase ≠ .fault := by
  have raw (hi : i.isRaw = true) : (effectOf i s).phase ≠ .fault := by
    rwa [(effectOf_session_of_raw hi s).1]
  cases i with
  | init v =>
    change (initEffect v s).phase ≠ .fault
    cases hv : variantConfig v s with
    | none => simpa [initEffect, hv] using h
    | some c => simp [initEffect_of_some hv]
  | update len =>
    obtain ⟨-, hphase, -⟩ := kept_updateEffect (dinBytes (lenBytes len) s) s
    exact hphase ▸ h
  | finalize =>
    obtain ⟨-, hphase, -⟩ := kept_finalizeEffect s
    exact ne_of_eq_of_ne hphase (by decide)
  | permute => exact raw rfl
  | absorb len => exact raw rfl
  | squeeze len => exact raw rfl
  | duplex len => exact raw rfl
  | padAbsorb len => exact raw rfl

/-- Settles O9: a completion that enters FAULT has failed a check, and no check answers the code of no fault. -/
theorem faultIsPrecise : Obligations.FaultIsPrecise := by
  intro i s t hs h ht
  rw [exec_eq_completion] at h
  cases h
  rcases completion_cases (check i s) (effectOf i) s with ⟨hf, -⟩ | ⟨-, c, hc, he⟩ | ⟨-, -, he⟩
  · exact absurd hf hs
  · exact ⟨c, fun hn => check_ne_none_cause i s (hn ▸ hc), he⟩
  · rw [he] at ht
    exact absurd ht (effectOf_phase_ne_fault i hs)

/-! ### The first failed check -/

/-- The phase is checked before anything else, for every command but INIT (60_exceptions.md R261). -/
theorem check_of_phase_failed {i : Instr} {s : State} {c : Cause} (hi : ∀ v, i ≠ .init v)
    (h : checkPhase s = some c) : check i s = some c := by
  cases i with
  | init v => exact absurd rfl (hi v)
  | update | finalize | permute | absorb | squeeze | duplex | padAbsorb => simp [check, checkRaw, h]

theorem checkPhase_of_not_running {s : State} (h : s.phase = .idle ∨ s.phase = .final) :
    checkPhase s = some .sequence := by
  rcases h with h | h <;> simp [checkPhase, h]

/-- A raw command checks next that the buffer is empty (60_exceptions.md R261). -/
theorem check_of_buffered {i : Instr} {s : State} (hi : i.isRaw = true) (hp : s.phase = .accum) (hpos : s.pos ≠ 0) :
    check i s = some .sequence := by
  have hraw : checkRaw s = some .sequence := by rw [checkRaw_of_accum hp, if_pos hpos]
  cases i with
  | init | update | finalize => cases hi
  | permute | absorb | squeeze | duplex | padAbsorb => simp [check, hraw]

/-- A command of format L checks its LEN after the SEQUENCE checks (60_exceptions.md R261). -/
theorem check_of_long {i : Instr} {s : State} (hp : s.phase = .accum) (hraw : i.isRaw = true → s.pos = 0)
    (hi : i.format = .L) (hlen : 200 < i.operand.toNat) : check i s = some .badLen := by
  cases i with
  | init | finalize | permute => cases hi
  | update len =>
    rw [Instr.operand, BitVec.toNat_setWidth_of_le (by decide)] at hlen
    simp [check, checkPhase_of_accum hp, checkLen_of_gt hlen]
  | absorb len | squeeze len | duplex len | padAbsorb len =>
    rw [Instr.operand, BitVec.toNat_setWidth_of_le (by decide)] at hlen
    simp [check, checkRaw_of_ready hp (hraw rfl), checkLen_of_gt hlen]

/-- ABSORB and DUPLEX check last that LEN is the rate (60_exceptions.md R261). -/
theorem check_of_not_rate {i : Instr} {s : State} {len : BitVec 8} (hp : s.phase = .accum) (hpos : s.pos = 0)
    (hi : i = .absorb len ∨ i = .duplex len) (hlen : len.toNat ≤ 200) (hne : len ≠ s.act.rate) :
    check i s = some .blockLen := by
  have hblock : checkBlock (lenBytes len) s = some .blockLen := if_pos (mt BitVec.eq_of_toNat_eq hne)
  rcases hi with rfl | rfl <;> simp [check, checkRaw_of_ready hp hpos, checkLen_of_le hlen, hblock]

/-- Settles O11: each check answers its cause where the ones before it pass, and the cause names the fault. -/
theorem firstFailedCheckNamesTheFault : Obligations.FirstFailedCheckNamesTheFault := by
  intro i s hi
  have accum {c : Cause} (hp : s.phase = .accum) (hc : check i s = some c) : exec i s = .next (faultedWith c s) :=
    exec_of_failed i s c (by simp [hp]) hc
  refine ⟨fun hp => ?_, fun hp hraw hpos => accum hp (check_of_buffered hraw hp hpos),
    fun hp hraw hL hlen => accum hp (check_of_long hp hraw hL hlen),
    fun hp hpos len hi hlen hne => accum hp (check_of_not_rate hp hpos hi hlen hne)⟩
  refine exec_of_failed i s .sequence ?_ (check_of_phase_failed hi (checkPhase_of_not_running hp))
  rcases hp with hp | hp <;> simp [hp]

/-- Settles O12: the checks of VARIANT 0 are those of the configuration in CFG0 and CFG1, each reached where the ones
before it pass. -/
theorem initChecksConfigurationInOrder : Obligations.InitChecksConfigurationInOrder := by
  intro s hp r c0 c1 badRounds badCapacity badRate badDigest badSuffix
  have fails {c : Cause} (h : checkConfig (customConfig s) = some c) : r = .next (faultedWith c s) :=
    exec_of_failed (.init 0) s c hp h
  rw [checkConfig_eq] at fails
  refine ⟨fun h1 => fails ?_, fun h1 h2 => fails ?_, fun h1 h2 h3 => fails ?_, fun h1 h2 h3 h4 => fails ?_,
    fun h1 h2 h3 h4 h5 => fails ?_⟩
  · rw [if_pos h1]
  · rw [if_neg h1, if_pos h2]
  · rw [if_neg h1, if_neg h2, if_pos h3]
  · rw [if_neg h1, if_neg h2, if_neg h3, if_pos h4]
  · rw [if_neg h1, if_neg h2, if_neg h3, if_neg h4, if_pos h5]

end Sys2Proof.Machine
end

section
/-! SUPPORT. Turns: the engine's, the host's write to CMD, an overrun, FAULT and its exit, and the interrupt level
(60_exceptions.md R264 to R281). -/

namespace Sys2Proof.Machine

/-! ### The engine's turn -/

theorem engineTurn_of_busy {s : State} (hr : s.rstN = true) (hb : s.busy = true) : engineTurn s = complete s := by
  simp [engineTurn, hr, hb]

/-- With no command in flight the engine keeps its state (60_exceptions.md R281). -/
theorem engineTurn_of_idle {s : State} (hb : s.busy = false) : engineTurn s = .next s := by
  simp [engineTurn, hb]

/-- With no turn left the engine has the turn (assumption 2). -/
theorem step_of_no_turn {s : State} (h : s.inputs = []) : step s = engineTurn s := by
  simp [step, h]

theorem step_of_engine {s : State} {rest : List Turn} (h : s.inputs = .engine :: rest) :
    step s = engineTurn { s with inputs := rest } := by
  simp [step, h]

theorem step_of_access {s : State} {a : BusAccess} {rest : List Turn} (h : s.inputs = .access a :: rest) :
    step s = hostTurn a { s with inputs := rest } := by
  simp [step, h]

/-- With a command in flight the engine's turn completes it (60_exceptions.md R265). -/
theorem engineTurn_of_decoded {s : State} {i : Instr} (hr : s.rstN = true) (hb : s.busy = true)
    (h : decode s.pending = .ok i) : engineTurn s = exec i s := by
  rw [engineTurn_of_busy hr hb, complete_of_decoded h]

/-- In FAULT the engine's turn abandons the command in flight (60_exceptions.md R265, R269). -/
theorem engineTurn_of_fault {s : State} (hr : s.rstN = true) (hb : s.busy = true) (hp : s.phase = .fault) :
    engineTurn s = .next (retire s) := by
  rw [engineTurn_of_busy hr hb, complete_of_fault hp]

/-- Settles O5: the two ways the engine has the turn. -/
theorem stepRunsTheDecodedCommand : Obligations.StepRunsTheDecodedCommand := by
  intro s i hr hb hd
  constructor
  · intro rest h
    rw [step_of_engine h]
    exact engineTurn_of_decoded hr hb hd
  · intro h
    rw [step_of_no_turn h]
    exact engineTurn_of_decoded hr hb hd

/-- Settles O14: the two ways the engine has the turn. -/
theorem idleEngineKeepsItsState : Obligations.IdleEngineKeepsItsState := by
  intro s hb
  constructor
  · intro h
    rw [step_of_no_turn h, engineTurn_of_idle hb]
  · intro rest h
    rw [step_of_engine h]
    exact engineTurn_of_idle hb

/-! ### A write to CMD -/

theorem hostTurn_cmd (s : State) (w : Word) (hr : s.rstN = true) :
    hostTurn (.write .bits32 0x00C w) s = .next { writeCmd w s with response := .written } :=
  hostTurn_write 0x00C w s hr (by decide)

/-- Settles O50: the three cases of a write to CMD. -/
theorem cmdWriteIsAcceptedDiscardedOrOverrun : Obligations.CmdWriteIsAcceptedDiscardedOrOverrun := by
  intro s w hr
  rw [hostTurn_cmd s w hr]
  refine ⟨fun hp => ?_, fun hp hb => ?_, fun hp hb => ?_⟩
  · rw [writeCmd_of_fault w s hp]
  · rw [writeCmd_of_busy w s hp hb]
  · rw [writeCmd_of_ready w s hp hb]
    rfl

/-- Settles O51: the overrun enters FAULT, and FAULT abandons the command in flight. -/
theorem overrunLosesTheCommandInFlight : Obligations.OverrunLosesTheCommandInFlight := by
  intro s w rest hr hp hb h
  obtain ⟨-, overrun, -⟩ := cmdWriteIsAcceptedDiscardedOrOverrun { s with inputs := .engine :: rest } w hr
  refine ⟨_, ?_, rfl, ?_⟩
  · rw [step_of_access h, overrun hp hb]
  · exact (step_of_engine rfl).trans (engineTurn_of_fault hr hb rfl)

/-- Settles O6: the placed word is pending at the engine's turn, and so is the issued one, which decodes to the
command it encodes. -/
theorem fetchedWordIsCompletedNext : Obligations.FetchedWordIsCompletedNext := by
  constructor
  · intro s w i hd
    have hw : BitVec.ofNat 32 (w.toNat % 2 ^ 32) = w := by
      rw [Nat.mod_eq_of_lt w.isLt, BitVec.ofNat_toNat, BitVec.setWidth_eq]
    rw [State.withFetchWord, hw, step_of_engine rfl]
    exact engineTurn_of_decoded rfl rfl hd
  · intro s i rest hr hb hp hwf h
    obtain ⟨-, -, accepted⟩ :=
      cmdWriteIsAcceptedDiscardedOrOverrun { s with inputs := .engine :: rest } (encode i) hr
    refine ⟨_, (step_of_access h).trans (accepted hp hb), ?_⟩
    rw [step_of_engine rfl]
    exact engineTurn_of_decoded hr rfl (decode_eq_ok_iff_encode.mpr ⟨hwf, rfl⟩)

/-! ### FAULT and its exit -/

/-- In FAULT a served write keeps the phase and the cause, unless it is a soft reset (60_exceptions.md R267, R268). -/
theorem writeReg_of_fault {r : Reg} {v : Word} {s : State} (h : s.phase = .fault) :
    ((writeReg r v s).phase = .fault ∧ (writeReg r v s).err = s.err) ∨
      (r = .ctrl ∧ v.getLsbD 0 = true ∧ writeReg r v s = resetEngine s) := by
  rcases writeReg_cases r v s with he | hreset | ⟨-, -, he⟩ | ⟨-, -, he⟩ | ⟨-, hp, -⟩ | ⟨-, hp, -⟩ |
    ⟨-, hp, -⟩ | ⟨-, c0, c1, din, he⟩
  · exact .inl (by rw [he]; exact ⟨h, rfl⟩)
  · exact .inr hreset
  · exact .inl (by rw [he]; exact ⟨h, rfl⟩)
  · exact .inl (by rw [he]; exact ⟨h, rfl⟩)
  · exact absurd h hp
  · exact absurd h hp
  · exact absurd h hp
  · exact .inl (by rw [he]; exact ⟨h, rfl⟩)

/-- Settles O13: turn by turn; only the reset pin and a soft reset change the phase and the cause. -/
theorem onlyResetLeavesFault : Obligations.OnlyResetLeavesFault := by
  intro s t hp h
  obtain ⟨r, rfl, hcase⟩ := step_cases h
  rcases hcase with ⟨-, -, -, hc⟩ | ⟨-, -, rfl⟩ | ⟨-, off, rest, -, -, rfl⟩ | ⟨-, off, v, rest, hi, -, rfl⟩ |
    ⟨rest, hi, rfl⟩ | ⟨rest, -, rfl⟩
  · cases hc.symm.trans (complete_of_fault hp)
    exact .inl ⟨hp, rfl⟩
  · exact .inl ⟨hp, rfl⟩
  · rcases readReg_state (regAt off) { s with inputs := s.inputs.tail } with he | he <;>
      exact .inl (by rw [he]; exact ⟨hp, rfl⟩)
  · rcases writeReg_of_fault (r := regAt off) (v := v) (s := { s with inputs := s.inputs.tail }) hp with
      hkeep | ⟨hreg, hv, he⟩
    · exact .inl hkeep
    · cases regAt_eq_ctrl hreg
      refine .inr ⟨?_, ?_, rest, .inr ⟨v, hv, hi⟩⟩ <;> rw [he] <;> rfl
  · exact .inr ⟨rfl, rfl, rest, .inl hi⟩
  · exact .inl ⟨hp, rfl⟩

/-! ### The interrupt level -/

/-- DONE or FAULT raises the level to `irq_en` (60_exceptions.md R270). -/
theorem irq_of_raised {s : State} (h : s.done = true ∨ s.phase = .fault) : s.irq = s.irqEn := by
  rcases h with h | h <;> simp [State.irq, h]

/-- With DONE clear the level follows FAULT alone (60_exceptions.md R270). -/
theorem irq_of_not_done {s : State} (h : s.done = false) : s.irq = (s.irqEn && decide (s.phase = .fault)) := by
  simp [State.irq, h]

theorem irq_of_disabled {s : State} (h : s.irqEn = false) : s.irq = false := by
  simp [State.irq, h]

theorem faultEntry_irqEn (c : Cause) (s : State) : (faultEntry c s).irqEn = s.irqEn := by
  by_cases hp : s.phase = .fault
  · rw [faultEntry_of_fault c s hp]
  · rw [faultEntry_of_ne c s hp]

/-- A CTRL write with a 0 in bit 1 clears `irq_en`, as a soft reset too does (10_state.md R30, R44). -/
theorem writeCtrl_irqEn_of_clear {v : Word} (hv : v.getLsbD 1 = false) (s : State) : (writeCtrl v s).irqEn = false := by
  unfold writeCtrl
  split
  case isTrue => rfl
  case isFalse => exact hv

/-- Settles O16: the level is a function of three fields, and each event fixes those that decide it. -/
theorem interruptLevelFollowsDoneAndFault : Obligations.InterruptLevelFollowsDoneAndFault := by
  refine ⟨fun s => ⟨rfl, ?status⟩, ?completion, ?faultEntry, ?doneClear, ?irqDisable, fun s => rfl⟩
  case status =>
    obtain ⟨-, -, -, -, hirq⟩ := statusWord_bits s
    exact ⟨statusWord s, busAccess_read_exact (r := .status) (by decide) rfl (.inr rfl), hirq⟩
  case completion =>
    intro i s t h
    obtain ⟨u, hu, -, hdone, -, hen, -⟩ := everyCommandCompletes i s
    cases hu.symm.trans h
    exact (irq_of_raised (.inl hdone)).trans hen
  case faultEntry =>
    intro c s
    exact (irq_of_raised (.inr (faultEntry_phase c s))).trans (faultEntry_irqEn c s)
  case doneClear =>
    intro s v hr hv
    refine ⟨_, hostTurn_write 0x008 v s hr (by decide), ?_⟩
    rw [show writeReg (regAt 0x008) v s = { s with done := false } from if_pos hv]
    exact irq_of_not_done rfl
  case irqDisable =>
    intro s v hr hv
    exact ⟨_, hostTurn_write 0x004 v s hr (by decide), irq_of_disabled (writeCtrl_irqEn_of_clear hv s)⟩

end Sys2Proof.Machine
end

section
/-! SUPPORT. The hazards of a busy engine (70_reset_and_hazards.md R312 to R314). -/

namespace Sys2Proof.Machine

/-! ### What sets `busy` -/

/-- A served write that takes `busy` from 0 to 1 is an accepted command word (70_reset_and_hazards.md R312). -/
theorem writeReg_sets_busy {r : Reg} {v : Word} {s : State} (hb : s.busy = false) (h : (writeReg r v s).busy = true) :
    r = .cmd ∧ s.phase ≠ .fault ∧ writeReg r v s = accept v s := by
  have stays {t : State} (he : writeReg r v s = t) (ht : t.busy = false) : False := by
    rw [he] at h
    cases ht.symm.trans h
  rcases writeReg_cases r v s with he | ⟨-, -, he⟩ | ⟨-, -, he⟩ | ⟨-, -, he⟩ | ⟨-, -, hbusy, -⟩ | ⟨hr, hp, -, he⟩ |
    ⟨hbusy, -, -⟩ | ⟨-, c0, c1, din, he⟩
  · exact (stays he hb).elim
  · exact (stays he rfl).elim
  · exact (stays he hb).elim
  · exact (stays he hb).elim
  · cases hb.symm.trans hbusy
  · exact ⟨hr, hp, he⟩
  · cases hb.symm.trans hbusy
  · exact (stays he hb).elim

/-- No read moves `busy` (20_memory.md R66). -/
theorem readReg_busy (r : Reg) (s : State) : (readReg r s).1.busy = s.busy := by
  rcases readReg_state r s with h | h <;> rw [h]

/-- Settles O15: along everything a step can be, only a write moves `busy`, and that write is to CMD. -/
theorem onlyACmdWriteSetsBusy : Obligations.OnlyACmdWriteSetsBusy := by
  intro s t hb h ht
  obtain ⟨r, rfl, hcase⟩ := step_cases h
  rcases hcase with ⟨-, hbusy, -, -⟩ | ⟨-, -, rfl⟩ | ⟨-, off, rest, -, -, rfl⟩ | ⟨-, off, w, rest, hi, -, rfl⟩ |
    ⟨rest, -, rfl⟩ | ⟨rest, -, rfl⟩
  · cases hb.symm.trans hbusy
  · cases hb.symm.trans ht
  · cases hb.symm.trans ((readReg_busy (regAt off) { s with inputs := s.inputs.tail }).symm.trans ht)
  · obtain ⟨hreg, hp, he⟩ := writeReg_sets_busy (s := { s with inputs := s.inputs.tail }) hb ht
    cases regAt_eq_cmd hreg
    refine ⟨hp, w, rest, hi, ?_⟩
    rw [he, hi]
    rfl
  · cases ht
  · cases hb.symm.trans ht

/-! ### Writes to an input register while busy -/

/-- The input registers: DIN, CFG0 and CFG1 (70_reset_and_hazards.md R313). -/
def Reg.isInput : Reg → Bool
  | .din _ | .cfg0 | .cfg1 => true
  | .id | .ctrl | .status | .cmd | .pos | .permCount | .acfg0 | .acfg1 | .dout _ | .state _ | .reserved => false

/-- While busy, a write to an input register runs fault entry and stores nothing (70_reset_and_hazards.md R313). -/
theorem writeReg_input_of_busy {r : Reg} (h : r.isInput = true) (v : Word) {s : State} (hb : s.busy = true) :
    writeReg r v s = faultEntry .busyWrite s := by
  cases r
  case din | cfg0 | cfg1 => exact if_pos hb
  all_goals cases h

/-- The offsets of the input registers (20_memory.md R63). -/
theorem regAt_isInput {off : Offset}
    (h : off.toNat = 0x018 ∨ off.toNat = 0x01C ∨ (0x100 ≤ off.toNat ∧ off.toNat ≤ 0x1C4)) :
    (regAt off).isInput = true := by
  rcases h with h | h | h
  · rw [regAt, h]; rfl
  · rw [regAt, h]; rfl
  · rw [regAt_of_din_range off h]; rfl

/-- Settles O52: the write runs fault entry, which acts outside FAULT only. -/
theorem busyInputWriteIsDiscardedAndFaults : Obligations.BusyInputWriteIsDiscardedAndFaults := by
  intro s off v hr hb ha hoff
  rw [hostTurn_write off v s hr ha, writeReg_input_of_busy (regAt_isInput hoff) v hb]
  constructor
  · intro hp
    rw [faultEntry_of_ne _ _ hp]
  · intro hp
    rw [faultEntry_of_fault _ _ hp]

/-! ### Reads while busy -/

/-- The offsets whose reads are open while busy (70_reset_and_hazards.md R314). -/
theorem regAt_openWhileBusy {off : Offset}
    (h : off.toNat = 0x010 ∨ off.toNat = 0x014 ∨ off.toNat = 0x020 ∨ off.toNat = 0x024 ∨
      (0x200 ≤ off.toNat ∧ off.toNat ≤ 0x2C4) ∨ (0x300 ≤ off.toNat ∧ off.toNat ≤ 0x3C4)) :
    (regAt off).openWhileBusy = true := by
  rcases h with h | h | h | h | h | h
  iterate 4
    · rw [regAt, h]; rfl
  · rw [regAt_of_dout_range off h]; rfl
  · rw [regAt_of_state_range off h]; rfl

/-- An open read answers the free value and advances its counter (70_reset_and_hazards.md R314, assumption 3). -/
theorem busAccess_read_open {off : Offset} {s : State} (ha : off.toNat % 4 = 0) (hb : s.busy = true)
    (h : (regAt off).openWhileBusy = true) :
    busAccess (.read .bits32 off) s =
      ({ s with freeCount := s.freeCount + 1 }, .data (Config.busyRead s.freeCount)) := by
  rw [busAccess_read off s ha, readReg_of_open _ s hb h]

/-- A DIN read packs the four bytes from its offset on, busy or not (20_memory.md R61, 70_reset_and_hazards.md R314). -/
theorem busAccess_read_din {off : Offset} (s : State) (ha : off.toNat % 4 = 0) (h1 : 0x100 ≤ off.toNat)
    (h2 : off.toNat ≤ 0x1C4) :
    ∃ w : Word, busAccess (.read .bits32 off) s = (s, .data w) ∧
      ∀ i < 4, w.extractLsb' (8 * i) 8 = byteAt s.din (off.toNat - 0x100 + i) := by
  refine ⟨_, busAccess_read_exact ha (regAt_of_din_range off ⟨h1, h2⟩) (.inr rfl), fun i hi => ?_⟩
  have hk : 4 * ((off.toNat - 0x100) / 4) = off.toNat - 0x100 := by omega
  exact (wordByte_windowWord s.din _ hi).trans (by rw [hk])

/-- Settles O53: the open registers answer the free value, every other one its word, whose fields are the state's. -/
theorem busyReadsAreOpenOrExact : Obligations.BusyReadsAreOpenOrExact := by
  intro s off hb ha
  have read (r : Reg) (o : Nat) (hmap : regAtNat o = r) (hexact : r.openWhileBusy = false) (ho : off.toNat = o) :
      busAccess (.read .bits32 off) s = (s, .data (regValue r s)) :=
    busAccess_read_exact ha (by rw [regAt, ho, hmap]) (.inr hexact)
  obtain ⟨hbusy, hdone, hfault, hres, hirq⟩ := statusWord_bits s
  obtain ⟨hphase, hmid, herr, htop⟩ := statusWord_fields s
  refine ⟨fun h => busAccess_read_open ha hb (regAt_openWhileBusy h), read .id 0x000 rfl rfl,
    fun h => ⟨_, read .ctrl 0x004 rfl rfl h, ctrlWord_fields s⟩,
    fun h => ⟨_, read .status 0x008 rfl rfl h, hbusy.trans hb, hdone, hfault, hres, hphase, hmid, herr, hirq, htop⟩,
    read .cmd 0x00C rfl rfl,
    fun h => ⟨_, read .cfg0 0x018 rfl rfl h, cfg0Word_fields s.cfg0⟩,
    fun h => ⟨_, read .cfg1 0x01C rfl rfl h, cfg1Word_fields s.cfg1⟩,
    busAccess_read_din s ha⟩

end Sys2Proof.Machine
end

section
/-! SUPPORT. Soft and hardware reset (70_reset_and_hazards.md R300 to R303). -/

namespace Sys2Proof.Machine

/-! ### Soft reset -/

/-- With `rst_n` released the reset values are those of `State.reset`, but for the turns, the recorded answer and the
counter (10_state.md R44, 70_reset_and_hazards.md R302). -/
theorem resetEngine_of_released {s : State} (hr : s.rstN = true) :
    resetEngine s =
      { State.reset with inputs := s.inputs, response := s.response, freeCount := s.freeCount } := by
  rw [resetEngine, hr]
  rfl

/-- Settles O56: the CTRL write is the reset of the engine, whatever the state was. -/
theorem softResetEqualsReset : Obligations.SoftResetEqualsReset := by
  intro s v hr hv
  rw [hostTurn_write 0x004 v s hr (by decide),
    show writeReg (regAt 0x004) v s = resetEngine s from if_pos hv, resetEngine_of_released hr]

/-! ### The reset pin -/

theorem step_of_assertReset {s : State} {rest : List Turn} (h : s.inputs = .assertReset :: rest) :
    step s = .next (assertResetPin { s with inputs := rest }) := by
  simp [step, h]

theorem step_of_releaseReset {s : State} {rest : List Turn} (h : s.inputs = .releaseReset :: rest) :
    step s = .next (releaseResetPin { s with inputs := rest }) := by
  simp [step, h]

/-- While `rst_n` is asserted the engine takes no step (70_reset_and_hazards.md R300). -/
theorem engineTurn_of_asserted {s : State} (hr : s.rstN = false) : engineTurn s = .next s := by
  simp [engineTurn, hr]

/-- While `rst_n` is asserted an access is outside the model (70_reset_and_hazards.md R300, assumption 6). -/
theorem hostTurn_of_asserted (a : BusAccess) {s : State} (hr : s.rstN = false) :
    hostTurn a s = .refused (.accessDuringReset a) := by
  simp [hostTurn, hr]

/-- Settles O57: turn by turn; the engine's first turn finds `rst_n` asserted, its second no command in flight. -/
theorem hardwareResetAbandonsTheCommand : Obligations.HardwareResetAbandonsTheCommand := by
  constructor
  · intro s rest h
    refine ⟨_, _, _, step_of_assertReset h, rfl, ?_, rfl, step_of_releaseReset rfl, rfl, ?_⟩
    · exact (step_of_engine rfl).trans (engineTurn_of_asserted rfl)
    · exact (step_of_engine rfl).trans (engineTurn_of_idle rfl)
  · intro s a rest hr h
    exact (step_of_access h).trans (hostTurn_of_asserted a hr)

end Sys2Proof.Machine
end
